-- ==== Sys2Proof/Word.lean ====
section
/-! DEFINITION. The word types of the unit: the 32-bit word of the register map and the limb vector of a field element. -/

namespace Sys2Proof

/-- A 32-bit word: a register of the map, a command word (R72, R100). -/
abbrev Word := BitVec 32

/-- One limb in its 32-bit unsigned container (R23). -/
abbrev Limb := BitVec 32

/-- A limb vector `(a[0], ..., a[8])`, limb 0 least significant (R12, R77): the content of one FE register (R21). -/
structure FE where
  l0 : Limb
  l1 : Limb
  l2 : Limb
  l3 : Limb
  l4 : Limb
  l5 : Limb
  l6 : Limb
  l7 : Limb
  l8 : Limb
  deriving DecidableEq, Repr, Inhabited

/-- The all-zero vector. -/
def FE.zero : FE := ⟨0, 0, 0, 0, 0, 0, 0, 0, 0⟩

end Sys2Proof
end

