-- ==== Sys2Proof/Config.lean ====
section
/-! DEFINITION. What the spec leaves open: opaque constants with no body, so that nothing can be proved of their values. -/

namespace Sys2Proof

/-- The free vector a command writes where U1 says "any value": result number `slot` of the command that is the
`use`-th to complete. It is read only when a register the command reads is not in slack (log 4). -/
opaque Config.anyFE (use slot : Nat) : FE

/-- The free content of DOUT after a TOBIG of a register that is not in slack (U1, log 4). -/
opaque Config.anyDout (use : Nat) : Vector Word 8

/-- The ReduceCarry row for a carry above 7, which R131 says does not exist (log 13). -/
opaque Config.noCarryRow (c : Nat) : FE

/-- BASE divided by 256: the open parameter of R71, which must be a multiple of 256 (U5, log 3). -/
opaque Config.basePage : Nat

/-- BASE, the host address of the register map (R71). -/
def Config.base : Nat := 256 * Config.basePage

/-- INFINITY_RESULT, the pair an entry point of the host layer returns for an identity result (R252, D35, log 19). -/
opaque Config.infinityResult : Int × Int

end Sys2Proof
end

