-- ==== Sys2Proof/Syntax.lean ====
section
/-! DEFINITION. The 16 commands of R105, one constructor each, with their decoded operands (R101 to R103). -/

namespace Sys2Proof

/-- An index into the FE register file (R104). -/
abbrev Reg := Fin 64

/-- The five constants of the constant space (R70, R222). -/
inductive ConstId where
  | zero
  | one
  | a
  | bm
  | pv
  deriving DecidableEq, Repr

/-- A command. A register operand that names a pair, an affine pair, a point or a table is the index of its first
register (R26 to R29). -/
inductive Instr where
  /-- R235. -/
  | nop
  /-- R136. -/
  | fadd (rd ra rb : Reg)
  /-- R137. -/
  | fsub (rd ra rb : Reg)
  /-- R162. -/
  | fmul (rd ra rb : Reg)
  /-- R163. -/
  | fsqr (rd ra : Reg)
  /-- R165. -/
  | fmul2 (rd ra rb : Reg)
  /-- R166. -/
  | fsqr2 (rd ra : Reg)
  /-- R181. -/
  | frombig (rd : Reg)
  /-- R183. -/
  | tobig (ra : Reg)
  /-- R191. -/
  | pdbl (rd ra : Reg)
  /-- R203. -/
  | padd (rd ra rb : Reg)
  /-- R206. -/
  | paddm (rd ra rb : Reg)
  /-- R216: comb group `g`, entry `idx`. -/
  | sela (rd : Reg) (g : Fin 2) (idx : Fin 16)
  /-- R217: table base `rb`, entry `idx`. -/
  | selj (rd rb : Reg) (idx : Fin 16)
  /-- R220: condition `c`. -/
  | ccopy (rd ra : Reg) (c : Bool)
  /-- R222. -/
  | ldc (rd : Reg) (k : ConstId)
  deriving DecidableEq, Repr

end Sys2Proof
end

