-- ==== Sys2Proof/WellFormed.lean ====
section
/-! DEFINITION. The operand limits of R104 and R276: every multi-register operand lies inside `f[0..63]`. -/

namespace Sys2Proof

/-- A pair or affine operand fits: its index is at most 62 (R27, R28). -/
def Reg.fitsPair (r : Reg) : Bool := decide (r.val ≤ 62)

/-- A Jacobian point operand fits: its index is at most 61 (R26). -/
def Reg.fitsPoint (r : Reg) : Bool := decide (r.val ≤ 61)

/-- A Jacobian table of 48 registers fits: its base is at most 16 (R29). -/
def Reg.fitsTable (r : Reg) : Bool := decide (r.val ≤ 16)

/-- The register limits of R276, command by command. -/
def Instr.wellFormed : Instr → Bool
  | .nop => true
  | .fadd _ _ _ => true
  | .fsub _ _ _ => true
  | .fmul _ _ _ => true
  | .fsqr _ _ => true
  | .fmul2 rd ra rb => rd.fitsPair && ra.fitsPair && rb.fitsPair
  | .fsqr2 rd ra => rd.fitsPair && ra.fitsPair
  | .frombig _ => true
  | .tobig _ => true
  | .pdbl rd ra => rd.fitsPoint && ra.fitsPoint
  | .padd rd ra rb => rd.fitsPoint && ra.fitsPoint && rb.fitsPoint
  | .paddm rd ra rb => rd.fitsPoint && ra.fitsPoint && rb.fitsPair
  | .sela rd _ _ => rd.fitsPair
  | .selj rd rb _ => rd.fitsPoint && rb.fitsTable
  | .ccopy _ _ _ => true
  | .ldc _ _ => true

/-- An instruction within its limits. -/
abbrev Instr.WellFormed (i : Instr) : Prop := i.wellFormed = true

end Sys2Proof
end

