-- ==== Sys2Proof/Decode.lean ====
section
/-! DEFINITION. The command word: its fields (R101), the decoder (R106 to R108), the encoder (R101) and the match and mask
rows of the opcode map (R105). -/

namespace Sys2Proof

/-- The outcome of decoding a word (R108). -/
inductive Decoded where
  /-- One of the 16 commands. -/
  | command (i : Instr)
  /-- ILLEGAL_OPCODE (R106). -/
  | illegalOpcode
  /-- ILLEGAL_OPERAND (R107). -/
  | illegalOperand
  deriving DecidableEq, Repr

/-- The field `w[hi:lo]` as a number (R11). -/
def bits (w : Word) (hi lo : Nat) : Nat := w.toNat / 2 ^ lo % 2 ^ (hi + 1 - lo)

/-- `op`, bits 31:26. -/
def fieldOp (w : Word) : Nat := bits w 31 26

/-- `rd`, bits 25:20. -/
def fieldRd (w : Word) : Nat := bits w 25 20

/-- `ra`, bits 19:14. -/
def fieldRa (w : Word) : Nat := bits w 19 14

/-- `rb`, bits 13:8. -/
def fieldRb (w : Word) : Nat := bits w 13 8

/-- `imm`, bits 7:0. -/
def fieldImm (w : Word) : Nat := bits w 7 0

/-- A register field read as an index (R104). -/
def regOf (n : Nat) : Reg := Fin.ofNat 64 n

/-- The constant number of a constant (R222). -/
def ConstId.num : ConstId → Nat
  | .zero => 0
  | .one => 1
  | .a => 2
  | .bm => 3
  | .pv => 4

/-- The constant with number `n`; 5, 6 and 7 name none (R103, R222). -/
def ConstId.ofNum : Nat → Option ConstId
  | 0 => some .zero
  | 1 => some .one
  | 2 => some .a
  | 3 => some .bm
  | 4 => some .pv
  | _ => none

/-- A word of a legal opcode is the command `i` when the fields its format leaves unused are 0 and `i` is within its
limits, and ILLEGAL_OPERAND otherwise (R107). -/
def commandIf (unusedZero : Bool) (i : Instr) : Decoded :=
  if unusedZero && i.wellFormed then .command i else .illegalOperand

/-- LDC: the constant number must name a constant (R107 (c)). -/
def ldcIf (unusedZero : Bool) (rd : Reg) (k : Option ConstId) : Decoded :=
  match k with
  | some k => commandIf unusedZero (.ldc rd k)
  | none => .illegalOperand

/-- The decoder (R108): opcode first, then operands (R275). -/
def decode (w : Word) : Decoded :=
  let nrd := fieldRd w
  let nra := fieldRa w
  let nrb := fieldRb w
  let imm := fieldImm w
  let rd := regOf nrd
  let ra := regOf nra
  let rb := regOf nrb
  match fieldOp w with
  | 0x00 => commandIf (nrd == 0 && nra == 0 && nrb == 0 && imm == 0) .nop
  | 0x01 => commandIf (imm == 0) (.fadd rd ra rb)
  | 0x02 => commandIf (imm == 0) (.fsub rd ra rb)
  | 0x03 => commandIf (imm == 0) (.fmul rd ra rb)
  | 0x04 => commandIf (nrb == 0 && imm == 0) (.fsqr rd ra)
  | 0x05 => commandIf (imm == 0) (.fmul2 rd ra rb)
  | 0x06 => commandIf (nrb == 0 && imm == 0) (.fsqr2 rd ra)
  | 0x08 => commandIf (nra == 0 && nrb == 0 && imm == 0) (.frombig rd)
  | 0x09 => commandIf (nrd == 0 && nrb == 0 && imm == 0) (.tobig ra)
  | 0x0C => commandIf (nrb == 0 && imm == 0) (.pdbl rd ra)
  | 0x0D => commandIf (imm == 0) (.padd rd ra rb)
  | 0x0E => commandIf (imm == 0) (.paddm rd ra rb)
  | 0x10 => commandIf (nra == 0 && nrb == 0 && bits w 7 5 == 0) (.sela rd (Fin.ofNat 2 (bits w 4 4)) (Fin.ofNat 16 (bits w 3 0)))
  | 0x11 => commandIf (nra == 0 && bits w 7 4 == 0) (.selj rd rb (Fin.ofNat 16 (bits w 3 0)))
  | 0x12 => commandIf (nrb == 0 && bits w 7 1 == 0) (.ccopy rd ra (bits w 0 0 == 1))
  | 0x13 => ldcIf (nra == 0 && nrb == 0 && bits w 7 3 == 0) rd (ConstId.ofNum (bits w 2 0))
  | _ => .illegalOpcode

/-- `word = op·2^26 + rd·2^20 + ra·2^14 + rb·2^8 + imm` (R101). -/
def wordOf (op rd ra rb imm : Nat) : Word :=
  BitVec.ofNat 32 (op * 2 ^ 26 + rd * 2 ^ 20 + ra * 2 ^ 14 + rb * 2 ^ 8 + imm)

/-- The word of a command (R101 to R105, R109). -/
def encode : Instr → Word
  | .nop => wordOf 0x00 0 0 0 0
  | .fadd rd ra rb => wordOf 0x01 rd ra rb 0
  | .fsub rd ra rb => wordOf 0x02 rd ra rb 0
  | .fmul rd ra rb => wordOf 0x03 rd ra rb 0
  | .fsqr rd ra => wordOf 0x04 rd ra 0 0
  | .fmul2 rd ra rb => wordOf 0x05 rd ra rb 0
  | .fsqr2 rd ra => wordOf 0x06 rd ra 0 0
  | .frombig rd => wordOf 0x08 rd 0 0 0
  | .tobig ra => wordOf 0x09 0 ra 0 0
  | .pdbl rd ra => wordOf 0x0C rd ra 0 0
  | .padd rd ra rb => wordOf 0x0D rd ra rb 0
  | .paddm rd ra rb => wordOf 0x0E rd ra rb 0
  | .sela rd g idx => wordOf 0x10 rd 0 0 (16 * g.val + idx.val)
  | .selj rd rb idx => wordOf 0x11 rd 0 rb idx
  | .ccopy rd ra c => wordOf 0x12 rd ra 0 c.toNat
  | .ldc rd k => wordOf 0x13 rd 0 0 k.num

/-- A row of the opcode map: a word can only be the command if `w & mask = pattern` (R105). -/
structure OpcodeRow where
  mnemonic : String
  pattern : Word
  mask : Word
  deriving DecidableEq, Repr

/-- The row matches the word. -/
def OpcodeRow.hits (r : OpcodeRow) (w : Word) : Bool := (w &&& r.mask) == r.pattern

/-- The row of R105 that an instruction's words match. -/
def Instr.row : Instr → OpcodeRow
  | .nop => ⟨"NOP", 0x00000000, 0xFFFFFFFF⟩
  | .fadd _ _ _ => ⟨"FADD", 0x04000000, 0xFC0000FF⟩
  | .fsub _ _ _ => ⟨"FSUB", 0x08000000, 0xFC0000FF⟩
  | .fmul _ _ _ => ⟨"FMUL", 0x0C000000, 0xFC0000FF⟩
  | .fsqr _ _ => ⟨"FSQR", 0x10000000, 0xFC003FFF⟩
  | .fmul2 _ _ _ => ⟨"FMUL2", 0x14000000, 0xFC0000FF⟩
  | .fsqr2 _ _ => ⟨"FSQR2", 0x18000000, 0xFC003FFF⟩
  | .frombig _ => ⟨"FROMBIG", 0x20000000, 0xFC0FFFFF⟩
  | .tobig _ => ⟨"TOBIG", 0x24000000, 0xFFF03FFF⟩
  | .pdbl _ _ => ⟨"PDBL", 0x30000000, 0xFC003FFF⟩
  | .padd _ _ _ => ⟨"PADD", 0x34000000, 0xFC0000FF⟩
  | .paddm _ _ _ => ⟨"PADDM", 0x38000000, 0xFC0000FF⟩
  | .sela _ _ _ => ⟨"SELA", 0x40000000, 0xFC0FFFE0⟩
  | .selj _ _ _ => ⟨"SELJ", 0x44000000, 0xFC0FC0F0⟩
  | .ccopy _ _ _ => ⟨"CCOPY", 0x48000000, 0xFC003FFE⟩
  | .ldc _ _ => ⟨"LDC", 0x4C000000, 0xFC0FFFF8⟩

/-- The instruction the decoder reads from the low `nbits` bits of `w`. A command is one 32-bit word and is stored in no
memory (R37, R85), so no byte order is involved (log 17). -/
def decodeTableWord (nbits w : Nat) : Option Instr :=
  match decode (BitVec.ofNat 32 (w % 2 ^ nbits)) with
  | .command i => some i
  | .illegalOpcode => none
  | .illegalOperand => none

end Sys2Proof
end

