-- ==== Sys2Proof/Machine/State.lean ====
section
/-! DEFINITION. The state of the unit (R20) as plain data, the inputs still to come, the reasons a step can stop, and the
state after reset (R43). -/

namespace Sys2Proof.Machine

/-- CTRL (R35): the bits it stores. SRST holds nothing and the reserved bits read 0. -/
structure Ctrl where
  /-- Bit 1, IE_DONE. -/
  ieDone : Bool
  /-- Bit 2, IE_ERR. -/
  ieErr : Bool
  deriving DecidableEq, Repr

/-- STATUS (R36): its three flags and the error code; the reserved bits read 0. -/
structure Status where
  /-- Bit 0, BUSY. -/
  busy : Bool
  /-- Bit 1, DONE. -/
  done : Bool
  /-- Bit 2, ERR. -/
  err : Bool
  /-- Bits 7:4, ERRCODE. -/
  errcode : BitVec 4
  deriving DecidableEq, Repr

/-- One event of the total order of R82. `off` is the byte offset from BASE (log 3). -/
inductive Event where
  /-- The host's MemRead of `size` bytes (R13, R74). -/
  | read (off size : Nat)
  /-- The host's MemWrite of `size` bytes (R13, R74). -/
  | write (off size : Nat) (v : Word)
  /-- The instant of the completion of the command in flight (R274). -/
  | complete
  /-- A host write to STATUS that falls in the same step as the completion (R36, R275, log 12). -/
  | statusWriteAtCompletion (v : Word)
  /-- The hardware reset input (R300). -/
  | hwReset
  deriving DecidableEq, Repr

/-- The machine. -/
structure State where
  /-- The FE register file `f[0..63]` (R21). -/
  f : Vector FE 64
  /-- DIN, the input port (R33). -/
  din : Vector Word 8
  /-- DOUT, the output port (R34). -/
  dout : Vector Word 8
  /-- CTRL (R35). -/
  ctrl : Ctrl
  /-- STATUS (R36). -/
  status : Status
  /-- CUR, the accepted command word (R39). -/
  cur : Word
  /-- DINL, the copy of DIN taken at acceptance (R39). -/
  dinl : BitVec 256
  /-- The model's own: what the host's last read returned (log 6). -/
  rdata : Word
  /-- The model's own: how many commands have completed, the index of the free values (log 5). -/
  completions : Nat
  /-- The model's own: the events still to come, the next one first (log 1). -/
  schedule : List Event
  deriving DecidableEq, Repr

/-- Why the machine stops with a fault. -/
inductive Fault where
  /-- Raised by a completion when CUR holds no command. The spec accepts only commands (R272), so no run reaches it.
  Safe: the model stops (log 9). -/
  | curNotACommand
  deriving DecidableEq, Repr

/-- Why the model gives no next state. -/
inductive Refusal where
  /-- Raised by exec for an instruction that has no meaning yet. Safe. -/
  | notModelled (mnemonic : String)
  /-- Raised by a host access that is not a 4-byte access at an aligned offset of the window: U2 says a model refuses it
  (R74). Safe (log 8). -/
  | hostAccessUndefined
  /-- Raised by exec for an instruction outside its operand limits, which R107 never accepts. Safe (log 10). -/
  | operandLimit
  deriving DecidableEq, Repr

/-- What a step answers. -/
abbrev Result := Host.Outcome State Fault Refusal

/-- The state after reset (R43): everything 0. The model's own fields start empty and 0 (logs 1, 5, 6). -/
def State.reset : State where
  f := Vector.replicate 64 FE.zero
  din := Vector.replicate 8 0
  dout := Vector.replicate 8 0
  ctrl := { ieDone := false, ieErr := false }
  status := { busy := false, done := false, err := false, errcode := 0 }
  cur := 0
  dinl := 0
  rdata := 0
  completions := 0
  schedule := []

end Sys2Proof.Machine
end

