-- ==== Sys2Proof/Machine/Flags.lean ====
section
/-! DEFINITION. STATUS and CTRL: every way their bits change (R35, R36, R271, R273, R274), the words the host reads, and the
interrupt line (R280). The unit has no arithmetic flags (R42). -/

namespace Sys2Proof.Machine

/-- Acceptance: BUSY set, DONE cleared (R273). -/
def Status.accepted (q : Status) : Status := { q with busy := true, done := false }

/-- Completion: BUSY cleared, DONE set (R274). -/
def Status.completed (q : Status) : Status := { q with busy := false, done := true }

/-- A command error: ERR set, ERRCODE the code (R271). -/
def Status.raised (q : Status) (code : BitVec 4) : Status := { q with err := true, errcode := code }

/-- A host write: bit 1 written 1 clears DONE, bit 2 written 1 clears ERR and ERRCODE together (R36, R279). -/
def Status.cleared (q : Status) (v : Word) : Status :=
  { q with
    done := q.done && !v.getLsbD 1
    err := q.err && !v.getLsbD 2
    errcode := if v.getLsbD 2 then 0 else q.errcode }

/-- STATUS as the host reads it (R36). -/
def Status.word (q : Status) : Word :=
  BitVec.ofNat 32 (q.busy.toNat + 2 * q.done.toNat + 4 * q.err.toNat + 16 * q.errcode.toNat)

/-- CTRL as the host reads it: SRST reads 0 (R35). -/
def Ctrl.word (c : Ctrl) : Word := BitVec.ofNat 32 (2 * c.ieDone.toNat + 4 * c.ieErr.toNat)

/-- A CTRL write with SRST = 0 stores bits 1 and 2 (R35). -/
def Ctrl.ofWord (v : Word) : Ctrl := { ieDone := v.getLsbD 1, ieErr := v.getLsbD 2 }

/-- The interrupt line (R280). -/
def State.irq (s : State) : Bool := (s.status.done && s.ctrl.ieDone) || (s.status.err && s.ctrl.ieErr)

end Sys2Proof.Machine
end

