-- ==== Sys2Proof/Machine/Limbs.lean ====
section
/-! DEFINITION. Limb vectors as integers: widths and offsets (R9, R150), val and Pack (R12), the in-slack bound (R24). -/

namespace Sys2Proof.Machine

/-- `W[i]`: 29 for an even limb, 28 for an odd one (R9). -/
def limbWidth (i : Nat) : Nat := if i % 2 = 0 then 29 else 28

/-- `WOFF[k] = 57·(k div 2) + 29·(k mod 2)`, which is `OFF[k]` for k ≤ 8 (R9, R150). -/
def limbOffset (k : Nat) : Nat := 57 * (k / 2) + 29 * (k % 2)

/-- Limb `i` of a vector as a number (R10, R23); a vector has no limb above 8. -/
def limb (a : FE) : Nat → Nat
  | 0 => a.l0.toNat
  | 1 => a.l1.toNat
  | 2 => a.l2.toNat
  | 3 => a.l3.toNat
  | 4 => a.l4.toNat
  | 5 => a.l5.toNat
  | 6 => a.l6.toNat
  | 7 => a.l7.toNat
  | 8 => a.l8.toNat
  | _ => 0

/-- The vector whose limbs are the numbers `g 0, ..., g 8`, each in its 32-bit container. -/
def ofLimbs (g : Nat → Nat) : FE :=
  ⟨BitVec.ofNat 32 (g 0), BitVec.ofNat 32 (g 1), BitVec.ofNat 32 (g 2), BitVec.ofNat 32 (g 3), BitVec.ofNat 32 (g 4),
    BitVec.ofNat 32 (g 5), BitVec.ofNat 32 (g 6), BitVec.ofNat 32 (g 7), BitVec.ofNat 32 (g 8)⟩

/-- `val(a) = Σ a[i]·2^OFF[i]` (R12). -/
def val (a : FE) : Nat :=
  a.l0.toNat + a.l1.toNat * 2 ^ 29 + a.l2.toNat * 2 ^ 57 + a.l3.toNat * 2 ^ 86 + a.l4.toNat * 2 ^ 114
    + a.l5.toNat * 2 ^ 143 + a.l6.toNat * 2 ^ 171 + a.l7.toNat * 2 ^ 200 + a.l8.toNat * 2 ^ 228

/-- `Pack(v)`: limb i is `(v >> OFF[i]) & MASK[i]` (R12). -/
def pack (v : Nat) : FE := ofLimbs fun i => v / 2 ^ limbOffset i % 2 ^ limbWidth i

/-- `InSlack(a)`: every limb below `2^(W[i]+1)` (R24). -/
abbrev InSlack (a : FE) : Prop :=
  a.l0.toNat < 2 ^ 30 ∧ a.l1.toNat < 2 ^ 29 ∧ a.l2.toNat < 2 ^ 30 ∧ a.l3.toNat < 2 ^ 29 ∧ a.l4.toNat < 2 ^ 30
    ∧ a.l5.toNat < 2 ^ 29 ∧ a.l6.toNat < 2 ^ 30 ∧ a.l7.toNat < 2 ^ 29 ∧ a.l8.toNat < 2 ^ 30

end Sys2Proof.Machine
end

