-- ==== Sys2Proof/Machine/Ops.lean ====
section
/-! DEFINITION. The named operations on the state: registers and ports, reset (R43), the life of a command (R272 to R274),
the command error, which is the unit's one exception action (R271), and the free values of U1. -/

namespace Sys2Proof.Machine

/-- `f[r]` (R13). -/
def State.reg (s : State) (r : Reg) : FE := s.f[r.val]'r.isLt

/-- `f[r] <- v` (R13). -/
def State.setReg (s : State) (r : Reg) (v : FE) : State := { s with f := s.f.set r.val v r.isLt }

/-- The 256-bit integer of a port, word 0 least significant (R33, R34, R78). -/
def portValue (v : Vector Word 8) : Nat :=
  v[0].toNat + v[1].toNat * 2 ^ 32 + v[2].toNat * 2 ^ 64 + v[3].toNat * 2 ^ 96 + v[4].toNat * 2 ^ 128
    + v[5].toNat * 2 ^ 160 + v[6].toNat * 2 ^ 192 + v[7].toNat * 2 ^ 224

/-- The eight words of an integer: word k is `(y >> 32k) mod 2^32` (R183). -/
def portWords (y : Nat) : Vector Word 8 :=
  #v[BitVec.ofNat 32 y, BitVec.ofNat 32 (y / 2 ^ 32), BitVec.ofNat 32 (y / 2 ^ 64), BitVec.ofNat 32 (y / 2 ^ 96),
    BitVec.ofNat 32 (y / 2 ^ 128), BitVec.ofNat 32 (y / 2 ^ 160), BitVec.ofNat 32 (y / 2 ^ 192), BitVec.ofNat 32 (y / 2 ^ 224)]

/-- All eight words of DOUT written at once (R34). -/
def State.setDout (s : State) (v : Vector Word 8) : State := { s with dout := v }

/-- Word k of DIN written (R33). -/
def State.setDin (s : State) (k : Nat) (v : Word) : State := { s with din := s.din.setIfInBounds k v }

/-- The data a host read returns (R76, log 6). -/
def State.setRdata (s : State) (v : Word) : State := { s with rdata := v }

/-- CTRL written. -/
def State.setCtrl (s : State) (c : Ctrl) : State := { s with ctrl := c }

/-- A host write to STATUS (R36). -/
def State.clearFlags (s : State) (v : Word) : State := { s with status := s.status.cleared v }

/-- The events still to come replaced. -/
def State.setSchedule (s : State) (es : List Event) : State := { s with schedule := es }

/-- The reset of R43, by the reset input or by CTRL.SRST (R300): everything the spec gives the unit takes its reset value, so
a command in flight is abandoned. The model's own fields are not the unit's and stay (log 18). -/
def State.doReset (s : State) : State :=
  { State.reset with rdata := s.rdata, completions := s.completions, schedule := s.schedule }

/-- Accepting the word `w`: CUR and DINL latched, BUSY set, DONE cleared (R273). -/
def State.accept (s : State) (w : Word) : State :=
  { s with cur := w, dinl := BitVec.ofNat 256 (portValue s.din), status := s.status.accepted }

/-- `raise Error(code)` (R271): the unit's one exception entry. It saves nothing and goes nowhere; there is no return. -/
def State.raiseError (s : State) (code : BitVec 4) : State := { s with status := s.status.raised code }

/-- The end of every completion: BUSY cleared, DONE set (R274); the model counts it (log 5). -/
def State.finish (s : State) : State := { s with status := s.status.completed, completions := s.completions + 1 }

/-- A host write of `w` to CMD (R272): ERR, then BUSY, then the opcode, then the operands (R275). -/
def State.cmdWrite (s : State) (w : Word) : State :=
  if s.status.err then s
  else if s.status.busy then s.raiseError 3
  else match decode w with
    | .illegalOpcode => s.raiseError 1
    | .illegalOperand => s.raiseError 2
    | .command _ => s.accept w

/-- The vector a command writes: the one its rule gives when every register it reads is in slack, and otherwise any value
(U1, log 4). -/
def State.settled (s : State) (srcs : List FE) (slot : Nat) (v : FE) : FE :=
  if ∀ a ∈ srcs, InSlack a then v else Config.anyFE s.completions slot

/-- The port value a TOBIG writes, with the same proviso (U1, log 4). -/
def State.settledDout (s : State) (src : FE) (v : Vector Word 8) : Vector Word 8 :=
  if InSlack src then v else Config.anyDout s.completions

/-- The answer of a meaning: the command completes, unless it is outside the operand limits that R107 checks before
acceptance (log 10). -/
def completes (i : Instr) (t : State) : Result :=
  if i.wellFormed then .next t.finish else .refused .operandLimit

end Sys2Proof.Machine
end

