-- ==== Sys2Proof/Machine/Constants.lean ====
section
/-! DEFINITION. The wired constants (R50 to R57, R38): integers and limb vectors, written as the spec writes them. -/

namespace Sys2Proof.Machine

/-- The ID register (R38). -/
def idValue : Word := 0x534D3246

/-- The prime p (R50). -/
def p : Nat := 0xFFFFFFFEFFFFFFFFFFFFFFFFFFFFFFFFFFFFFFFF00000000FFFFFFFFFFFFFFFF

/-- The group order n (R50), used by the host sequences only. -/
def curveN : Nat := 0xFFFFFFFEFFFFFFFFFFFFFFFFFFFFFFFF7203DF6B21C6052B53BBF40939D54123

/-- The coefficient B (R50). -/
def curveB : Nat := 0x28E9FA9E9D9F5E344D5A9E4BCF6509A7F39789F515AB8F92DDBCBD414D940E93

/-- Gx (R50). -/
def curveGx : Nat := 0x32C4AE2C1F1981195F9904466A39C9948FE30BBFF2660BE1715A4589334C74C7

/-- Gy (R50). -/
def curveGy : Nat := 0xBC3736A2F4F6779C59BDCEE36B692153D0A9877CC62A474002DF32E52139F0A0

/-- The coefficient a = p − 3 (R50). -/
def curveA : Nat := 0xFFFFFFFEFFFFFFFFFFFFFFFFFFFFFFFFFFFFFFFF00000000FFFFFFFFFFFFFFFC

/-- R⁻¹ mod p (R50). -/
def rInv : Nat := 0x7FFFFFFD80000002FFFFFFFE000000017FFFFFFE800000037FFFFFFC80000002

/-- R mod p = 2^225 + 2^97 − 2^65 + 2 (R51). -/
def rModP : Nat := 0x200000000000000000000000000000001FFFFFFFE0000000000000002

/-- NEGPINV = (−p⁻¹) mod 2^257 (R51). -/
def negPInv : Nat := 0xFFFFFFFC00000001FFFFFFFE00000000FFFFFFFF000000010000000000000001

/-- ONE, 1 in Montgomery form (R52). -/
def feOne : FE :=
  ⟨0x00000002, 0x00000000, 0x1FFFFF00, 0x000007FF, 0x00000000, 0x00000000, 0x00000000, 0x02000000, 0x00000000⟩

/-- A, the coefficient a in Montgomery form (R53). -/
def feA : FE :=
  ⟨0x1FFFFFF9, 0x0FFFFFFF, 0x0000037F, 0x0FFFE400, 0x1FFFFFFF, 0x0FFFFFFF, 0x1FFFFFFF, 0x08FFFFFF, 0x0FFFFFFF⟩

/-- BM, the coefficient b in Montgomery form (R53). -/
def feBM : FE :=
  ⟨0x1781BA84, 0x0D230632, 0x1537AB90, 0x09BCD74D, 0x0E1E38E7, 0x05417A94, 0x12149E60, 0x017441C5, 0x0481FC31⟩

/-- PV = Pack(p), the second infinity encoding (R56). -/
def fePV : FE :=
  ⟨0x1FFFFFFF, 0x0FFFFFFF, 0x0000007F, 0x0FFFFC00, 0x1FFFFFFF, 0x0FFFFFFF, 0x1FFFFFFF, 0x0EFFFFFF, 0x0FFFFFFF⟩

/-- ZERO31, of value 8p (R55, C1). -/
def feZero31 : FE :=
  ⟨0x7FFFFFF8, 0x3FFFFFFC, 0x800003FC, 0x3FFFDFFC, 0x7FFFFFFC, 0x3FFFFFFC, 0x7FFFFFFC, 0x37FFFFFC, 0x7FFFFFFC⟩

/-- CARRY, the eight rows of the ReduceCarry table (R54, C2). A carry above 7 has no row: a free vector (log 13). -/
def carryRow : Nat → FE
  | 0 => FE.zero
  | 1 => ⟨0x00000002, 0x00000000, 0x1FFFFF00, 0x000007FF, 0x00000000, 0x00000000, 0x00000000, 0x02000000, 0x00000000⟩
  | 2 => ⟨0x00000004, 0x00000000, 0x1FFFFE00, 0x00000FFF, 0x00000000, 0x00000000, 0x00000000, 0x04000000, 0x00000000⟩
  | 3 => ⟨0x00000006, 0x00000000, 0x1FFFFD00, 0x000017FF, 0x00000000, 0x00000000, 0x00000000, 0x06000000, 0x00000000⟩
  | 4 => ⟨0x00000008, 0x00000000, 0x1FFFFC00, 0x00001FFF, 0x00000000, 0x00000000, 0x00000000, 0x08000000, 0x00000000⟩
  | 5 => ⟨0x0000000A, 0x00000000, 0x1FFFFB00, 0x000027FF, 0x00000000, 0x00000000, 0x00000000, 0x0A000000, 0x00000000⟩
  | 6 => ⟨0x0000000C, 0x00000000, 0x1FFFFA00, 0x00002FFF, 0x00000000, 0x00000000, 0x00000000, 0x0C000000, 0x00000000⟩
  | 7 => ⟨0x0000000E, 0x00000000, 0x1FFFF900, 0x000037FF, 0x00000000, 0x00000000, 0x00000000, 0x0E000000, 0x00000000⟩
  | c => Config.noCarryRow c

/-- CONST[cid], what LDC loads (R222). -/
def constant : ConstId → FE
  | .zero => FE.zero
  | .one => feOne
  | .a => feA
  | .bm => feBM
  | .pv => fePV

end Sys2Proof.Machine
end

