-- ==== Sys2Proof/Machine/FieldAddSub.lean ====
section
/-! DEFINITION. The modular adder and subtractor on limb vectors: ReduceCarry (R131), Add (R132), Sub (R134). -/

namespace Sys2Proof.Machine

/-- `ReduceCarry(a, carry)`: row `carry` is added into limbs 0, 2, 3 and 7, with no carry between limbs (R131). -/
def reduceCarry (a : FE) (carry : Nat) : FE :=
  { a with
    l0 := BitVec.ofNat 32 (a.l0.toNat + (carryRow carry).l0.toNat)
    l2 := BitVec.ofNat 32 (a.l2.toNat + (carryRow carry).l2.toNat)
    l3 := BitVec.ofNat 32 (a.l3.toNat + (carryRow carry).l3.toNat)
    l7 := BitVec.ofNat 32 (a.l7.toNat + (carryRow carry).l7.toNat) }

/-- The carry into limb `i` of the loop of R132 and R134, where `t i` is the sum at limb `i` without its carry:
`carry <- s >> W[i]`. -/
def carryInto (t : Nat → Nat) : Nat → Nat
  | 0 => 0
  | i + 1 => (t i + carryInto t i) / 2 ^ limbWidth i

/-- The loop of R132 and R134: `out[i] <- s & MASK[i]`, then ReduceCarry with the carry out of limb 8. -/
def carryPass (t : Nat → Nat) : FE :=
  reduceCarry (ofLimbs fun i => (t i + carryInto t i) % 2 ^ limbWidth i) (carryInto t 9)

/-- `Add(a, b)` (R132). -/
def add (a b : FE) : FE := carryPass fun i => limb a i + limb b i

/-- `Sub(a, b)` (R134): `a[i] − b[i] + ZERO31[i]`, which is not negative for in-slack b. -/
def sub (a b : FE) : FE := carryPass fun i => limb a i + limb feZero31 i - limb b i

end Sys2Proof.Machine
end

