-- ==== Sys2Proof/Machine/FieldMul.lean ====
section
/-! DEFINITION. The multiplier and its reduction on limb vectors: the wide element (R150, R151), ReduceDegree in the
normative closed form (R153), Mul (R160) and Square (R161). -/

namespace Sys2Proof.Machine

/-- `d(i, j)`: 2 when i and j are both odd, else 1 (R151, C3). -/
def crossFactor (i j : Nat) : Nat := if i % 2 = 1 ∧ j % 2 = 1 then 2 else 1

/-- Limb `k` of `WideMul(a, b)`: the sum of `d(i,j)·a[i]·b[j]` over i + j = k with i, j in 0..8 (R151). -/
def wideLimb (a b : FE) (k : Nat) : Nat :=
  ((List.range 9).map fun i => if i ≤ k ∧ k - i < 9 then crossFactor i (k - i) * limb a i * limb b (k - i) else 0).sum

/-- `WideMul(a, b)`, the 17 limbs of the wide element, limb 0 first (R151). -/
def wideMul (a b : FE) : List Nat := (List.range 17).map (wideLimb a b)

/-- `wval(c) = Σ c[k]·2^WOFF[k]` (R150). -/
def wval (c : List Nat) : Nat := (c.zipIdx.map fun q => q.1 * 2 ^ limbOffset q.2).sum

/-- `M = (T · NEGPINV) mod 2^257` (R153). -/
def montgomeryM (T : Nat) : Nat := T * negPInv % 2 ^ 257

/-- `V = (T + M·p) >> 257` (R153). -/
def montgomeryV (T : Nat) : Nat := (T + montgomeryM T * p) / 2 ^ 257

/-- The last line of R153 and of R157: `ReduceCarry(Pack(V mod 2^257), V >> 257)`. -/
def unpackV (V : Nat) : FE := reduceCarry (pack (V % 2 ^ 257)) (V / 2 ^ 257)

/-- `ReduceDegree(c)` (R153). -/
def reduceDegree (c : List Nat) : FE := unpackV (montgomeryV (wval c))

/-- `Mul(a, b)` (R160). -/
def mul (a b : FE) : FE := reduceDegree (wideMul a b)

/-- `Square(a)` (R161). -/
def square (a : FE) : FE := reduceDegree (wideMul a a)

end Sys2Proof.Machine
end

