-- ==== Sys2Proof/Machine/Points.lean ====
section
/-! DEFINITION. The point units on limb vectors: Double (R190), the infinity test (R200), FullAdd (R201) and MixedAdd
(R205), each field operation in the order the spec fixes. -/

namespace Sys2Proof.Machine

/-- A Jacobian point (X, Y, Z) (R26). -/
structure Jacobian where
  x : FE
  y : FE
  z : FE
  deriving DecidableEq, Repr

/-- An affine point (x, y) (R27). -/
structure Affine where
  x : FE
  y : FE
  deriving DecidableEq, Repr

/-- `Double(P)` (R190). -/
def double (P : Jacobian) : Jacobian :=
  let t1 := square P.z
  let t1 := square t1
  let t1 := mul feA t1
  let t2 := square P.x
  let t3 := add t2 t2
  let t3 := add t3 t2
  let L := add t3 t1
  let y2 := square P.y
  let S := mul P.x y2
  let S := add S S
  let S := add S S
  let S8 := add S S
  let X3 := square L
  let X3 := sub X3 S8
  let y4 := square y2
  let y4 := add y4 y4
  let y4 := add y4 y4
  let y4 := add y4 y4
  let Z3 := mul P.y P.z
  let Z3 := add Z3 Z3
  let Y3 := sub S X3
  let Y3 := mul L Y3
  let Y3 := sub Y3 y4
  ⟨X3, Y3, Z3⟩

/-- `IsInfZ(z)`: all nine limbs 0, or z equal to PV limb for limb (R200). -/
def isInfZ (z : FE) : Bool := z == FE.zero || z == fePV

/-- The 23 arithmetic steps of FullAdd (R201). -/
def fullAddSteps (P1 P2 : Jacobian) : Jacobian :=
  let z1z1 := square P1.z
  let z2z2 := square P2.z
  let z1c := mul z1z1 P1.z
  let z2c := mul z2z2 P2.z
  let u1 := mul P1.x z2z2
  let u2 := mul P2.x z1z1
  let s1 := mul P1.y z2c
  let s2 := mul P2.y z1c
  let h := sub u2 u1
  let r := sub s2 s1
  let h2 := square h
  let h3 := mul h2 h
  let v := mul u1 h2
  let X3 := square r
  let X3 := sub X3 h3
  let X3 := sub X3 v
  let X3 := sub X3 v
  let Y3 := sub v X3
  let Y3 := mul r Y3
  let t := mul s1 h3
  let Y3 := sub Y3 t
  let Z3 := mul h P1.z
  let Z3 := mul Z3 P2.z
  ⟨X3, Y3, Z3⟩

/-- `FullAdd(P1, P2)`: the two infinity tests, z1 first, then the steps (R201). -/
def fullAdd (P1 P2 : Jacobian) : Jacobian :=
  if isInfZ P1.z then P2 else if isInfZ P2.z then P1 else fullAddSteps P1 P2

/-- `MixedAdd(P1, A2)`, with no infinity test (R205). -/
def mixedAdd (P1 : Jacobian) (A2 : Affine) : Jacobian :=
  let z1z1 := square P1.z
  let z1c := mul z1z1 P1.z
  let tx2 := mul A2.x z1z1
  let ty2 := mul A2.y z1c
  let dx := sub tx2 P1.x
  let dy := sub ty2 P1.y
  let dx2 := square dx
  let dx3 := mul dx2 dx
  let v := mul P1.x dx2
  let X3 := square dy
  let X3 := sub X3 dx3
  let X3 := sub X3 v
  let X3 := sub X3 v
  let Y3 := sub v X3
  let Y3 := mul dy Y3
  let t := mul P1.y dx3
  let Y3 := sub Y3 t
  let Z3 := mul dx P1.z
  ⟨X3, Y3, Z3⟩

end Sys2Proof.Machine
end

