-- ==== Sys2Proof/Machine/Operands.lean ====
section
/-! DEFINITION. The operand shapes of R26 to R29: pairs, affine points, Jacobian points and Jacobian tables in consecutive
registers. Inside the limits of R104 no index wraps. -/

namespace Sys2Proof.Machine

/-- The register `k` places after `r`. -/
def regPlus (r : Reg) (k : Nat) : Reg := Fin.ofNat 64 (r.val + k)

/-- `Pt(r)` (R13, R26). -/
def State.point (s : State) (r : Reg) : Jacobian := ⟨s.reg r, s.reg (regPlus r 1), s.reg (regPlus r 2)⟩

/-- `Af(r)` (R13, R27). -/
def State.affine (s : State) (r : Reg) : Affine := ⟨s.reg r, s.reg (regPlus r 1)⟩

/-- `Pt(r) <- P` (R13). -/
def State.setPoint (s : State) (r : Reg) (P : Jacobian) : State :=
  ((s.setReg r P.x).setReg (regPlus r 1) P.y).setReg (regPlus r 2) P.z

/-- `Af(r) <- A` (R13). -/
def State.setAffine (s : State) (r : Reg) (A : Affine) : State := (s.setReg r A.x).setReg (regPlus r 1) A.y

/-- The 16 entries of the Jacobian table at `rb`, entry k being `Pt(rb + 3k)` (R29). -/
def State.table (s : State) (rb : Reg) : List Jacobian := (List.range 16).map fun k => s.point (regPlus rb (3 * k))

/-- The vectors of a point. -/
def Jacobian.vectors (P : Jacobian) : List FE := [P.x, P.y, P.z]

/-- The vectors of an affine point. -/
def Affine.vectors (A : Affine) : List FE := [A.x, A.y]

/-- The point a command writes, any value when a register it reads is not in slack (U1, log 4). -/
def State.settledPoint (s : State) (srcs : List FE) (P : Jacobian) : Jacobian :=
  ⟨s.settled srcs 0 P.x, s.settled srcs 1 P.y, s.settled srcs 2 P.z⟩

end Sys2Proof.Machine
end

