-- ==== Sys2Proof/Machine/AddSubCommands.lean ====
section
/-! DEFINITION. The meanings of FADD and FSUB. -/

namespace Sys2Proof.Machine

/-- FADD: `f[rd] <- Add(f[ra], f[rb])` (R136). -/
def execFadd (rd ra rb : Reg) (s : State) : Result :=
  completes (.fadd rd ra rb) (s.setReg rd (s.settled [s.reg ra, s.reg rb] 0 (add (s.reg ra) (s.reg rb))))

/-- FSUB: `f[rd] <- Sub(f[ra], f[rb])` (R137). -/
def execFsub (rd ra rb : Reg) (s : State) : Result :=
  completes (.fsub rd ra rb) (s.setReg rd (s.settled [s.reg ra, s.reg rb] 0 (sub (s.reg ra) (s.reg rb))))

end Sys2Proof.Machine
end

