-- ==== Sys2Proof/Machine/Convert.lean ====
section
/-! DEFINITION. The field-element converter: FromBig (R180) and ToBig (R182). -/

namespace Sys2Proof.Machine

/-- `FromBig(x) = Pack((x · 2^257) mod p)` (R180); total, so an x at or above p is reduced (D18). -/
def fromBig (x : Nat) : FE := pack (x * 2 ^ 257 % p)

/-- The loop of ToBig: top limb first, left-shift-and-add (R182). -/
def unpackValue (a : FE) : Nat :=
  [7, 6, 5, 4, 3, 2, 1, 0].foldl (fun v i => v * 2 ^ limbWidth i + limb a i) (limb a 8)

/-- `ToBig(a)`, also written `canon(a)` (R182, R15). -/
def toBig (a : FE) : Nat := unpackValue a * rInv % p

end Sys2Proof.Machine
end

