-- ==== Sys2Proof/Machine/ConvertCommands.lean ====
section
/-! DEFINITION. The meanings of FROMBIG and TOBIG. -/

namespace Sys2Proof.Machine

/-- FROMBIG: `f[rd] <- FromBig(DINL)` (R181). -/
def execFrombig (rd : Reg) (s : State) : Result := completes (.frombig rd) (s.setReg rd (fromBig s.dinl.toNat))

/-- TOBIG: `DOUT <- ToBig(f[ra])` (R183). -/
def execTobig (ra : Reg) (s : State) : Result :=
  completes (.tobig ra) (s.setDout (s.settledDout (s.reg ra) (portWords (toBig (s.reg ra)))))

end Sys2Proof.Machine
end

