-- ==== Sys2Proof/Machine/MulCommands.lean ====
section
/-! DEFINITION. The meanings of FMUL, FSQR and their 2-way forms, lane 0 wholly before lane 1 (R164). -/

namespace Sys2Proof.Machine

/-- One multiplication lane: `f[rd] <- Mul(f[ra], f[rb])`. -/
def State.mulLane (s : State) (slot : Nat) (rd ra rb : Reg) : State :=
  s.setReg rd (s.settled [s.reg ra, s.reg rb] slot (mul (s.reg ra) (s.reg rb)))

/-- One squaring lane: `f[rd] <- Square(f[ra])`. -/
def State.squareLane (s : State) (slot : Nat) (rd ra : Reg) : State :=
  s.setReg rd (s.settled [s.reg ra] slot (square (s.reg ra)))

/-- FMUL (R162). -/
def execFmul (rd ra rb : Reg) (s : State) : Result := completes (.fmul rd ra rb) (s.mulLane 0 rd ra rb)

/-- FSQR (R163). -/
def execFsqr (rd ra : Reg) (s : State) : Result := completes (.fsqr rd ra) (s.squareLane 0 rd ra)

/-- FMUL2: lane 1 reads the registers as lane 0 left them (R164, R165, C8). -/
def execFmul2 (rd ra rb : Reg) (s : State) : Result :=
  completes (.fmul2 rd ra rb) ((s.mulLane 0 rd ra rb).mulLane 1 (regPlus rd 1) (regPlus ra 1) (regPlus rb 1))

/-- FSQR2: lane 1 reads the registers as lane 0 left them (R164, R166, C8). -/
def execFsqr2 (rd ra : Reg) (s : State) : Result :=
  completes (.fsqr2 rd ra) ((s.squareLane 0 rd ra).squareLane 1 (regPlus rd 1) (regPlus ra 1))

end Sys2Proof.Machine
end

