-- ==== Sys2Proof/Machine/PointCommands.lean ====
section
/-! DEFINITION. The meanings of PDBL, PADD and PADDM. Every source is read before a destination is written (R32). -/

namespace Sys2Proof.Machine

/-- PDBL: `Pt(rd) <- Double(Pt(ra))` (R191). -/
def execPdbl (rd ra : Reg) (s : State) : Result :=
  completes (.pdbl rd ra) (s.setPoint rd (s.settledPoint (s.point ra).vectors (double (s.point ra))))

/-- PADD: `Pt(rd) <- FullAdd(Pt(ra), Pt(rb))` (R203). -/
def execPadd (rd ra rb : Reg) (s : State) : Result :=
  completes (.padd rd ra rb)
    (s.setPoint rd (s.settledPoint ((s.point ra).vectors ++ (s.point rb).vectors) (fullAdd (s.point ra) (s.point rb))))

/-- PADDM: `Pt(rd) <- MixedAdd(Pt(ra), Af(rb))` (R206). -/
def execPaddm (rd ra rb : Reg) (s : State) : Result :=
  completes (.paddm rd ra rb)
    (s.setPoint rd (s.settledPoint ((s.point ra).vectors ++ (s.affine rb).vectors) (mixedAdd (s.point ra) (s.affine rb))))

end Sys2Proof.Machine
end

