-- ==== Sys2Proof/Machine/Select.lean ====
section
/-! DEFINITION. The mask datapath: Select (R215), whose limbs do not interact, so it is given one vector at a time, and
CondCopy (R219). -/

namespace Sys2Proof.Machine

/-- The 32-bit mask of a condition: all ones or all zeros (R215, R219). -/
def mask32 (c : Bool) : Limb := if c then 0xFFFFFFFF else 0x00000000

/-- A limb operation applied to the nine limbs of two vectors. -/
def zipLimbs (g : Limb → Limb → Limb) (a b : FE) : FE :=
  ⟨g a.l0 b.l0, g a.l1 b.l1, g a.l2 b.l2, g a.l3 b.l3, g a.l4 b.l4, g a.l5 b.l5, g a.l6 b.l6, g a.l7 b.l7, g a.l8 b.l8⟩

/-- One round of the loop of R215: `out XOR (entry AND mask)`. -/
def selectRound (idx : Nat) (out : FE) (entry : FE × Nat) : FE :=
  zipLimbs (fun o e => o ^^^ (e &&& mask32 (entry.2 == idx))) out entry.1

/-- `Select(E, idx)`: every entry of the table is read, in order, whatever idx is (R215). -/
def select (E : List FE) (idx : Nat) : FE := E.zipIdx.foldl (selectRound idx) FE.zero

/-- Select on affine entries, 18 limbs each (R215, R216). -/
def selectAffine (E : List Affine) (idx : Nat) : Affine := ⟨select (E.map (·.x)) idx, select (E.map (·.y)) idx⟩

/-- Select on Jacobian entries, 27 limbs each (R215, R217). -/
def selectJacobian (E : List Jacobian) (idx : Nat) : Jacobian :=
  ⟨select (E.map (·.x)) idx, select (E.map (·.y)) idx, select (E.map (·.z)) idx⟩

/-- `CondCopy(out, in, c)`: `out XOR (mask AND (in XOR out))` per limb (R219). -/
def condCopy (out inp : FE) (c : Bool) : FE := zipLimbs (fun o i => o ^^^ (mask32 c &&& (i ^^^ o))) out inp

end Sys2Proof.Machine
end

