-- ==== Sys2Proof/Machine/SelectCommands.lean ====
section
/-! DEFINITION. The meanings of SELA, SELJ, CCOPY and LDC. -/

namespace Sys2Proof.Machine

/-- SELA: `Af(rd) <- Select(group g of the fixed-base table, idx)` (R216). -/
def execSela (rd : Reg) (g : Fin 2) (idx : Fin 16) (s : State) : Result :=
  completes (.sela rd g idx) (s.setAffine rd (selectAffine (baseGroup g) idx))

/-- SELJ: `Pt(rd) <- Select(the 16 points of the table at rb, idx)`; all 48 registers are read (R217). -/
def execSelj (rd rb : Reg) (idx : Fin 16) (s : State) : Result :=
  completes (.selj rd rb idx)
    (s.setPoint rd (s.settledPoint ((s.table rb).flatMap Jacobian.vectors) (selectJacobian (s.table rb) idx)))

/-- CCOPY: `f[rd] <- CondCopy(f[rd], f[ra], c)` (R220). -/
def execCcopy (rd ra : Reg) (c : Bool) (s : State) : Result :=
  completes (.ccopy rd ra c) (s.setReg rd (s.settled [s.reg rd, s.reg ra] 0 (condCopy (s.reg rd) (s.reg ra) c)))

/-- LDC: `f[rd] <- CONST[cid]` (R222). -/
def execLdc (rd : Reg) (k : ConstId) (s : State) : Result := completes (.ldc rd k) (s.setReg rd (constant k))

end Sys2Proof.Machine
end

