-- ==== Sys2Proof/Machine/SystemCommands.lean ====
section
/-! DEFINITION. The meaning of NOP. -/

namespace Sys2Proof.Machine

/-- NOP: nothing but the completion (R235). -/
def execNop (s : State) : Result := completes .nop s

end Sys2Proof.Machine
end

