-- ==== Sys2Proof/Machine/Dispatch.lean ====
section
/-! DEFINITION. exec: the completion of one command (R274), one arm per constructor of Instr. -/

namespace Sys2Proof.Machine

def exec (i : Instr) (s : State) : Host.Outcome State Fault Refusal :=
  match i with
  | .nop => Sys2Proof.Machine.execNop s
  | .fadd rd ra rb => Sys2Proof.Machine.execFadd rd ra rb s
  | .fsub rd ra rb => Sys2Proof.Machine.execFsub rd ra rb s
  | .fmul rd ra rb => Sys2Proof.Machine.execFmul rd ra rb s
  | .fsqr rd ra => Sys2Proof.Machine.execFsqr rd ra s
  | .fmul2 rd ra rb => Sys2Proof.Machine.execFmul2 rd ra rb s
  | .fsqr2 rd ra => Sys2Proof.Machine.execFsqr2 rd ra s
  | .frombig rd => Sys2Proof.Machine.execFrombig rd s
  | .tobig ra => Sys2Proof.Machine.execTobig ra s
  | .pdbl rd ra => Sys2Proof.Machine.execPdbl rd ra s
  | .padd rd ra rb => Sys2Proof.Machine.execPadd rd ra rb s
  | .paddm rd ra rb => Sys2Proof.Machine.execPaddm rd ra rb s
  | .sela rd g idx => Sys2Proof.Machine.execSela rd g idx s
  | .selj rd rb idx => Sys2Proof.Machine.execSelj rd rb idx s
  | .ccopy rd ra c => Sys2Proof.Machine.execCcopy rd ra c s
  | .ldc rd k => Sys2Proof.Machine.execLdc rd k s

end Sys2Proof.Machine
end

