-- ==== Sys2Proof/Machine/HostPort.lean ====
section
/-! DEFINITION. The register map (R71 to R76): what a host read returns and what a host write does, by byte offset from
BASE. -/

namespace Sys2Proof.Machine

/-- The accesses the interface defines: 4 bytes, at an aligned offset of the 256-byte window (R74). -/
def accessDefined (off size : Nat) : Bool := size == 4 && off % 4 == 0 && decide (off < 0x100)

/-- The 32-bit read of the register at `off` (R72): CMD and every reserved offset read 0 (R37, R73). -/
def State.mapRead (s : State) (off : Nat) : Word :=
  if off = 0x00 then idValue
  else if off = 0x04 then s.ctrl.word
  else if off = 0x08 then s.status.word
  else if h : 0x20 ≤ off ∧ off < 0x40 then s.din[(off - 0x20) / 4]
  else if h : 0x40 ≤ off ∧ off < 0x60 then s.dout[(off - 0x40) / 4]
  else 0

/-- A host write to CTRL: SRST resets at once whatever the other bits are, otherwise bits 1 and 2 are stored (R35). -/
def State.ctrlWrite (s : State) (v : Word) : State := if v.getLsbD 0 then s.doReset else s.setCtrl (Ctrl.ofWord v)

/-- The 32-bit write of `v` to the register at `off` (R72): ID, DOUT and every reserved offset ignore it (R38, R34, R73). -/
def State.mapWrite (s : State) (off : Nat) (v : Word) : State :=
  if off = 0x04 then s.ctrlWrite v
  else if off = 0x08 then s.clearFlags v
  else if off = 0x0C then s.cmdWrite v
  else if 0x20 ≤ off ∧ off < 0x40 then s.setDin ((off - 0x20) / 4) v
  else s

/-- The event of `MemRead(addr, size)`; an address below the window is no access to the unit (R13, R71). -/
def memRead (addr size : Nat) : Option Event :=
  if Config.base ≤ addr then some (.read (addr - Config.base) size) else none

/-- The event of `MemWrite(addr, size, v)` (R13, R71). -/
def memWrite (addr size : Nat) (v : Word) : Option Event :=
  if Config.base ≤ addr then some (.write (addr - Config.base) size v) else none

end Sys2Proof.Machine
end

