-- ==== Sys2Proof/Machine/Events.lean ====
section
/-! DEFINITION. What one event of the total order of R82 does: the completion of the command in flight (R274), the host's
accesses, the reset input. -/

namespace Sys2Proof.Machine

/-- The completion of the command CUR (R274). A CUR that is no command was never accepted (log 9). -/
def completeCommand (s : State) : Result :=
  match decode s.cur with
  | .command i => exec i s
  | .illegalOpcode => .fault .curNotACommand
  | .illegalOperand => .fault .curNotACommand

/-- A completion instant: it completes the command in flight, and with none in flight nothing happens (log 11). -/
def completionInstant (s : State) : Result := if s.status.busy then completeCommand s else .next s

/-- What an event does to the state it meets. A STATUS write in the step of a completion clears first, so the set of DONE
wins (R36, R275, log 12). -/
def runEvent (e : Event) (s : State) : Result :=
  match e with
  | .read off size => if accessDefined off size then .next (s.setRdata (s.mapRead off)) else .refused .hostAccessUndefined
  | .write off size v => if accessDefined off size then .next (s.mapWrite off v) else .refused .hostAccessUndefined
  | .complete => completionInstant s
  | .statusWriteAtCompletion v => completionInstant (s.clearFlags v)
  | .hwReset => .next s.doReset

/-- The next event of the schedule happens; with none left the unit acts alone and completes what is in flight (R274,
logs 1 and 2). -/
def nextEvent (s : State) : Result :=
  match s.schedule with
  | [] => completionInstant s
  | e :: rest => runEvent e (s.setSchedule rest)

/-- `s` with the word `w` accepted and its completion the next event (log 7). -/
def State.inFlight (s : State) (w : Word) : State := (s.accept w).setSchedule (.complete :: s.schedule)

end Sys2Proof.Machine
end

