-- ==== Sys2Proof/Machine/Step.lean ====
section
/-! DEFINITION. The step: one event of the total order of R82. -/

namespace Sys2Proof.Machine

/-- One event happens. -/
def step (s : State) : Host.Outcome State Fault Refusal := nextEvent s

/-- `s` with the command word `w` in flight and its completion the next event, so that the very next step runs it. It stands
for the host's CMD write (log 7). -/
def State.withFetchWord (s : State) (nbits w : Nat) : State := s.inFlight (BitVec.ofNat 32 (w % 2 ^ nbits))

end Sys2Proof.Machine
end

