-- ==== Sys2Proof/Machine/HostSequences.lean ====
section
/-! DEFINITION. The host layer that 48_host_sequences.md transcribes: pseudo-instructions (R110), the command sequences of the
host (R240 to R252) and the host procedures that run them on the unit and return a value. It lies outside the unit (R5);
nothing in the machine uses it (log 19). -/

namespace Sys2Proof.Machine

/-- A host action of the program listings that returns nothing (R109); `v <- DOUT` is `readDout`. -/
inductive HostAction where
  /-- `DIN <- x`: the eight words of DIN are written. -/
  | din (x : Nat)
  /-- A command word written to CMD, then WAIT. -/
  | cmd (i : Instr)
  deriving DecidableEq, Repr

/-- The events an action adds to the total order (R82): WAIT lets the completion happen before the next access. DESIGN CHOICE:
of an x of 2^256 or above, of which the spec does not speak, `DIN <- x` writes the low 256 bits (log 24). -/
def HostAction.events : HostAction → List Event
  | .din x => (List.range 8).map fun k => .write (0x20 + 4 * k) 4 (BitVec.ofNat 32 (x / 2 ^ (32 * k)))
  | .cmd i => [.write 0x0C 4 (encode i), .complete]

/-- What a host procedure answers: the machine after it and the value it returns. -/
abbrev HostResult (α : Type) := Host.Outcome (State × α) Fault Refusal

/-- What follows an outcome, when the machine goes on. -/
def andThen {α β : Type} (r : Host.Outcome α Fault Refusal) (k : α → Host.Outcome β Fault Refusal) :
    Host.Outcome β Fault Refusal :=
  match r with
  | .next a => k a
  | .fault e => .fault e
  | .refused e => .refused e

/-- The event `e` happens next, before whatever the schedule still holds (log 19). -/
def State.hostEvent (s : State) (e : Event) : Result := step (s.setSchedule (e :: s.schedule))

/-- Events one after another. -/
def runEvents : List Event → State → Result
  | [], s => .next s
  | e :: es, s => andThen (s.hostEvent e) (runEvents es)

/-- Host actions one after another. -/
def runActions (as : List HostAction) (s : State) : Result := runEvents (as.flatMap HostAction.events) s

/-- `n` words of DOUT from word `k` on, read in order, as an integer, word `k` least significant (R34). -/
def readWords (k : Nat) : Nat → State → HostResult Nat
  | 0, s => .next (s, 0)
  | n + 1, s =>
    andThen (s.hostEvent (.read (0x40 + 4 * k) 4)) fun t =>
      andThen (readWords (k + 1) n t) fun q => .next (q.1, t.rdata.toNat + 2 ^ 32 * q.2)

/-- `v <- DOUT`: the eight words of DOUT are read (R109). -/
def readDout (s : State) : HostResult Nat := readWords 0 8 s

/-- `TOBIG f[r] ; v <- DOUT` (R248, R249). -/
def storeReg (r : Reg) (s : State) : HostResult Nat := andThen (runActions [.cmd (.tobig r)] s) readDout

/-- MOV (R110). -/
def mov (d a : Reg) : List Instr := [.ccopy d a true]

/-- FZERO (R110). -/
def fzero (d : Reg) : List Instr := [.ldc d .zero]

/-- FDBL (R110). -/
def fdbl (d a : Reg) : List Instr := [.fadd d a a]

/-- PCCOPY: three CCOPY, in the order that makes an overlapping copy correct (R110). DESIGN CHOICE: with d or a above 61, for
which R110 gives no expansion, the register numbers wrap (log 23). -/
def pccopy (d a : Reg) (c : Bool) : List Instr :=
  (if d ≤ a then [0, 1, 2] else [2, 1, 0]).map fun k => .ccopy (regPlus d k) (regPlus a k) c

/-- PMOV (R110), with PCCOPY's choice for d or a above 61 (log 23). -/
def pmov (d a : Reg) : List Instr := pccopy d a true

/-- PFROMAFF, which requires d ≠ a + 1 (R110, R306) of its caller. DESIGN CHOICE: with d above 61 or a above 62, for which R110
gives no expansion, the register numbers wrap (log 23). -/
def pfromaff (d a : Reg) : List Instr :=
  [.ccopy d a true, .ccopy (regPlus d 1) (regPlus a 1) true, .ldc (regPlus d 2) .one]

/-- The scalar K of an entry point: big-endian bytes, reduced modulo n when at or above it (R241). -/
def scalarValue (k : List (BitVec 8)) : Nat :=
  let K := k.foldl (fun v b => 256 * v + b.toNat) 0
  if curveN ≤ K then K % curveN else K

/-- Byte m of the little-endian scalar, `s[m]` (R79, R241). -/
def scalarByte (K m : Nat) : Nat := K / 256 ^ m % 256

/-- `GetBit(s, pos)` (R241). -/
def getBit (K pos : Nat) : Nat := scalarByte K (pos / 8) / 2 ^ (pos % 8) % 2

/-- The comb index of step i at offset j (R242). -/
def combIndex (K i j : Nat) : Fin 16 :=
  Fin.ofNat 16 (getBit K (31 - i + j) + 2 * getBit K (95 - i + j) + 4 * getBit K (159 - i + j) + 8 * getBit K (223 - i + j))

/-- The nibble of step i (R246). -/
def nibbleIndex (K i : Nat) : Fin 16 :=
  Fin.ofNat 16 (if i % 2 = 0 then scalarByte K (31 - i / 2) / 16 else scalarByte K (31 - i / 2) % 16)

/-- The two conditional copies of an inner step and the mask after it (R242, R243, R246). -/
def maskedCopies (mask : Bool) (idx : Fin 16) : List Instr :=
  pccopy 0 3 mask ++ pccopy 0 6 (idx != 0 && !mask)

/-- One inner step of the fixed-base loop (R242). -/
def baseInner (K i : Nat) (acc : List Instr × Bool) (gj : Fin 2 × Nat) : List Instr × Bool :=
  let idx := combIndex K i gj.2
  (acc.1 ++ [.sela 3 gj.1 idx, .paddm 6 0 3] ++ maskedCopies acc.2 idx, acc.2 && idx == 0)

/-- One outer step of the fixed-base loop (R242). -/
def baseOuter (K : Nat) (acc : List Instr × Bool) (i : Nat) : List Instr × Bool :=
  [(0, 0), (1, 32)].foldl (baseInner K i) (if i = 0 then acc else (acc.1 ++ [.pdbl 0 0], acc.2))

/-- BaseMult: the 547 commands that leave K·G in `Pt(0)` (R242). -/
def baseMult (K : Nat) : List Instr :=
  ((List.range 32).foldl (baseOuter K) ([.ldc 0 .zero, .ldc 1 .zero, .ldc 2 .zero, .ldc 5 .one], true)).1

/-- The commands of the table construction once (X, Y, 1) is in `Pt(9)` (R245). -/
def tableCommands : List Instr :=
  [.ldc 16 .zero, .ldc 17 .zero, .ldc 18 .zero] ++ pmov 19 9
    ++ [2, 4, 6, 8, 10, 12, 14].flatMap fun i =>
      [.pdbl (regPlus 16 (3 * i)) (regPlus 16 (3 * (i / 2))), .paddm (regPlus 16 (3 * (i + 1))) (regPlus 16 (3 * i)) 9]

/-- The table construction of the variable-base multiplication (R245). -/
def buildTable (X Y : Nat) : List HostAction :=
  [.din X, .cmd (.frombig 9), .din Y, .cmd (.frombig 10), .cmd (.ldc 11 .one)] ++ tableCommands.map .cmd

/-- One step of the variable-base loop (R246). -/
def variableStep (K : Nat) (acc : List Instr × Bool) (i : Nat) : List Instr × Bool :=
  let idx := nibbleIndex K i
  let doublings := if i = 0 then [] else [.pdbl 0 0, .pdbl 0 0, .pdbl 0 0, .pdbl 0 0]
  (acc.1 ++ doublings ++ [.selj 3 16 idx, .padd 6 0 3] ++ maskedCopies acc.2 idx, acc.2 && idx == 0)

/-- The variable-base loop, its mask set at entry (R246, R247, D30). -/
def variableLoop (K : Nat) : List Instr :=
  ((List.range 64).foldl (variableStep K) ([.ldc 0 .zero, .ldc 1 .zero, .ldc 2 .zero], true)).1

/-- The extended Euclidean algorithm: `r0`, `r1` the remainders, `t0`, `t1` their factors of the number inverted. -/
def inverseLoop : Nat → Nat → Nat → Int → Int → Int
  | 0, _, _, t0, _ => t0
  | fuel + 1, r0, r1, t0, t1 =>
    if r1 = 0 then t0 else inverseLoop fuel r1 (r0 % r1) t1 (t0 - (r0 / r1 : Nat) * t1)

/-- `inv(z, p)` for z below p, the host's own big-integer arithmetic (R10, R248). -/
def inverseModP (z : Nat) : Nat := (inverseLoop 512 p z 0 1 % (p : Int)).toNat

/-- The commands of ToAffine between the inversion and the two results (R248). -/
def toAffineCommands (zi : Nat) : List HostAction :=
  [.din zi, .cmd (.frombig 12), .cmd (.fsqr 13 12), .cmd (.fmul 14 13 12), .cmd (.fmul 13 0 13), .cmd (.fmul 14 1 14)]

/-- ToAffine once `zi` is there: `(X', Y')` (R248). -/
def toAffineFinish (zi : Nat) (s : State) : HostResult (Int × Int) :=
  andThen (runActions (toAffineCommands zi) s) fun t =>
    andThen (storeReg 13 t) fun x => andThen (storeReg 14 x.1) fun y => .next (y.1, (x.2, y.2))

/-- ToAffine (R248). A z of 0 has no inverse: the result is INFINITY_RESULT (R252), and the host issues nothing more
(DESIGN CHOICE, log 19). -/
def toAffine (s : State) : HostResult (Int × Int) :=
  andThen (storeReg 2 s) fun z =>
    if z.2 = 0 then .next (z.1, Config.infinityResult) else toAffineFinish (inverseModP z.2) z.1

/-- The commands of IsOnCurve before the two values are read (R249). -/
def isOnCurveCommands (X Y : Nat) : List HostAction :=
  [.din X, .cmd (.frombig 0), .din Y, .cmd (.frombig 1), .cmd (.fsqr 2 1), .cmd (.fsqr 3 0), .cmd (.fmul 3 3 0),
    .cmd (.ldc 4 .a), .cmd (.fmul 4 4 0), .cmd (.fadd 3 3 4), .cmd (.ldc 4 .bm), .cmd (.fadd 3 3 4)]

/-- `is_on_curve(X, Y)`: the host compares the two canonical integers (R249, R250). -/
def isOnCurve (X Y : Nat) (s : State) : HostResult Bool :=
  andThen (runActions (isOnCurveCommands X Y) s) fun t =>
    andThen (storeReg 2 t) fun lhs => andThen (storeReg 3 lhs.1) fun rhs => .next (rhs.1, lhs.2 == rhs.2)

/-- The curve descriptor that `curve_params()` returns (R250, C9). -/
structure CurveParams where
  name : String
  p : Nat
  n : Nat
  b : Nat
  gx : Nat
  gy : Nat
  bitSize : Nat
  deriving DecidableEq, Repr

/-- `curve_params()` (R250). -/
def curveParams : CurveParams :=
  { name := "SM2-P-256", p := p, n := curveN, b := curveB, gx := curveGx, gy := curveGy, bitSize := 256 }

/-- The commands of `add` for equal points (R251). -/
def addDoubling (X1 Y1 : Nat) : List HostAction :=
  [.din X1, .cmd (.frombig 0), .din Y1, .cmd (.frombig 1), .cmd (.ldc 2 .one), .cmd (.pdbl 0 0)]

/-- The commands of `add` for points with different X (R251). -/
def addDistinct (X1 Y1 X2 Y2 : Nat) : List HostAction :=
  [.din X1, .cmd (.frombig 0), .din Y1, .cmd (.frombig 1), .cmd (.ldc 2 .one), .din X2, .cmd (.frombig 3), .din Y2,
    .cmd (.frombig 4), .cmd (.paddm 0 0 3)]

/-- `add(X1, Y1, X2, Y2)` (R251, D38): the sum in affine form, or INFINITY_RESULT, with no command, for opposite points
(R252). DESIGN CHOICE: integers at or above p are compared as they are given (log 24). -/
def hostAdd (X1 Y1 X2 Y2 : Nat) (s : State) : HostResult (Int × Int) :=
  if X1 = X2 ∧ Y1 = Y2 then andThen (runActions (addDoubling X1 Y1) s) toAffine
  else if X1 = X2 then .next (s, Config.infinityResult)
  else andThen (runActions (addDistinct X1 Y1 X2 Y2) s) toAffine

/-- What a scalar multiplication by `K` returns: the pair of ToAffine, and INFINITY_RESULT for the identity, K = 0 (R252). -/
def multResult (K : Nat) (r : HostResult (Int × Int)) : HostResult (Int × Int) :=
  andThen r fun q => .next (q.1, if K = 0 then Config.infinityResult else q.2)

/-- `scalar_mult_base(k)` (R250). -/
def scalarMultBase (k : List (BitVec 8)) (s : State) : HostResult (Int × Int) :=
  multResult (scalarValue k) (andThen (runActions ((baseMult (scalarValue k)).map .cmd) s) toAffine)

/-- `scalar_mult(X, Y, k)` (R250). -/
def scalarMult (X Y : Nat) (k : List (BitVec 8)) (s : State) : HostResult (Int × Int) :=
  multResult (scalarValue k)
    (andThen (runActions (buildTable X Y ++ (variableLoop (scalarValue k)).map .cmd) s) toAffine)

end Sys2Proof.Machine
end

