-- ==== Sys2Proof/Machine/ReducePipeline.lean ====
section
/-! DEFINITION. ReduceDegree as the five-step pipeline on packed 57-bit lanes (R154 to R157). The commands use the closed
form of R153, which the spec calls normative; this is the realisation that R158 says gives the same vector. -/

namespace Sys2Proof.Machine

/-- The ten packed lanes `tmp[0..9]` as integers (R154, R158 (e)); a lane above 9 is never read. -/
abbrev Lanes := Nat → Int

/-- Lane `m` of the buffer replaced by `v`. -/
def Lanes.put (t : Lanes) (m : Nat) (v : Int) : Lanes := fun k => if k = m then v else t k

/-- Step 1, repack (R154): nine lanes of 57 bits, and lane 9 the rest. -/
def repack (T : Nat) : Lanes := fun m =>
  if m < 9 then ((T / 2 ^ (57 * m) % 2 ^ 57 : Nat) : Int) else if m = 9 then ((T / 2 ^ 513 : Nat) : Int) else 0

/-- What `Elim(j, x)` adds to lane `j + d` (R155). -/
def elimAdd (x : Int) : Nat → Int
  | 1 => 2 ^ 57 + (x % 2 ^ 50) * 2 ^ 7 - (x % 2 ^ 18) * 2 ^ 39
  | 2 => (2 ^ 57 - 1) + x / 2 ^ 50 - x / 2 ^ 18
  | 3 => (2 ^ 57 - 1) - (x % 2 ^ 4) * 2 ^ 53
  | 4 => (2 ^ 57 - 1) + (x % 2 ^ 29) * 2 ^ 28 - x / 2 ^ 4
  | 5 => x / 2 ^ 29 - 1
  | _ => 0

/-- `Elim(j, x)` (R155). -/
def elim (j : Nat) (x : Int) (t : Lanes) : Lanes := fun m => if j < m then t m + elimAdd x (m - j) else t m

/-- One of the four full elimination steps j = 0..3 (R155). -/
def elimStep (j : Nat) (t : Lanes) : Lanes :=
  elim j (t j % 2 ^ 57) ((t.put j 0).put (j + 1) (t (j + 1) + t j / 2 ^ 57))

/-- The last elimination step: only the low 29 bits of lane 4 (R155). -/
def elimLast (t : Lanes) : Lanes := elim 4 (t 4 % 2 ^ 29) (t.put 4 (t 4 - t 4 % 2 ^ 29))

/-- Step 4, post-fix (R156). -/
def postFix (t : Lanes) : Lanes := if t 9 = -1 then (t.put 9 0).put 8 (t 8 - 2 ^ 57) else t

/-- One step of the carry-normalisation of R157: lane `m` keeps 57 bits and the rest moves up. -/
def normalise (m : Nat) (t : Lanes) : Lanes := (t.put (m + 1) (t (m + 1) + t m / 2 ^ 57)).put m (t m % 2 ^ 57)

/-- Steps 1 to 4 and the normalisation of lanes 4 to 9. -/
def pipelineLanes (T : Nat) : Lanes :=
  normalise 8 (normalise 7 (normalise 6 (normalise 5 (normalise 4 (postFix (elimLast
    (elimStep 3 (elimStep 2 (elimStep 1 (elimStep 0 (repack T)))))))))))

/-- The V that step 5 reads from lanes 4 to 9 (R157). -/
def laneV (t : Lanes) : Int :=
  t 4 / 2 ^ 29 + t 5 * 2 ^ 28 + t 6 * 2 ^ 85 + t 7 * 2 ^ 142 + t 8 * 2 ^ 199 + t 9 * 2 ^ 256

/-- ReduceDegree by the pipeline (R154 to R157). -/
def reduceDegreePipeline (c : List Nat) : FE := unpackV (laneV (pipelineLanes (wval c))).toNat

end Sys2Proof.Machine
end

