-- ==== Sys2Proof/Safety.lean ====
section
/-! DEFINITION. What a safe state is, and the words the statements use: the invariants of R25, R34, R36, R39 and R270, the
write set of a command (R30), and what a completed command leaves alone. -/

namespace Sys2Proof

open Machine

/-- The registers a command writes (the last column of R30). -/
def Instr.writes : Instr → List Reg
  | .nop => []
  | .fadd rd _ _ => [rd]
  | .fsub rd _ _ => [rd]
  | .fmul rd _ _ => [rd]
  | .fsqr rd _ => [rd]
  | .fmul2 rd _ _ => [rd, regPlus rd 1]
  | .fsqr2 rd _ => [rd, regPlus rd 1]
  | .frombig rd => [rd]
  | .tobig _ => []
  | .pdbl rd _ => [rd, regPlus rd 1, regPlus rd 2]
  | .padd rd _ _ => [rd, regPlus rd 1, regPlus rd 2]
  | .paddm rd _ _ => [rd, regPlus rd 1, regPlus rd 2]
  | .sela rd _ _ => [rd, regPlus rd 1]
  | .selj rd _ _ => [rd, regPlus rd 1, regPlus rd 2]
  | .ccopy rd _ _ => [rd]
  | .ldc rd _ => [rd]

/-- Only TOBIG writes DOUT (R31). -/
def Instr.writesDout : Instr → Bool
  | .tobig _ => true
  | .nop => false
  | .fadd _ _ _ => false
  | .fsub _ _ _ => false
  | .fmul _ _ _ => false
  | .fsqr _ _ => false
  | .fmul2 _ _ _ => false
  | .fsqr2 _ _ => false
  | .frombig _ => false
  | .pdbl _ _ => false
  | .padd _ _ _ => false
  | .paddm _ _ _ => false
  | .sela _ _ _ => false
  | .selj _ _ _ => false
  | .ccopy _ _ _ => false
  | .ldc _ _ => false

/-- Only FROMBIG reads DINL (R30). -/
def Instr.readsDinl : Instr → Bool
  | .frombig _ => true
  | .nop => false
  | .fadd _ _ _ => false
  | .fsub _ _ _ => false
  | .fmul _ _ _ => false
  | .fsqr _ _ => false
  | .fmul2 _ _ _ => false
  | .fsqr2 _ _ => false
  | .tobig _ => false
  | .pdbl _ _ => false
  | .padd _ _ _ => false
  | .paddm _ _ _ => false
  | .sela _ _ _ => false
  | .selj _ _ _ => false
  | .ccopy _ _ _ => false
  | .ldc _ _ => false

/-- The registers a command reads (the middle column of R30). -/
def Instr.reads : Instr → List Reg
  | .nop => []
  | .fadd _ ra rb => [ra, rb]
  | .fsub _ ra rb => [ra, rb]
  | .fmul _ ra rb => [ra, rb]
  | .fsqr _ ra => [ra]
  | .fmul2 _ ra rb => [ra, regPlus ra 1, rb, regPlus rb 1]
  | .fsqr2 _ ra => [ra, regPlus ra 1]
  | .frombig _ => []
  | .tobig ra => [ra]
  | .pdbl _ ra => [ra, regPlus ra 1, regPlus ra 2]
  | .padd _ ra rb => [ra, regPlus ra 1, regPlus ra 2, rb, regPlus rb 1, regPlus rb 2]
  | .paddm _ ra rb => [ra, regPlus ra 1, regPlus ra 2, rb, regPlus rb 1]
  | .sela _ _ _ => []
  | .selj _ rb _ => (List.range 48).map (regPlus rb)
  | .ccopy rd ra _ => [ra, rd]
  | .ldc _ _ => []

/-- The operands of an instruction are the fields of the word (R101 to R103). -/
def Instr.FieldsAre (w : Word) : Instr → Prop
  | .nop => True
  | .fadd rd ra rb => fieldRd w = rd ∧ fieldRa w = ra ∧ fieldRb w = rb
  | .fsub rd ra rb => fieldRd w = rd ∧ fieldRa w = ra ∧ fieldRb w = rb
  | .fmul rd ra rb => fieldRd w = rd ∧ fieldRa w = ra ∧ fieldRb w = rb
  | .fsqr rd ra => fieldRd w = rd ∧ fieldRa w = ra
  | .fmul2 rd ra rb => fieldRd w = rd ∧ fieldRa w = ra ∧ fieldRb w = rb
  | .fsqr2 rd ra => fieldRd w = rd ∧ fieldRa w = ra
  | .frombig rd => fieldRd w = rd
  | .tobig ra => fieldRa w = ra
  | .pdbl rd ra => fieldRd w = rd ∧ fieldRa w = ra
  | .padd rd ra rb => fieldRd w = rd ∧ fieldRa w = ra ∧ fieldRb w = rb
  | .paddm rd ra rb => fieldRd w = rd ∧ fieldRa w = ra ∧ fieldRb w = rb
  | .sela rd g idx => fieldRd w = rd ∧ bits w 4 4 = g ∧ bits w 3 0 = idx
  | .selj rd rb idx => fieldRd w = rd ∧ fieldRb w = rb ∧ bits w 3 0 = idx
  | .ccopy rd ra c => fieldRd w = rd ∧ fieldRa w = ra ∧ bits w 0 0 = c.toNat
  | .ldc rd k => fieldRd w = rd ∧ bits w 2 0 = k.num

end Sys2Proof

namespace Sys2Proof.Machine

/-- Every register is in slack (R25). -/
def State.RegsInSlack (s : State) : Prop := ∀ r : Reg, InSlack (s.reg r)

/-- ERRCODE is 0 exactly when ERR is 0, and no code above 3 is ever produced (R36, R270). -/
def State.ErrorFieldWf (s : State) : Prop :=
  (s.status.err = false ↔ s.status.errcode = 0) ∧ s.status.errcode.toNat ≤ 3

/-- DOUT holds a canonical integer (R34). -/
def State.DoutCanonical (s : State) : Prop := portValue s.dout < p

/-- While BUSY = 1, CUR holds a command and DONE is 0 (R39, R272, R273). -/
def State.InFlightWf (s : State) : Prop :=
  s.status.busy = true → s.status.done = false ∧ ∃ i, decode s.cur = .command i

/-- What holds in every state a run from reset reaches. -/
def State.Inv (s : State) : Prop := s.RegsInSlack ∧ s.ErrorFieldWf ∧ s.DoutCanonical ∧ s.InFlightWf

/-- A state whose step goes on. -/
def State.Safe (s : State) : Prop := ∃ t, step s = .next t

/-- An event the interface defines (R74). -/
def Event.Defined : Event → Prop
  | .read off size => accessDefined off size = true
  | .write off size _ => accessDefined off size = true
  | .complete => True
  | .statusWriteAtCompletion _ => True
  | .hwReset => True

/-- A defined host access that does not reset the unit: what a host may do while a command is in flight. -/
def Event.Quiet : Event → Prop
  | .read off size => accessDefined off size = true
  | .write off size v => accessDefined off size = true ∧ (off = 0x04 → v.getLsbD 0 = false)
  | .complete => False
  | .statusWriteAtCompletion _ => False
  | .hwReset => False

/-- `t` is `s` after a completion that wrote the registers `ds` and, if `wroteDout`, DOUT: BUSY is 0, DONE is 1, and every
other register, DOUT otherwise, DIN, CTRL, ERR, ERRCODE, CUR, DINL, the last read data and the events to come are as
before (R30, R31, R274). -/
def CompletedWriting (ds : List Reg) (wroteDout : Bool) (s t : State) : Prop :=
  (∀ r, r ∉ ds → t.reg r = s.reg r) ∧ (wroteDout = false → t.dout = s.dout) ∧ t.din = s.din ∧ t.ctrl = s.ctrl
    ∧ t.status = { s.status with busy := false, done := true } ∧ t.cur = s.cur ∧ t.dinl = s.dinl ∧ t.rdata = s.rdata
    ∧ t.schedule = s.schedule

/-- One of the 48 illegal opcode values (R106). -/
abbrev IllegalOpcode (n : Nat) : Prop := n = 0x07 ∨ n = 0x0A ∨ n = 0x0B ∨ n = 0x0F ∨ (0x14 ≤ n ∧ n ≤ 0x3F)

/-- The next step is a completion instant with a command in flight (R274). -/
def State.CompletesNext (s : State) : Prop :=
  s.status.busy = true
    ∧ (s.schedule = [] ∨ ∃ rest, s.schedule = .complete :: rest ∨ ∃ v, s.schedule = .statusWriteAtCompletion v :: rest)

/-- The next step is a reset (R300): the reset input, or a CTRL write with SRST = 1. -/
def State.ResetsNext (s : State) : Prop :=
  ∃ rest, s.schedule = .hwReset :: rest ∨ ∃ v, v.getLsbD 0 = true ∧ s.schedule = .write 0x04 4 v :: rest

/-- The next step writes STATUS with bit 2 set (R36, R279). -/
def State.ClearsErrNext (s : State) : Prop :=
  ∃ v rest, v.getLsbD 2 = true ∧ (s.schedule = .write 0x08 4 v :: rest ∨ s.schedule = .statusWriteAtCompletion v :: rest)

/-- The vector `Sub(a, a)` of R135 (d), of value 2p, limb 2 above its nominal width. -/
def twoPVector : FE :=
  ⟨0x1FFFFFFE, 0x0FFFFFFF, 0x200000FF, 0x0FFFF7FF, 0x1FFFFFFF, 0x0FFFFFFF, 0x1FFFFFFF, 0x0DFFFFFF, 0x1FFFFFFF⟩

/-- An affine curve point by its canonical integers (R50). -/
def onCurve (x y : Nat) : Bool := y * y % p == (x * x * x + curveA * x + curveB) % p

/-- `x − y` modulo p, for y below p. -/
def subMod (x y : Nat) : Nat := (x + p - y) % p

/-- `S = P + Q` by the chord law of R58, with the division multiplied out. -/
def chordSum (P Q S : Nat × Nat) : Bool :=
  let dx := subMod Q.1 P.1
  let dy := subMod Q.2 P.2
  dx != 0 && (S.1 + P.1 + Q.1) * (dx * dx) % p == dy * dy % p && (S.2 + P.2) * dx % p == dy * subMod P.1 S.1 % p

/-- One doubling of a Jacobian point on integers modulo p, by the formulas of SC that R190 quotes. -/
def doubleMod (P : Nat × Nat × Nat) : Nat × Nat × Nat :=
  let (x, y, z) := P
  let lam := (3 * x * x + curveA * (z * z * z * z)) % p
  let s := 4 * x * y * y % p
  let x3 := subMod (lam * lam % p) (2 * s % p)
  (x3, subMod (lam * subMod s x3 % p) (8 * (y * y * y * y) % p), 2 * y * z % p)

/-- n doublings. -/
def doublingsMod : Nat → Nat × Nat × Nat → Nat × Nat × Nat
  | 0, P => P
  | n + 1, P => doublingsMod n (doubleMod P)

/-- `S = 2^n·P` for affine points, by n doublings of (x, y, 1) (R58). -/
def isDoubled (n : Nat) (P S : Nat × Nat) : Bool :=
  let (x, y, z) := doublingsMod n (P.1, P.2, 1)
  z != 0 && x == S.1 * (z * z) % p && y == S.2 * (z * z * z) % p

/-- Entry (g, idx) of the fixed-base table as canonical integers. -/
def tableEntry (g : Fin 2) (idx : Nat) : Nat × Nat :=
  match (baseGroup g)[idx]? with
  | some A => (toBig A.x, toBig A.y)
  | none => (0, 0)

/-- A limb vector is canonical-packed (R12). -/
def CanonicalPacked (a : FE) : Prop := ∃ v, v < 2 ^ 257 ∧ a = pack v

end Sys2Proof.Machine
end

