-- ==== Sys2Proof/Certificates/Slice0/Obligations.lean ====
section
/-! DEFINITION. The statements for the provers. Host accesses, completions and resets come as events of the schedule, the
model's form of the total order of R82 (log 1); what a host read returns is the field `rdata` (log 6). -/

section Statements

open Sys2Proof Sys2Proof.Machine

/-! ## Encoding -/

/-- Every command within its limits survives being encoded and decoded (R101, R108). -/
def Obligations.DecodeEncode : Prop := ∀ i : Instr, i.WellFormed → decode (encode i) = .command i

/-- A word that decodes to a command is that command's one word, matches its row of R105 and no row of another mnemonic. -/
def Obligations.EncodeDecode : Prop :=
  ∀ (w : Word) (i : Instr), decode w = .command i →
    i.WellFormed ∧ encode i = w ∧ i.row.hits w = true ∧ ∀ j : Instr, j.row.hits w = true → j.row = i.row

/-- The decoder of R108: opcode first, then `(w & mask) = match` and the extra conditions of the row. -/
def Obligations.DecoderFollowsTheOpcodeMap : Prop :=
  ∀ w : Word, (decode w = .illegalOpcode ↔ IllegalOpcode (fieldOp w))
    ∧ (∀ i : Instr, decode w = .command i ↔ i.row.hits w = true ∧ i.WellFormed ∧ i.FieldsAre w)
    ∧ (decode w = .illegalOperand ↔
        ¬IllegalOpcode (fieldOp w) ∧ ¬∃ i : Instr, i.row.hits w = true ∧ i.WellFormed ∧ i.FieldsAre w)

/-- Words that the spec writes out decode to what it says they are. -/
def Obligations.SpecWordsDecode : Prop :=
  decode 0x00000000 = .command .nop ∧ decode 0x04404200 = .command (.fadd 4 1 2)
    ∧ decode 0x0C304200 = .command (.fmul 3 1 2) ∧ decode 0x20100000 = .command (.frombig 1)
    ∧ decode 0x30300000 = .command (.pdbl 3 0) ∧ decode 0x40A00011 = .command (.sela 10 1 1)
    ∧ decode 0x44001005 = .command (.selj 0 16 5) ∧ decode 0x4851C001 = .command (.ccopy 5 7 true)
    ∧ decode 0x4C900004 = .command (.ldc 9 .pv) ∧ decode 0x33E00000 = .illegalOperand
    ∧ decode 0x44001100 = .illegalOperand ∧ decode 0x4C900005 = .illegalOperand ∧ decode 0x1C000000 = .illegalOpcode

/-! ## The life of a command -/

/-- The five outcomes of a CMD write, in the order of the tests (R272). -/
def Obligations.CmdWriteOutcome : Prop :=
  (∀ w : Word, memWrite (Config.base + 0x0C) 4 w = some (.write 0x0C 4 w))
    ∧ ∀ (s : State) (w : Word) (rest : List Event), s.schedule = .write 0x0C 4 w :: rest →
      (s.status.err = true → step s = .next { s with schedule := rest })
      ∧ (s.status.err = false → s.status.busy = true →
          step s = .next { s with status := { s.status with err := true, errcode := 3 }, schedule := rest })
      ∧ (s.status.err = false → s.status.busy = false → IllegalOpcode (fieldOp w) →
          step s = .next { s with status := { s.status with err := true, errcode := 1 }, schedule := rest })
      ∧ (s.status.err = false → s.status.busy = false → ¬IllegalOpcode (fieldOp w) →
          (¬∃ i : Instr, i.WellFormed ∧ encode i = w) →
          step s = .next { s with status := { s.status with err := true, errcode := 2 }, schedule := rest })
      ∧ (s.status.err = false → s.status.busy = false → (∃ i : Instr, i.WellFormed ∧ encode i = w) →
          step s = .next { s with
            cur := w, dinl := BitVec.ofNat 256 (portValue s.din),
            status := { s.status with busy := true, done := false }, schedule := rest })

/-- Acceptance latches the word and DIN, sets BUSY, clears DONE and changes nothing else; irq falls if DONE was its only
cause (R273). -/
def Obligations.AcceptEffect : Prop :=
  ∀ (s : State) (w : Word) (i : Instr) (rest : List Event), s.schedule = .write 0x0C 4 w :: rest →
    s.status.err = false → s.status.busy = false → decode w = .command i →
    ∃ t, step s = .next t ∧ t.cur = w ∧ t.dinl.toNat = portValue s.din ∧ t.status.busy = true ∧ t.status.done = false
      ∧ t.status.err = s.status.err ∧ t.status.errcode = s.status.errcode ∧ (∀ r, t.reg r = s.reg r) ∧ t.dout = s.dout
      ∧ t.din = s.din ∧ t.ctrl = s.ctrl ∧ t.irq = false

/-- `raise Error(code)` sets ERR and ERRCODE and nothing else, and a command in flight completes as it would have (R271). -/
def Obligations.RaiseErrorEffect : Prop :=
  (∀ (s : State) (c : BitVec 4), s.raiseError c = { s with status := { s.status with err := true, errcode := c } }
      ∧ (s.ctrl.ieErr = true → (s.raiseError c).irq = true))
    ∧ (∀ (s t : State) (c : BitVec 4) (i : Instr), exec i s = .next t → exec i (s.raiseError c) = .next (t.raiseError c))
    ∧ ∀ (s t : State) (w : Word) (i : Instr) (rest : List Event), s.schedule = .write 0x0C 4 w :: .complete :: rest →
      s.status.err = false → s.status.busy = true → decode s.cur = .command i → exec i (s.setSchedule rest) = .next t →
      ∃ u v, step s = .next u ∧ u.status.busy = true ∧ u.status.err = true ∧ u.status.errcode = 3 ∧ u.cur = s.cur
        ∧ u.dinl = s.dinl ∧ step u = .next v ∧ v.f = t.f ∧ v.dout = t.dout
        ∧ v.status = { busy := false, done := true, err := true, errcode := 3 }

/-- A completion instant runs the decoded command of CUR (R274), and the word given to withFetchWord is the next command run.
That an empty schedule completes what is in flight (logs 1, 2), that an instant with nothing in flight is idle (log 11) and
what withFetchWord stands for (log 7) are the model's choices. The model's deductions are that a STATUS write in the step of
the completion clears its flags before exec runs (log 12, from R36: "If a completion sets DONE in the same step as a host
write clears it, DONE ends as 1 (the set wins)", and R275) and that decodeTableWord reads its number as one 32-bit word
(log 17). -/
def Obligations.StepRunsDecodedCommand : Prop :=
  (∀ (s : State) (i : Instr), s.status.busy = true → decode s.cur = .command i →
      (s.schedule = [] → step s = exec i s)
      ∧ (∀ rest, s.schedule = .complete :: rest → step s = exec i (s.setSchedule rest))
      ∧ ∀ v rest, s.schedule = .statusWriteAtCompletion v :: rest → step s = exec i ((s.setSchedule rest).clearFlags v))
    ∧ (∀ (s : State) (rest : List Event), s.status.busy = false → s.schedule = .complete :: rest →
        step s = .next (s.setSchedule rest))
    ∧ ∀ (s : State) (nbits w : Nat) (i : Instr), decodeTableWord nbits w = some i →
        step (s.withFetchWord nbits w) = exec i (s.accept (BitVec.ofNat 32 (w % 2 ^ nbits)))

/-- What a command leaves alone: every register but those R30 says it writes, DIN, CTRL, ERR, ERRCODE, CUR, DINL, the ID
register, and DOUT unless it is TOBIG; BUSY and DONE change as R273 and R274 say (R31). -/
def Obligations.CommandFrame : Prop :=
  (∀ (i : Instr) (s t : State), exec i s = .next t →
      CompletedWriting i.writes i.writesDout s t ∧ t.mapRead 0x00 = 0x534D3246)
    ∧ ∀ (s : State) (w : Word), (s.accept w).status = { s.status with busy := true, done := false }
      ∧ (s.accept w).ctrl = s.ctrl ∧ (s.accept w).din = s.din ∧ (s.accept w).dout = s.dout
      ∧ (s.accept w).mapRead 0x00 = 0x534D3246

/-- A command's results depend only on the registers R30 says it reads, and for FROMBIG on DINL. -/
def Obligations.CommandsReadOnlyTheirSources : Prop :=
  ∀ (i : Instr) (s s' t : State), (∀ r ∈ i.reads, InSlack (s.reg r)) → (∀ r ∈ i.reads, s'.reg r = s.reg r) →
    (i.readsDinl = true → s'.dinl = s.dinl) → exec i s = .next t →
    ∃ t', exec i s' = .next t' ∧ (∀ r ∈ i.writes, t'.reg r = t.reg r) ∧ (i.writesDout = true → t'.dout = t.dout)

/-- Every command within its operand limits completes in every state, clears BUSY and sets DONE (R274, R278). -/
def Obligations.EveryCommandCompletes : Prop :=
  ∀ (i : Instr) (s : State), i.WellFormed →
    ∃ t, exec i s = .next t ∧ t.status = { s.status with busy := false, done := true }

/-! ## Reset and the invariant -/

/-- Both reset sources leave every piece of state at the value R43 gives. -/
def Obligations.ResetValues : Prop :=
  (∀ s : State, s.ResetsNext →
      ∃ t, step s = .next t ∧ (∀ r, t.reg r = FE.zero ∧ InSlack (t.reg r) ∧ val (t.reg r) = 0 ∧ toBig (t.reg r) = 0
          ∧ isInfZ (t.reg r) = true)
        ∧ (∀ k, (h : k < 8) → t.din[k] = 0 ∧ t.dout[k] = 0) ∧ t.ctrl = { ieDone := false, ieErr := false }
        ∧ t.status = { busy := false, done := false, err := false, errcode := 0 } ∧ t.cur = 0 ∧ t.dinl = 0
        ∧ t.irq = false ∧ t.mapRead 0x00 = 0x534D3246 ∧ completionInstant t = .next t)
    ∧ (∀ r, State.reset.reg r = FE.zero) ∧ (∀ k, (h : k < 8) → State.reset.din[k] = 0 ∧ State.reset.dout[k] = 0)
    ∧ State.reset.ctrl = { ieDone := false, ieErr := false }
    ∧ State.reset.status = { busy := false, done := false, err := false, errcode := 0 } ∧ State.reset.cur = 0
    ∧ State.reset.dinl = 0 ∧ State.reset.irq = false

/-- The invariant holds after reset. -/
def Obligations.ResetMeetsInv : Prop := State.reset.Inv

/-- Every step keeps the invariant: every register in slack (R25), ERRCODE 0 exactly without ERR and at most 3 (R36, R270),
DOUT below p (R34), a command in CUR and DONE clear while BUSY (R39). -/
def Obligations.StepKeepsInv : Prop := ∀ s t : State, s.Inv → step s = .next t → t.Inv

/-- In a state that meets the invariant nothing faults, and the only event refused is a host access that R74 does not define
(U2; the refusal's form is the model's, log 8). -/
def Obligations.InvStatesGoOn : Prop :=
  ∀ s : State, s.Inv →
    (step s = .refused .hostAccessUndefined ∧ ∃ e rest, s.schedule = e :: rest ∧ ¬e.Defined)
      ∨ (s.Safe ∧ ∀ e rest, s.schedule = e :: rest → e.Defined)

/-! ## The register map -/

/-- Reserved offsets read 0 and ignore writes; ID reads its constant and ignores writes; none sets ERR (R73, R38). -/
def Obligations.ReservedAndIdOffsets : Prop :=
  ∀ (s : State) (off : Nat) (rest : List Event),
    (off % 4 = 0 → (0x10 ≤ off ∧ off < 0x20) ∨ (0x60 ≤ off ∧ off < 0x100) →
      (s.schedule = .read off 4 :: rest → step s = .next { s with rdata := 0, schedule := rest })
      ∧ ∀ v, s.schedule = .write off 4 v :: rest → step s = .next { s with schedule := rest })
    ∧ (s.schedule = .read 0x00 4 :: rest → step s = .next { s with rdata := 0x534D3246, schedule := rest })
    ∧ ∀ v, s.schedule = .write 0x00 4 v :: rest → step s = .next { s with schedule := rest }

/-- A DIN write stores one word and nothing else, a DIN or DOUT read returns its word, a DOUT write is ignored, and CMD reads
0. -/
def Obligations.PortAccesses : Prop :=
  ∀ (s : State) (k : Nat) (hk : k < 8) (rest : List Event),
    (∀ v, s.schedule = .write (0x20 + 4 * k) 4 v :: rest →
      step s = .next { s with din := s.din.set k v, schedule := rest })
    ∧ (∀ v, s.schedule = .write (0x40 + 4 * k) 4 v :: rest → step s = .next { s with schedule := rest })
    ∧ (s.schedule = .read (0x20 + 4 * k) 4 :: rest → step s = .next { s with rdata := s.din[k], schedule := rest })
    ∧ (s.schedule = .read (0x40 + 4 * k) 4 :: rest → step s = .next { s with rdata := s.dout[k], schedule := rest })
    ∧ (s.schedule = .read 0x0C 4 :: rest → step s = .next { s with rdata := 0, schedule := rest })

/-- CTRL: SRST resets at once whatever the other bits are, otherwise bits 1 and 2 are stored and nothing else; SRST and the
reserved bits read 0; the two stored bits let DONE and ERR drive irq; both are 0 after reset (R35). -/
def Obligations.CtrlRegister : Prop :=
  (∀ (s : State) (v : Word) (rest : List Event), s.schedule = .write 0x04 4 v :: rest →
      (v.getLsbD 0 = true → step s = .next (s.setSchedule rest).doReset)
      ∧ (v.getLsbD 0 = false → step s = .next { s with
          ctrl := { ieDone := v.getLsbD 1, ieErr := v.getLsbD 2 }, schedule := rest }))
    ∧ (∀ (s : State) (rest : List Event), s.schedule = .read 0x04 4 :: rest →
        ∃ t, step s = .next t ∧ t.rdata.getLsbD 0 = false ∧ t.rdata.getLsbD 1 = s.ctrl.ieDone
          ∧ t.rdata.getLsbD 2 = s.ctrl.ieErr ∧ ∀ b, 3 ≤ b → t.rdata.getLsbD b = false)
    ∧ (∀ s : State, (s.ctrl.ieDone = true → s.status.done = true → s.irq = true)
        ∧ (s.ctrl.ieErr = true → s.status.err = true → s.irq = true)
        ∧ (s.ctrl.ieDone = false → s.ctrl.ieErr = false → s.irq = false))
    ∧ State.reset.ctrl = { ieDone := false, ieErr := false }

/-- STATUS: its bits as the host reads them, its write-1-to-clear bits, and the set that wins over a clear in the same
step. -/
def Obligations.StatusRegister : Prop :=
  (∀ (s : State) (rest : List Event), s.schedule = .read 0x08 4 :: rest →
      ∃ t, step s = .next t ∧ t.status = s.status ∧ t.rdata.getLsbD 0 = s.status.busy ∧ t.rdata.getLsbD 1 = s.status.done
        ∧ t.rdata.getLsbD 2 = s.status.err ∧ t.rdata.getLsbD 3 = false
        ∧ (∀ b, b < 4 → t.rdata.getLsbD (4 + b) = s.status.errcode.getLsbD b) ∧ ∀ b, 8 ≤ b → t.rdata.getLsbD b = false)
    ∧ (∀ (s : State) (v : Word) (rest : List Event), s.schedule = .write 0x08 4 v :: rest →
        step s = .next { s with
          status := { busy := s.status.busy, done := if v.getLsbD 1 then false else s.status.done,
                      err := if v.getLsbD 2 then false else s.status.err,
                      errcode := if v.getLsbD 2 then 0 else s.status.errcode },
          schedule := rest })
    ∧ ∀ (s : State) (v : Word) (rest : List Event) (i : Instr), s.schedule = .statusWriteAtCompletion v :: rest →
        s.status.busy = true → decode s.cur = .command i →
        ∃ t, step s = .next t ∧ t.status.busy = false ∧ t.status.done = true
          ∧ t.status.err = if v.getLsbD 2 then false else s.status.err

/-- ERR is sticky: only a STATUS write with bit 2 or a reset clears it, and until then ERRCODE keeps the code of the first
error. -/
def Obligations.ErrorIsSticky : Prop :=
  ∀ s t : State, s.status.err = true → step s = .next t →
    (t.status.err = true ∧ t.status.errcode = s.status.errcode) ∨ s.ClearsErrNext ∨ s.ResetsNext

/-- The interrupt line as a function of the STATUS and CTRL bits that the host reads, low after reset (R280). -/
def Obligations.InterruptLine : Prop :=
  (∀ s : State, s.irq = ((s.status.done && s.ctrl.ieDone) || (s.status.err && s.ctrl.ieErr))
      ∧ s.irq = (((s.mapRead 0x08).getLsbD 1 && (s.mapRead 0x04).getLsbD 1)
          || ((s.mapRead 0x08).getLsbD 2 && (s.mapRead 0x04).getLsbD 2)))
    ∧ State.reset.irq = false

/-- Registers and DOUT change only at a completion or a reset, DOUT only at the completion of a TOBIG or a reset; BUSY rises
only by accepting a command and falls only by a completion or a reset. -/
def Obligations.StateChangesOnlyAtCompletions : Prop :=
  ∀ s t : State, step s = .next t →
    (t.f ≠ s.f → s.CompletesNext ∨ s.ResetsNext)
      ∧ (t.dout ≠ s.dout → (s.CompletesNext ∧ ∃ ra, decode s.cur = .command (.tobig ra)) ∨ s.ResetsNext)
      ∧ (s.status.busy = true → t.status.busy = false → s.CompletesNext ∨ s.ResetsNext)
      ∧ (s.status.busy = false → t.status.busy = true →
          s.status.err = false ∧ ∃ w i rest, s.schedule = .write 0x0C 4 w :: rest ∧ decode w = .command i ∧ t.cur = w)

/-- A defined read returns the register's word and changes nothing the host or the unit can read. -/
def Obligations.ReadsHaveNoSideEffects : Prop :=
  ∀ (s : State) (off : Nat) (rest : List Event), off % 4 = 0 → off < 0x100 → s.schedule = .read off 4 :: rest →
    step s = .next { s with rdata := s.mapRead off, schedule := rest }
      ∧ ∀ o, State.mapRead { s with rdata := s.mapRead off, schedule := rest } o = s.mapRead o

/-- Whatever defined accesses short of a reset a host makes between acceptance and completion, the command has the effect it
would have had at once (R39, R75, R85). -/
def Obligations.HostTrafficCannotDisturb : Prop :=
  ∀ (s : State) (es rest : List Event) (i : Instr), s.status.busy = true → decode s.cur = .command i →
    (∀ e ∈ es, e.Quiet) → s.schedule = es ++ .complete :: rest →
    ∃ t u v, exec i s = .next t ∧ Host.Core.run Sys2Proof.core es.length s = .next u ∧ u.status.busy = true
      ∧ u.cur = s.cur ∧ u.dinl = s.dinl ∧ u.f = s.f ∧ u.dout = s.dout ∧ step u = .next v ∧ v.f = t.f ∧ v.dout = t.dout
      ∧ v.status.busy = false ∧ v.status.done = true ∧ v.schedule = rest

/-- Every command in flight completes, or is abandoned by a reset, at the latest one step after the host's last event (R310;
that the unit then completes in the very next step is the model's choice, log 2). -/
def Obligations.EveryAcceptedCommandCompletes : Prop :=
  ∀ s : State, s.Inv → s.status.busy = true → (∀ e ∈ s.schedule, e.Defined) →
    ∃ k t, k ≤ s.schedule.length + 1 ∧ Host.Core.run Sys2Proof.core k s = .next t ∧ t.status.busy = false

/-! ## Field arithmetic -/

/-- ReduceCarry on limbs within their nominal widths: the row added into limbs 0, 2, 3 and 7, no carry between limbs, the
value law and the bounds. -/
def Obligations.ReduceCarryLaws : Prop :=
  ∀ (a : FE) (c : Nat), c ≤ 7 → (∀ i, i < 9 → limb a i < 2 ^ limbWidth i) →
    (∀ i, i < 9 → limb (reduceCarry a c) i =
        if i = 0 ∨ i = 2 ∨ i = 3 ∨ i = 7 then limb a i + limb (pack (c * (2 ^ 257 % p))) i else limb a i)
      ∧ (val (reduceCarry a c) : Int) = val a + c * (2 ^ 257 - 2 * p) ∧ InSlack (reduceCarry a c)
      ∧ limb (reduceCarry a c) 0 ≤ 2 ^ 29 - 1 + 14 ∧ limb (reduceCarry a c) 2 ≤ 2 ^ 29 - 1 + (2 ^ 29 - 2 ^ 8)
      ∧ limb (reduceCarry a c) 3 ≤ 2 ^ 28 - 1 + (7 * 2 ^ 11 - 1) ∧ limb (reduceCarry a c) 7 ≤ 2 ^ 28 - 1 + 7 * 2 ^ 25
      ∧ reduceCarry a 0 = a

/-- The laws (a) to (f) of Add (R133). -/
def Obligations.AddLaws : Prop :=
  (∀ a b : FE, InSlack a → InSlack b →
      (val (add a b) : Int) = val a + val b - 2 * ((val a + val b) / 2 ^ 257 : Nat) * p
      ∧ ((toBig (add a b) : Nat) : ZMod p) = toBig a + toBig b ∧ val (add a b) % p = (val a + val b) % p
      ∧ (val a + val b) / 2 ^ 257 ≤ 4 ∧ val a < 2 ^ 258 + 2 ^ 230 ∧ InSlack (add a b) ∧ add a b = add b a)
    ∧ add FE.zero FE.zero = FE.zero
    ∧ add (fromBig (p - 1)) (fromBig 1) = fePV ∧ val fePV = p
    ∧ (∀ a b c : FE, InSlack a → InSlack b → InSlack c → toBig (add (add a b) c) = toBig (add a (add b c)))
    ∧ ∃ a b c : FE, InSlack a ∧ InSlack b ∧ InSlack c ∧ add (add a b) c ≠ add a (add b c)

/-- The laws (a) to (e) of Sub (R135). -/
def Obligations.SubLaws : Prop :=
  (∀ a b : FE, InSlack a → InSlack b →
      (val (sub a b) : Int) = val a - val b + 8 * p - 2 * ((val a + 8 * p - val b) / 2 ^ 257 : Nat) * p
      ∧ (val (sub a b) + val b) % p = val a % p
      ∧ 1 ≤ (val a + 8 * p - val b) / 2 ^ 257 ∧ (val a + 8 * p - val b) / 2 ^ 257 ≤ 6
      ∧ 2 ^ 257 < 8 * p - val b ∧ val a + 8 * p < 7 * 2 ^ 257 ∧ InSlack (sub a b))
    ∧ (∀ a : FE, InSlack a → sub a a = twoPVector)
    ∧ twoPVector ≠ FE.zero ∧ twoPVector ≠ fePV ∧ val twoPVector = 2 * p ∧ 8 * p / 2 ^ 257 = 3
    ∧ 2 ^ 29 ≤ twoPVector.l2.toNat ∧ toBig twoPVector = 0
    ∧ ∀ (a b : FE) (m : Int), InSlack a → InSlack b → (val a : Int) - val b = m * p →
        val (sub a b) = (if m % 2 = 0 then 2 * p else p) ∧ val (sub a b) ≠ 0
          ∧ (((val a + 8 * p - val b) / 2 ^ 257 : Nat) : Int) = (m + 8) * p / 2 ^ 257

/-- The field laws of Add, Sub and Mul as canonical integers, for the vectors of FromBig and for any in-slack vectors
(R138). -/
def Obligations.FieldLawsAddSub : Prop :=
  (∀ a b c : Nat, a < p → b < p → c < p →
      toBig (add (fromBig a) (fromBig b)) = (a + b) % p
      ∧ toBig (sub (fromBig a) (fromBig b)) = (a + p - b) % p
      ∧ toBig (add (fromBig a) (fromBig b)) = toBig (add (fromBig b) (fromBig a))
      ∧ toBig (add (add (fromBig a) (fromBig b)) (fromBig c)) = toBig (add (fromBig a) (add (fromBig b) (fromBig c)))
      ∧ toBig (mul (fromBig a) (add (fromBig b) (fromBig c)))
          = toBig (add (mul (fromBig a) (fromBig b)) (mul (fromBig a) (fromBig c)))
      ∧ toBig (sub (fromBig a) (fromBig a)) = 0)
    ∧ (∀ a b c : FE, InSlack a → InSlack b → InSlack c →
        toBig (add a b) = (toBig a + toBig b) % p ∧ toBig (sub a b) = (toBig a + p - toBig b) % p
        ∧ toBig (add a b) = toBig (add b a) ∧ toBig (add (add a b) c) = toBig (add a (add b c))
        ∧ toBig (mul a (add b c)) = toBig (add (mul a b) (mul a c)) ∧ toBig (sub a a) = 0
        ∧ InSlack (add a b) ∧ InSlack (sub a b) ∧ InSlack (mul a b))
    ∧ ∀ a : FE, toBig a < p

/-- The wide product: its limbs as double sums, its exact value, its bounds, its symmetry (R151). -/
def Obligations.WideMulLaws : Prop :=
  ∀ a b : FE, InSlack a → InSlack b →
    (wideMul a b).length = 17
      ∧ (∀ k, k < 17 → (wideMul a b)[k]? = some (∑ i : Fin 9, ∑ j : Fin 9,
          if i.val + j.val = k then (if i.val % 2 = 1 ∧ j.val % 2 = 1 then 2 else 1) * limb a i * limb b j else 0))
      ∧ wval (wideMul a b) = val a * val b ∧ (∀ x ∈ wideMul a b, x ≤ 0x6FFFFFFB8000000D ∧ x < 2 ^ 63)
      ∧ wval (wideMul a b) < (2 ^ 258 + 2 ^ 230) ^ 2 ∧ wval (wideMul a b) < 2 ^ 517 ∧ wideMul a b = wideMul b a

/-- ReduceDegree in closed form: the one M that clears the low 257 bits, the exact division, the carry range, and the result
as a function of the value alone (R153). -/
def Obligations.ReduceDegreeClosedForm : Prop :=
  (∀ c : List Nat, wval c < 2 ^ 517 - 2 ^ 513 →
      ∃ M V, M = wval c * negPInv % 2 ^ 257 ∧ (wval c + M * p) % 2 ^ 257 = 0 ∧ V = (wval c + M * p) / 2 ^ 257
        ∧ (∀ M', M' < 2 ^ 257 → (wval c + M' * p) % 2 ^ 257 = 0 → M' = M) ∧ V / 2 ^ 257 ≤ 7
        ∧ reduceDegree c = reduceCarry (pack (V % 2 ^ 257)) (V / 2 ^ 257))
    ∧ (∀ c c' : List Nat, wval c = wval c' → reduceDegree c = reduceDegree c')
    ∧ negPInv < 2 ^ 257 ∧ (negPInv * p + 1) % 2 ^ 257 = 0
    ∧ ∀ a b : FE, InSlack a → InSlack b → wval (wideMul a b) < 2 ^ 516 + 2 ^ 490
        ∧ (wval (wideMul a b) + wval (wideMul a b) * negPInv % 2 ^ 257 * p) / 2 ^ 257 / 2 ^ 257 ≤ 4

/-- The five-step pipeline on packed lanes computes the closed form, for every wide element (R154 to R158 (a)). -/
def Obligations.PipelineIsClosedForm : Prop := ∀ c : List Nat, reduceDegreePipeline c = reduceDegree c

/-- The residue, the value, the bound on the carry and the slack of a reduction. -/
def Obligations.ReduceDegreeLaws : Prop :=
  (∀ c : List Nat, wval c < 2 ^ 517 - 2 ^ 513 →
      val (reduceDegree c) * 2 ^ 257 % p = wval c % p ∧ InSlack (reduceDegree c)
      ∧ ∃ V, V * 2 ^ 257 = wval c + wval c * negPInv % 2 ^ 257 * p
          ∧ val (reduceDegree c) + 2 * (V / 2 ^ 257) * p = V)
    ∧ reduceDegree (List.replicate 17 0) = FE.zero

/-- The laws of Mul (R160). -/
def Obligations.MulLaws : Prop :=
  (∀ a b : FE, InSlack a → InSlack b →
      mul a b = reduceDegree (wideMul a b) ∧ val (mul a b) * 2 ^ 257 % p = val a * val b % p
      ∧ toBig (mul a b) = toBig a * toBig b % p ∧ InSlack (mul a b) ∧ mul a b = mul b a
      ∧ mul a FE.zero = FE.zero ∧ mul FE.zero b = FE.zero
      ∧ ∀ c d : FE, InSlack c → InSlack d → val a * val b = val c * val d → mul a b = mul c d)
    ∧ (∀ a : FE, InSlack a → val (mul a feOne) % p = val a % p
        ∧ ((val a * val feOne + val a * val feOne * negPInv % 2 ^ 257 * p) / 2 ^ 257 / 2 ^ 257 = 0 →
            CanonicalPacked (mul a feOne)))
    ∧ (∃ a : FE, InSlack a ∧ mul a feOne ≠ a)
    ∧ ∀ b : FE, InSlack b → 0 < val b → val b < 2 ^ 257 →
        mul fePV b = fePV ∧ val fePV * val b * negPInv % 2 ^ 257 = 2 ^ 257 - val b
          ∧ (val fePV * val b + (2 ^ 257 - val b) * p) / 2 ^ 257 = p

/-- Square is Mul of a vector by itself, limb for limb, and computing each cross product once and doubling it changes no limb
of the wide element (R161). -/
def Obligations.SquareSymmetry : Prop :=
  ∀ a : FE, InSlack a → square a = mul a a ∧ square a = reduceDegree (wideMul a a)
    ∧ ∀ k, k < 17 → (wideMul a a)[k]? = some (∑ i : Fin 9, ∑ j : Fin 9, if i.val + j.val = k then
        (if i.val < j.val then 2 * ((if i.val % 2 = 1 ∧ j.val % 2 = 1 then 2 else 1) * limb a i * limb a j)
         else if i = j then (if i.val % 2 = 1 then 2 else 1) * limb a i * limb a i else 0) else 0)

/-- The field laws of Mul and Square as canonical integers, for any in-slack vectors (R167). -/
def Obligations.FieldLawsMul : Prop :=
  ∀ a b c : FE, InSlack a → InSlack b → InSlack c →
    toBig (mul a b) = toBig a * toBig b % p ∧ toBig (mul a b) = toBig (mul b a)
      ∧ toBig (mul (mul a b) c) = toBig (mul a (mul b c)) ∧ toBig (mul a (add b c)) = toBig (add (mul a b) (mul a c))
      ∧ toBig (mul a (fromBig 1)) = toBig a ∧ toBig (square a) = toBig (mul a a)

/-- FromBig and its laws (R180). -/
def Obligations.FromBigLaws : Prop :=
  (∀ x : Nat, x < 2 ^ 256 → fromBig x = pack (x * 2 ^ 257 % p) ∧ CanonicalPacked (fromBig x) ∧ InSlack (fromBig x)
      ∧ val (fromBig x) = x * 2 ^ 257 % p ∧ val (fromBig x) < p ∧ limb (fromBig x) 8 < 2 ^ 28
      ∧ (∀ i, i < 9 → limb (fromBig x) i = x * 2 ^ 257 % p / 2 ^ limbOffset i % 2 ^ limbWidth i
          ∧ x * 2 ^ 257 % p / 2 ^ limbOffset (i + 1) = x * 2 ^ 257 % p / 2 ^ limbOffset i / 2 ^ limbWidth i)
      ∧ toBig (fromBig x) = x % p ∧ fromBig x ≠ fePV ∧ (val (fromBig x) % p = 0 → fromBig x = FE.zero)
      ∧ (p ≤ x → fromBig x = fromBig (x - p)))
    ∧ fromBig 0 = FE.zero ∧ fromBig 1 = feOne ∧ ∀ c, c ≤ 7 → fromBig c = carryRow c

/-- ToBig and its laws (R182). -/
def Obligations.ToBigLaws : Prop :=
  (∀ a : FE, InSlack a → toBig a = unpackValue a * rInv % p ∧ unpackValue a = val a ∧ toBig a = val a * rInv % p
      ∧ unpackValue a < 2 ^ 258 + 2 ^ 230 ∧ unpackValue a * rInv < 2 ^ 515)
    ∧ rInv * 2 ^ 257 % p = 1 ∧ rInv < p ∧ (∀ a : FE, toBig a < p)
    ∧ (∀ a b : FE, InSlack a → InSlack b → val a % p = val b % p → toBig a = toBig b)
    ∧ toBig FE.zero = 0 ∧ toBig fePV = 0 ∧ toBig twoPVector = 0
    ∧ ∀ x, (x < p → toBig (fromBig x) = x) ∧ (p ≤ x → x < 2 ^ 256 → toBig (fromBig x) = x - p)

/-! ## Point arithmetic -/

/-- Double computes SC's formulas in the field, with every result in slack. -/
def Obligations.DoubleFormulas : Prop :=
  ∀ P : Jacobian, InSlack P.x → InSlack P.y → InSlack P.z →
    ∃ x y z lam X3 : ZMod p, x = toBig P.x ∧ y = toBig P.y ∧ z = toBig P.z ∧ lam = 3 * x ^ 2 + (curveA : ZMod p) * z ^ 4
      ∧ X3 = lam ^ 2 - 8 * x * y ^ 2 ∧ (toBig (double P).x : ZMod p) = X3
      ∧ (toBig (double P).y : ZMod p) = lam * (4 * x * y ^ 2 - X3) - 8 * y ^ 4
      ∧ (toBig (double P).z : ZMod p) = 2 * y * z
      ∧ InSlack (double P).x ∧ InSlack (double P).y ∧ InSlack (double P).z

/-- Double keeps the all-zero Z, gives the 2p vectors for the all-zero point, and does not keep PV. -/
def Obligations.DoubleOfInfinity : Prop :=
  (∀ x y : FE, InSlack x → InSlack y → (double ⟨x, y, FE.zero⟩).z = FE.zero)
    ∧ double ⟨FE.zero, FE.zero, FE.zero⟩ = ⟨twoPVector, twoPVector, FE.zero⟩
    ∧ ∀ x y : FE, InSlack x → InSlack y → 0 < val y → val y < 2 ^ 257 →
        (double ⟨x, y, fePV⟩).z = pack (2 * p) ∧ isInfZ (double ⟨x, y, fePV⟩).z = false

/-- The infinity test looks at limbs: all nine 0, or all nine those of PV, and no other vector (R200). -/
def Obligations.InfinityTest : Prop :=
  (∀ z : FE, isInfZ z = true ↔ (∀ i, i < 9 → limb z i = 0) ∨ (∀ i, i < 9 → limb z i = limb fePV i))
    ∧ fePV = ⟨0x1FFFFFFF, 0x0FFFFFFF, 0x0000007F, 0x0FFFFC00, 0x1FFFFFFF, 0x0FFFFFFF, 0x1FFFFFFF, 0x0EFFFFFF, 0x0FFFFFFF⟩
    ∧ fePV = pack p ∧ fromBig p = FE.zero
    ∧ ∀ z : FE, z ≠ FE.zero → z ≠ pack p → toBig z = 0 → isInfZ z = false

/-- FullAdd returns the other operand for an infinity, z1 tested first, and otherwise computes SC's formulas in the field. -/
def Obligations.FullAddFormulas : Prop :=
  ∀ P Q : Jacobian, InSlack P.x → InSlack P.y → InSlack P.z → InSlack Q.x → InSlack Q.y → InSlack Q.z →
    (isInfZ P.z = true → fullAdd P Q = Q) ∧ (isInfZ P.z = false → isInfZ Q.z = true → fullAdd P Q = P)
      ∧ (isInfZ P.z = false → isInfZ Q.z = false →
          ∃ x1 y1 z1 x2 y2 z2 u1 u2 s1 s2 h r X3 : ZMod p,
            x1 = toBig P.x ∧ y1 = toBig P.y ∧ z1 = toBig P.z ∧ x2 = toBig Q.x ∧ y2 = toBig Q.y ∧ z2 = toBig Q.z
            ∧ u1 = x1 * z2 ^ 2 ∧ u2 = x2 * z1 ^ 2 ∧ s1 = y1 * z2 ^ 3 ∧ s2 = y2 * z1 ^ 3 ∧ h = u2 - u1 ∧ r = s2 - s1
            ∧ X3 = r ^ 2 - h ^ 3 - 2 * u1 * h ^ 2 ∧ (toBig (fullAdd P Q).x : ZMod p) = X3
            ∧ (toBig (fullAdd P Q).y : ZMod p) = r * (u1 * h ^ 2 - X3) - s1 * h ^ 3
            ∧ (toBig (fullAdd P Q).z : ZMod p) = h * z1 * z2)
      ∧ InSlack (fullAdd P Q).x ∧ InSlack (fullAdd P Q).y ∧ InSlack (fullAdd P Q).z

/-- FullAdd of two finite points with the same x: Z3 is a zero of the field but never the all-zero vector, PV only within the
bounds R202 (c) gives, and all three results are 0 in the field when y agrees too. -/
def Obligations.FullAddDegenerate : Prop :=
  ∀ P Q : Jacobian, InSlack P.x → InSlack P.y → InSlack P.z → InSlack Q.x → InSlack Q.y → InSlack Q.z →
    isInfZ P.z = false → isInfZ Q.z = false →
    (toBig P.x : ZMod p) * (toBig Q.z) ^ 2 = toBig Q.x * (toBig P.z) ^ 2 →
    toBig (fullAdd P Q).z = 0 ∧ (fullAdd P Q).z ≠ FE.zero
      ∧ ((toBig P.y : ZMod p) * (toBig Q.z) ^ 3 = toBig Q.y * (toBig P.z) ^ 3 →
          toBig (fullAdd P Q).x = 0 ∧ toBig (fullAdd P Q).y = 0)
      ∧ (val (sub (mul Q.x (square P.z)) (mul P.x (square Q.z))) * val P.z ≤ p * 2 ^ 257 → val Q.z ≤ 2 ^ 257 →
          (fullAdd P Q).z = fePV)

/-- MixedAdd computes SC's formulas in the field with no infinity test: the all-zero point gives (2p, 2p, all-zero), and the
same affine point three zeros of the field with a Z that is not all-zero. -/
def Obligations.MixedAddFormulas : Prop :=
  (∀ (P : Jacobian) (A : Affine), InSlack P.x → InSlack P.y → InSlack P.z → InSlack A.x → InSlack A.y →
      (∃ x1 y1 z1 x2 y2 dx dy X3 : ZMod p,
        x1 = toBig P.x ∧ y1 = toBig P.y ∧ z1 = toBig P.z ∧ x2 = toBig A.x ∧ y2 = toBig A.y
        ∧ dx = x2 * z1 ^ 2 - x1 ∧ dy = y2 * z1 ^ 3 - y1 ∧ X3 = dy ^ 2 - dx ^ 3 - 2 * x1 * dx ^ 2
        ∧ (toBig (mixedAdd P A).x : ZMod p) = X3
        ∧ (toBig (mixedAdd P A).y : ZMod p) = dy * (x1 * dx ^ 2 - X3) - y1 * dx ^ 3
        ∧ (toBig (mixedAdd P A).z : ZMod p) = dx * z1)
      ∧ InSlack (mixedAdd P A).x ∧ InSlack (mixedAdd P A).y ∧ InSlack (mixedAdd P A).z
      ∧ (P.z ≠ FE.zero → (toBig P.x : ZMod p) = toBig A.x * (toBig P.z) ^ 2 →
          toBig (mixedAdd P A).z = 0 ∧ (mixedAdd P A).z ≠ FE.zero
          ∧ ((toBig P.y : ZMod p) = toBig A.y * (toBig P.z) ^ 3 →
              toBig (mixedAdd P A).x = 0 ∧ toBig (mixedAdd P A).y = 0)))
    ∧ ∀ A : Affine, InSlack A.x → InSlack A.y →
        mixedAdd ⟨FE.zero, FE.zero, FE.zero⟩ A = ⟨twoPVector, twoPVector, FE.zero⟩

/-- The fixed-base table holds the comb multiples of G: entry 1 of group 0 is G, the power-of-two entries are 64 doublings
apart and the groups 32, the others are sums, every point lies on the curve and is canonical-packed, and entry 0 is the zero
pair. -/
def Obligations.BaseTableIsTheComb : Prop :=
  (∀ g : Fin 2, (baseGroup g).length = 16 ∧ (baseGroup g)[0]? = some ⟨FE.zero, FE.zero⟩)
    ∧ tableEntry 0 1 = (curveGx, curveGy) ∧ isDoubled 32 (tableEntry 0 1) (tableEntry 1 1) = true
    ∧ (∀ g : Fin 2, isDoubled 64 (tableEntry g 1) (tableEntry g 2) = true
        ∧ isDoubled 64 (tableEntry g 2) (tableEntry g 4) = true ∧ isDoubled 64 (tableEntry g 4) (tableEntry g 8) = true
        ∧ chordSum (tableEntry g 1) (tableEntry g 2) (tableEntry g 3) = true
        ∧ (∀ i ∈ [1, 2, 3], chordSum (tableEntry g i) (tableEntry g 4) (tableEntry g (i + 4)) = true)
        ∧ ∀ i ∈ [1, 2, 3, 4, 5, 6, 7], chordSum (tableEntry g i) (tableEntry g 8) (tableEntry g (i + 8)) = true)
    ∧ ∀ g : Fin 2, ∀ i ∈ List.range 16, 0 < i → onCurve (tableEntry g i).1 (tableEntry g i).2 = true
        ∧ (baseGroup g)[i]? = some ⟨fromBig (tableEntry g i).1, fromBig (tableEntry g i).2⟩

/-! ## The commands, one by one -/

/-- NOP completes and changes nothing but BUSY and DONE; with IE_DONE the interrupt line is high after it. -/
def Obligations.NopResult : Prop :=
  ∀ s : State, ∃ t, exec .nop s = .next t ∧ CompletedWriting [] false s t ∧ (s.ctrl.ieDone = true → t.irq = true)

/-- FADD and FSUB write the sum and the difference, as vectors and as field values, to `rd` and nothing else. -/
def Obligations.FaddFsubResult : Prop :=
  ∀ (s : State) (rd ra rb : Reg), InSlack (s.reg ra) → InSlack (s.reg rb) →
    (∃ t, exec (.fadd rd ra rb) s = .next t ∧ CompletedWriting [rd] false s t ∧ t.reg rd = add (s.reg ra) (s.reg rb)
      ∧ InSlack (t.reg rd) ∧ toBig (t.reg rd) = (toBig (s.reg ra) + toBig (s.reg rb)) % p)
    ∧ ∃ t, exec (.fsub rd ra rb) s = .next t ∧ CompletedWriting [rd] false s t ∧ t.reg rd = sub (s.reg ra) (s.reg rb)
      ∧ InSlack (t.reg rd) ∧ toBig (t.reg rd) = (toBig (s.reg ra) + p - toBig (s.reg rb)) % p

/-- FMUL and FSQR write the product and the square, as vectors and as field values, to `rd` and nothing else; FMUL of a
register by itself is FSQR. -/
def Obligations.FmulFsqrResult : Prop :=
  ∀ (s : State) (rd ra rb : Reg), InSlack (s.reg ra) → InSlack (s.reg rb) →
    (∃ t, exec (.fmul rd ra rb) s = .next t ∧ CompletedWriting [rd] false s t ∧ t.reg rd = mul (s.reg ra) (s.reg rb)
      ∧ InSlack (t.reg rd) ∧ toBig (t.reg rd) = toBig (s.reg ra) * toBig (s.reg rb) % p)
    ∧ ∃ t, exec (.fsqr rd ra) s = .next t ∧ CompletedWriting [rd] false s t ∧ t.reg rd = square (s.reg ra)
      ∧ InSlack (t.reg rd) ∧ toBig (t.reg rd) = toBig (s.reg ra) * toBig (s.reg ra) % p
      ∧ exec (.fmul rd ra ra) s = .next t

/-- FMUL2: lane 0, then lane 1 on the registers as lane 0 left them, indistinguishable from two FMUL commands. -/
def Obligations.Fmul2Result : Prop :=
  ∀ (s : State) (rd ra rb : Reg), rd.val ≤ 62 → ra.val ≤ 62 → rb.val ≤ 62 → InSlack (s.reg ra) → InSlack (s.reg rb) →
    InSlack (s.reg (regPlus ra 1)) → InSlack (s.reg (regPlus rb 1)) →
    ∃ t, exec (.fmul2 rd ra rb) s = .next t ∧ CompletedWriting [rd, regPlus rd 1] false s t
      ∧ t.reg rd = mul (s.reg ra) (s.reg rb)
      ∧ t.reg (regPlus rd 1) = mul (if regPlus ra 1 = rd then t.reg rd else s.reg (regPlus ra 1))
          (if regPlus rb 1 = rd then t.reg rd else s.reg (regPlus rb 1))
      ∧ ∃ u v, exec (.fmul rd ra rb) s = .next u
        ∧ exec (.fmul (regPlus rd 1) (regPlus ra 1) (regPlus rb 1)) u = .next v ∧ v.f = t.f

/-- FSQR2: lane 0, then lane 1 on the registers as lane 0 left them, indistinguishable from two FSQR commands. -/
def Obligations.Fsqr2Result : Prop :=
  ∀ (s : State) (rd ra : Reg), rd.val ≤ 62 → ra.val ≤ 62 → InSlack (s.reg ra) → InSlack (s.reg (regPlus ra 1)) →
    ∃ t, exec (.fsqr2 rd ra) s = .next t ∧ CompletedWriting [rd, regPlus rd 1] false s t
      ∧ t.reg rd = square (s.reg ra)
      ∧ t.reg (regPlus rd 1) = square (if regPlus ra 1 = rd then t.reg rd else s.reg (regPlus ra 1))
      ∧ ∃ u v, exec (.fsqr rd ra) s = .next u ∧ exec (.fsqr (regPlus rd 1) (regPlus ra 1)) u = .next v ∧ v.f = t.f

/-- FROMBIG writes the Montgomery form of the integer latched at acceptance, any 256-bit integer. -/
def Obligations.FrombigResult : Prop :=
  ∀ (s : State) (rd : Reg), ∃ t, exec (.frombig rd) s = .next t ∧ CompletedWriting [rd] false s t
    ∧ t.reg rd = fromBig s.dinl.toNat ∧ InSlack (t.reg rd) ∧ toBig (t.reg rd) = s.dinl.toNat % p

/-- TOBIG writes the canonical integer of a register to the eight words of DOUT and to no register. -/
def Obligations.TobigResult : Prop :=
  ∀ (s : State) (ra : Reg), InSlack (s.reg ra) →
    ∃ t, exec (.tobig ra) s = .next t ∧ CompletedWriting [] true s t ∧ portValue t.dout = toBig (s.reg ra)
      ∧ portValue t.dout < p ∧ ∀ k, (h : k < 8) → t.dout[k].toNat = toBig (s.reg ra) / 2 ^ (32 * k) % 2 ^ 32

/-- PDBL writes Double of the source point as it was before, wherever the destination lies. -/
def Obligations.PdblResult : Prop :=
  ∀ (s : State) (rd ra : Reg), rd.val ≤ 61 → ra.val ≤ 61 → InSlack (s.reg ra) → InSlack (s.reg (regPlus ra 1)) →
    InSlack (s.reg (regPlus ra 2)) →
    ∃ t, exec (.pdbl rd ra) s = .next t ∧ CompletedWriting [rd, regPlus rd 1, regPlus rd 2] false s t
      ∧ t.point rd = double ⟨s.reg ra, s.reg (regPlus ra 1), s.reg (regPlus ra 2)⟩
      ∧ InSlack (t.reg rd) ∧ InSlack (t.reg (regPlus rd 1)) ∧ InSlack (t.reg (regPlus rd 2))

/-- PADD writes FullAdd of the two source points as they were before, wherever the destination lies. -/
def Obligations.PaddResult : Prop :=
  ∀ (s : State) (rd ra rb : Reg), rd.val ≤ 61 → ra.val ≤ 61 → rb.val ≤ 61 →
    (∀ k, k < 3 → InSlack (s.reg (regPlus ra k)) ∧ InSlack (s.reg (regPlus rb k))) →
    ∃ t, exec (.padd rd ra rb) s = .next t ∧ CompletedWriting [rd, regPlus rd 1, regPlus rd 2] false s t
      ∧ t.point rd = fullAdd ⟨s.reg ra, s.reg (regPlus ra 1), s.reg (regPlus ra 2)⟩
          ⟨s.reg rb, s.reg (regPlus rb 1), s.reg (regPlus rb 2)⟩
      ∧ InSlack (t.reg rd) ∧ InSlack (t.reg (regPlus rd 1)) ∧ InSlack (t.reg (regPlus rd 2))

/-- PADDM writes MixedAdd of the source point and the affine source as they were before, wherever the destination lies. -/
def Obligations.PaddmResult : Prop :=
  ∀ (s : State) (rd ra rb : Reg), rd.val ≤ 61 → ra.val ≤ 61 → rb.val ≤ 62 → (∀ k, k < 3 → InSlack (s.reg (regPlus ra k))) →
    InSlack (s.reg rb) → InSlack (s.reg (regPlus rb 1)) →
    ∃ t, exec (.paddm rd ra rb) s = .next t ∧ CompletedWriting [rd, regPlus rd 1, regPlus rd 2] false s t
      ∧ t.point rd = mixedAdd ⟨s.reg ra, s.reg (regPlus ra 1), s.reg (regPlus ra 2)⟩ ⟨s.reg rb, s.reg (regPlus rb 1)⟩
      ∧ InSlack (t.reg rd) ∧ InSlack (t.reg (regPlus rd 1)) ∧ InSlack (t.reg (regPlus rd 2))

/-- SELA writes entry (g, idx) of the fixed-base table, limb for limb, for every idx; entry 0 is the zero pair. -/
def Obligations.SelaResult : Prop :=
  ∀ (s : State) (rd : Reg) (g : Fin 2) (idx : Fin 16), rd.val ≤ 62 →
    ∃ t, exec (.sela rd g idx) s = .next t ∧ CompletedWriting [rd, regPlus rd 1] false s t
      ∧ (baseGroup g)[idx.val]? = some ⟨t.reg rd, t.reg (regPlus rd 1)⟩
      ∧ CanonicalPacked (t.reg rd) ∧ CanonicalPacked (t.reg (regPlus rd 1))
      ∧ (idx = 0 → t.reg rd = FE.zero ∧ t.reg (regPlus rd 1) = FE.zero)

/-- SELJ writes entry idx of the register table as it was before, limb for limb, wherever the destination lies. -/
def Obligations.SeljResult : Prop :=
  ∀ (s : State) (rd rb : Reg) (idx : Fin 16), rd.val ≤ 61 → rb.val ≤ 16 → (∀ k, k < 48 → InSlack (s.reg (regPlus rb k))) →
    ∃ t, exec (.selj rd rb idx) s = .next t ∧ CompletedWriting [rd, regPlus rd 1, regPlus rd 2] false s t
      ∧ t.reg rd = s.reg (regPlus rb (3 * idx.val)) ∧ t.reg (regPlus rd 1) = s.reg (regPlus rb (3 * idx.val + 1))
      ∧ t.reg (regPlus rd 2) = s.reg (regPlus rb (3 * idx.val + 2))

/-- CCOPY copies the source when its condition is 1 and leaves the whole register file as it was when it is 0 or when source
and destination are one register. -/
def Obligations.CcopyResult : Prop :=
  ∀ (s : State) (rd ra : Reg) (c : Bool), InSlack (s.reg rd) → InSlack (s.reg ra) →
    ∃ t, exec (.ccopy rd ra c) s = .next t ∧ CompletedWriting [rd] false s t
      ∧ t.reg rd = (if c then s.reg ra else s.reg rd) ∧ (c = false ∨ rd = ra → t.f = s.f)

/-- LDC writes the constant its number names. -/
def Obligations.LdcResult : Prop :=
  ∀ (s : State) (rd : Reg) (k : ConstId), ∃ t, exec (.ldc rd k) s = .next t ∧ CompletedWriting [rd] false s t
    ∧ t.reg rd = (match k with
        | .zero => FE.zero
        | .one => fromBig 1
        | .a => fromBig (p - 3)
        | .bm => fromBig curveB
        | .pv => pack p)
    ∧ CanonicalPacked (t.reg rd)

/-! ## The host procedures -/

/-- IsOnCurve answers whether the two integers, reduced modulo p, are a point of the curve; ToAffine answers the affine
coordinates of `Pt(0)`, and INFINITY_RESULT for a Z of 0. That a procedure's accesses and completions follow each other with
no other event between them is the model's choice (log 19). -/
def Obligations.HostProceduresReturn : Prop :=
  (∀ (s : State) (X Y : Nat), s.status.err = false → s.status.busy = false → X < 2 ^ 256 → Y < 2 ^ 256 →
      ∃ t, isOnCurve X Y s = .next (t, onCurve X Y))
    ∧ ∀ s : State, s.status.err = false → s.status.busy = false → InSlack (s.reg 0) → InSlack (s.reg 1) →
        InSlack (s.reg 2) →
        (toBig (s.reg 2) = 0 → ∃ t, toAffine s = .next (t, Config.infinityResult))
        ∧ (Nat.Coprime p (toBig (s.reg 2)) →
            ∃ (t : State) (x y : Nat), toAffine s = .next (t, ((x : Int), (y : Int))) ∧ x < p ∧ y < p
              ∧ (x : ZMod p) * (toBig (s.reg 2)) ^ 2 = toBig (s.reg 0)
              ∧ (y : ZMod p) * (toBig (s.reg 2)) ^ 3 = toBig (s.reg 1))

end Statements
end

