-- ==== Sys2Proof/Laws/Limbs.lean ====
section
/-! SUPPORT. Limb vectors as integers: what val, pack, the carry row and the two loops compute. -/

namespace Sys2Proof.Machine

@[simp] theorem limb_zero (a : FE) : limb a 0 = a.l0.toNat := rfl
@[simp] theorem limb_one (a : FE) : limb a 1 = a.l1.toNat := rfl
@[simp] theorem limb_two (a : FE) : limb a 2 = a.l2.toNat := rfl
@[simp] theorem limb_three (a : FE) : limb a 3 = a.l3.toNat := rfl
@[simp] theorem limb_four (a : FE) : limb a 4 = a.l4.toNat := rfl
@[simp] theorem limb_five (a : FE) : limb a 5 = a.l5.toNat := rfl
@[simp] theorem limb_six (a : FE) : limb a 6 = a.l6.toNat := rfl
@[simp] theorem limb_seven (a : FE) : limb a 7 = a.l7.toNat := rfl
@[simp] theorem limb_eight (a : FE) : limb a 8 = a.l8.toNat := rfl

/-- Two vectors with the same nine numbers are equal. -/
theorem FE.ext_toNat {a b : FE} (h0 : a.l0.toNat = b.l0.toNat) (h1 : a.l1.toNat = b.l1.toNat)
    (h2 : a.l2.toNat = b.l2.toNat) (h3 : a.l3.toNat = b.l3.toNat) (h4 : a.l4.toNat = b.l4.toNat)
    (h5 : a.l5.toNat = b.l5.toNat) (h6 : a.l6.toNat = b.l6.toNat) (h7 : a.l7.toNat = b.l7.toNat)
    (h8 : a.l8.toNat = b.l8.toNat) : a = b := by
  cases a; cases b
  simp only [FE.mk.injEq]
  exact ⟨BitVec.eq_of_toNat_eq h0, BitVec.eq_of_toNat_eq h1, BitVec.eq_of_toNat_eq h2, BitVec.eq_of_toNat_eq h3,
    BitVec.eq_of_toNat_eq h4, BitVec.eq_of_toNat_eq h5, BitVec.eq_of_toNat_eq h6, BitVec.eq_of_toNat_eq h7,
    BitVec.eq_of_toNat_eq h8⟩

/-- Every limb within its nominal width `MASK[i]` (R12). -/
abbrev Nominal (a : FE) : Prop :=
  a.l0.toNat < 2 ^ 29 ∧ a.l1.toNat < 2 ^ 28 ∧ a.l2.toNat < 2 ^ 29 ∧ a.l3.toNat < 2 ^ 28 ∧ a.l4.toNat < 2 ^ 29
    ∧ a.l5.toNat < 2 ^ 28 ∧ a.l6.toNat < 2 ^ 29 ∧ a.l7.toNat < 2 ^ 28 ∧ a.l8.toNat < 2 ^ 29

theorem Nominal.inSlack {a : FE} (h : Nominal a) : InSlack a := by
  obtain ⟨h0, h1, h2, h3, h4, h5, h6, h7, h8⟩ := h
  refine ⟨?_, ?_, ?_, ?_, ?_, ?_, ?_, ?_, ?_⟩ <;> omega

theorem Nominal.val_lt {a : FE} (h : Nominal a) : val a < 2 ^ 257 := by
  unfold val; omega

/-- A number of at most 32 bits fits its container. -/
theorem mod_container (x : Nat) {w : Nat} (h : w ≤ 32) : x % 2 ^ w % 2 ^ 32 = x % 2 ^ w :=
  Nat.mod_eq_of_lt (lt_of_lt_of_le (Nat.mod_lt _ (Nat.two_pow_pos w)) (Nat.pow_le_pow_right (by decide) h))

/-- The limbs that `pack` writes, as numbers. -/
theorem pack_limbs (v : Nat) :
    (pack v).l0.toNat = v % 2 ^ 29 ∧ (pack v).l1.toNat = v / 2 ^ 29 % 2 ^ 28 ∧ (pack v).l2.toNat = v / 2 ^ 57 % 2 ^ 29
      ∧ (pack v).l3.toNat = v / 2 ^ 86 % 2 ^ 28 ∧ (pack v).l4.toNat = v / 2 ^ 114 % 2 ^ 29
      ∧ (pack v).l5.toNat = v / 2 ^ 143 % 2 ^ 28 ∧ (pack v).l6.toNat = v / 2 ^ 171 % 2 ^ 29
      ∧ (pack v).l7.toNat = v / 2 ^ 200 % 2 ^ 28 ∧ (pack v).l8.toNat = v / 2 ^ 228 % 2 ^ 29 := by
  have h0 : v / 2 ^ 0 = v := Nat.div_one v
  refine ⟨?_, ?_, ?_, ?_, ?_, ?_, ?_, ?_, ?_⟩
  · exact (mod_container (v / 2 ^ 0) (w := 29) (by decide)).trans (by rw [h0])
  · exact mod_container (v / 2 ^ 29) (w := 28) (by decide)
  · exact mod_container (v / 2 ^ 57) (w := 29) (by decide)
  · exact mod_container (v / 2 ^ 86) (w := 28) (by decide)
  · exact mod_container (v / 2 ^ 114) (w := 29) (by decide)
  · exact mod_container (v / 2 ^ 143) (w := 28) (by decide)
  · exact mod_container (v / 2 ^ 171) (w := 29) (by decide)
  · exact mod_container (v / 2 ^ 200) (w := 28) (by decide)
  · exact mod_container (v / 2 ^ 228) (w := 29) (by decide)

theorem pack_nominal (v : Nat) : Nominal (pack v) := by
  obtain ⟨h0, h1, h2, h3, h4, h5, h6, h7, h8⟩ := pack_limbs v
  unfold Nominal
  rw [h0, h1, h2, h3, h4, h5, h6, h7, h8]
  refine ⟨?_, ?_, ?_, ?_, ?_, ?_, ?_, ?_, ?_⟩ <;> exact Nat.mod_lt _ (Nat.two_pow_pos _)

/-- `Pack(v)` has value v (R12). -/
theorem val_pack {v : Nat} (h : v < 2 ^ 257) : val (pack v) = v := by
  obtain ⟨h0, h1, h2, h3, h4, h5, h6, h7, h8⟩ := pack_limbs v
  unfold val
  rw [h0, h1, h2, h3, h4, h5, h6, h7, h8]
  omega

/-- The nine digits of a number written in the limb weights. -/
theorem digits_of_sum {x0 x1 x2 x3 x4 x5 x6 x7 x8 V : Nat} (h0 : x0 < 2 ^ 29) (h1 : x1 < 2 ^ 28) (h2 : x2 < 2 ^ 29)
    (h3 : x3 < 2 ^ 28) (h4 : x4 < 2 ^ 29) (h5 : x5 < 2 ^ 28) (h6 : x6 < 2 ^ 29) (h7 : x7 < 2 ^ 28) (h8 : x8 < 2 ^ 29)
    (hV : V = x0 + x1 * 2 ^ 29 + x2 * 2 ^ 57 + x3 * 2 ^ 86 + x4 * 2 ^ 114 + x5 * 2 ^ 143 + x6 * 2 ^ 171 + x7 * 2 ^ 200
      + x8 * 2 ^ 228) :
    V % 2 ^ 29 = x0 ∧ V / 2 ^ 29 % 2 ^ 28 = x1 ∧ V / 2 ^ 57 % 2 ^ 29 = x2 ∧ V / 2 ^ 86 % 2 ^ 28 = x3
      ∧ V / 2 ^ 114 % 2 ^ 29 = x4 ∧ V / 2 ^ 143 % 2 ^ 28 = x5 ∧ V / 2 ^ 171 % 2 ^ 29 = x6 ∧ V / 2 ^ 200 % 2 ^ 28 = x7
      ∧ V / 2 ^ 228 % 2 ^ 29 = x8 := by
  refine ⟨?_, ?_, ?_, ?_, ?_, ?_, ?_, ?_, ?_⟩ <;> omega

/-- A vector within its nominal widths is the packing of its value: `Pack` is unique (R12). -/
theorem pack_val {a : FE} (h : Nominal a) : pack (val a) = a := by
  obtain ⟨h0, h1, h2, h3, h4, h5, h6, h7, h8⟩ := pack_limbs (val a)
  obtain ⟨g0, g1, g2, g3, g4, g5, g6, g7, g8⟩ := h
  obtain ⟨d0, d1, d2, d3, d4, d5, d6, d7, d8⟩ := digits_of_sum g0 g1 g2 g3 g4 g5 g6 g7 g8 (V := val a) rfl
  exact FE.ext_toNat (h0.trans d0) (h1.trans d1) (h2.trans d2) (h3.trans d3) (h4.trans d4) (h5.trans d5) (h6.trans d6)
    (h7.trans d7) (h8.trans d8)

/-- The value of a vector by Horner's rule is its val (R182). -/
theorem unpackValue_eq_val (a : FE) : unpackValue a = val a := by
  simp only [unpackValue, List.foldl, limbWidth, val, limb_zero, limb_one, limb_two, limb_three, limb_four, limb_five,
    limb_six, limb_seven, limb_eight]
  norm_num
  ring

theorem toBig_eq (a : FE) : toBig a = val a * rInv % p := by rw [toBig, unpackValue_eq_val]

/-- Row c of the ReduceCarry table, limb by limb: the closed form of R54. -/
theorem carryRow_limbs {c : Nat} (h : c ≤ 7) :
    (carryRow c).l0.toNat = 2 * c ∧ (carryRow c).l2.toNat = (if c = 0 then 0 else 2 ^ 29 - c * 2 ^ 8)
      ∧ (carryRow c).l3.toNat = c * 2 ^ 11 - 1 ∧ (carryRow c).l7.toNat = c * 2 ^ 25 := by
  interval_cases c <;> decide

/-- What ReduceCarry does to a vector within its nominal widths (R131). -/
theorem reduceCarry_spec {a : FE} {c : Nat} (ha : Nominal a) (hc : c ≤ 7) :
    val (reduceCarry a c) + 2 * c * p = val a + c * 2 ^ 257 ∧ InSlack (reduceCarry a c) := by
  obtain ⟨h0, h2, h3, h7⟩ := carryRow_limbs hc
  obtain ⟨g0, g1, g2, g3, g4, g5, g6, g7, g8⟩ := ha
  simp only [reduceCarry, val, InSlack, BitVec.toNat_ofNat, h0, h2, h3, h7, p]
  split_ifs with hz
  · subst hz; constructor <;> omega
  · constructor
    · omega
    · refine ⟨?_, ?_, ?_, ?_, ?_, ?_, ?_, ?_, ?_⟩ <;> omega

end Sys2Proof.Machine
end

