-- ==== Sys2Proof/Laws/AddSub.lean ====
section
/-! SUPPORT. What the carry pass of Add and Sub computes, once for both (R132, R134). -/

namespace Sys2Proof.Machine

/-- The value of nine sums in the limb weights. -/
def sumValue (t : Nat → Nat) : Nat :=
  t 0 + t 1 * 2 ^ 29 + t 2 * 2 ^ 57 + t 3 * 2 ^ 86 + t 4 * 2 ^ 114 + t 5 * 2 ^ 143 + t 6 * 2 ^ 171 + t 7 * 2 ^ 200
    + t 8 * 2 ^ 228

/-- The vector handed to ReduceCarry by the carry pass. -/
def passOut (t : Nat → Nat) : FE := ofLimbs fun i => (t i + carryInto t i) % 2 ^ limbWidth i

theorem carryPass_eq (t : Nat → Nat) : carryPass t = reduceCarry (passOut t) (carryInto t 9) := rfl

theorem passOut_limbs (t : Nat → Nat) :
    (passOut t).l0.toNat = (t 0 + carryInto t 0) % 2 ^ 29 ∧ (passOut t).l1.toNat = (t 1 + carryInto t 1) % 2 ^ 28
      ∧ (passOut t).l2.toNat = (t 2 + carryInto t 2) % 2 ^ 29 ∧ (passOut t).l3.toNat = (t 3 + carryInto t 3) % 2 ^ 28
      ∧ (passOut t).l4.toNat = (t 4 + carryInto t 4) % 2 ^ 29 ∧ (passOut t).l5.toNat = (t 5 + carryInto t 5) % 2 ^ 28
      ∧ (passOut t).l6.toNat = (t 6 + carryInto t 6) % 2 ^ 29 ∧ (passOut t).l7.toNat = (t 7 + carryInto t 7) % 2 ^ 28
      ∧ (passOut t).l8.toNat = (t 8 + carryInto t 8) % 2 ^ 29 := by
  refine ⟨?_, ?_, ?_, ?_, ?_, ?_, ?_, ?_, ?_⟩
  · exact mod_container _ (w := 29) (by decide)
  · exact mod_container _ (w := 28) (by decide)
  · exact mod_container _ (w := 29) (by decide)
  · exact mod_container _ (w := 28) (by decide)
  · exact mod_container _ (w := 29) (by decide)
  · exact mod_container _ (w := 28) (by decide)
  · exact mod_container _ (w := 29) (by decide)
  · exact mod_container _ (w := 28) (by decide)
  · exact mod_container _ (w := 29) (by decide)

theorem passOut_nominal (t : Nat → Nat) : Nominal (passOut t) := by
  obtain ⟨h0, h1, h2, h3, h4, h5, h6, h7, h8⟩ := passOut_limbs t
  unfold Nominal
  rw [h0, h1, h2, h3, h4, h5, h6, h7, h8]
  refine ⟨?_, ?_, ?_, ?_, ?_, ?_, ?_, ?_, ?_⟩ <;> exact Nat.mod_lt _ (Nat.two_pow_pos _)

/-- One digit of the carry pass. -/
theorem carry_digit (t : Nat → Nat) (i : Nat) :
    (t i + carryInto t i) % 2 ^ limbWidth i + 2 ^ limbWidth i * carryInto t (i + 1) = t i + carryInto t i :=
  Nat.mod_add_div _ _

/-- The carry pass splits the sum into the out vector and the carry out of limb 8. -/
theorem passOut_val (t : Nat → Nat) : val (passOut t) + carryInto t 9 * 2 ^ 257 = sumValue t := by
  obtain ⟨h0, h1, h2, h3, h4, h5, h6, h7, h8⟩ := passOut_limbs t
  have d0 : _ + _ * carryInto t 1 = _ := carry_digit t 0
  have d1 : _ + _ * carryInto t 2 = _ := carry_digit t 1
  have d2 : _ + _ * carryInto t 3 = _ := carry_digit t 2
  have d3 : _ + _ * carryInto t 4 = _ := carry_digit t 3
  have d4 : _ + _ * carryInto t 5 = _ := carry_digit t 4
  have d5 : _ + _ * carryInto t 6 = _ := carry_digit t 5
  have d6 : _ + _ * carryInto t 7 = _ := carry_digit t 6
  have d7 : _ + _ * carryInto t 8 = _ := carry_digit t 7
  have d8 : _ + _ * carryInto t 9 = _ := carry_digit t 8
  have w0 : limbWidth 0 = 29 := rfl
  have w1 : limbWidth 1 = 28 := rfl
  have w2 : limbWidth 2 = 29 := rfl
  have w3 : limbWidth 3 = 28 := rfl
  have w4 : limbWidth 4 = 29 := rfl
  have w5 : limbWidth 5 = 28 := rfl
  have w6 : limbWidth 6 = 29 := rfl
  have w7 : limbWidth 7 = 28 := rfl
  have w8 : limbWidth 8 = 29 := rfl
  have c0 : carryInto t 0 = 0 := rfl
  rw [w0, ← h0, c0] at d0
  rw [w1, ← h1] at d1
  rw [w2, ← h2] at d2
  rw [w3, ← h3] at d3
  rw [w4, ← h4] at d4
  rw [w5, ← h5] at d5
  rw [w6, ← h6] at d6
  rw [w7, ← h7] at d7
  rw [w8, ← h8] at d8
  clear h0 h1 h2 h3 h4 h5 h6 h7 h8
  unfold val sumValue
  omega

/-- The final carry is the value of the sum shifted right by 257. -/
theorem carryInto_nine (t : Nat → Nat) : carryInto t 9 = sumValue t / 2 ^ 257 := by
  have h := passOut_val t
  have hlt := (passOut_nominal t).val_lt
  omega

/-- What a carry pass does when its final carry has a row of the ReduceCarry table (R131, R132, R134). -/
theorem carryPass_spec {t : Nat → Nat} (h : sumValue t < 2 ^ 260) :
    val (carryPass t) + 2 * (sumValue t / 2 ^ 257) * p = sumValue t ∧ InSlack (carryPass t) := by
  have hc := carryInto_nine t
  have hc7 : carryInto t 9 ≤ 7 := by omega
  obtain ⟨hv, hs⟩ := reduceCarry_spec (passOut_nominal t) hc7
  rw [← carryPass_eq] at hv hs
  refine ⟨?_, hs⟩
  have := passOut_val t
  rw [← hc]
  omega

/-- The value of an in-slack vector (R24). -/
theorem InSlack.val_lt {a : FE} (h : InSlack a) : val a < 2 ^ 258 + 2 ^ 230 := by
  unfold val; omega

theorem sumValue_add (a b : FE) : sumValue (fun i => limb a i + limb b i) = val a + val b := by
  simp only [sumValue, val, limb_zero, limb_one, limb_two, limb_three, limb_four, limb_five, limb_six, limb_seven,
    limb_eight]
  ring

/-- What Add computes (R132). -/
theorem add_spec {a b : FE} (ha : InSlack a) (hb : InSlack b) :
    val (add a b) + 2 * ((val a + val b) / 2 ^ 257) * p = val a + val b ∧ InSlack (add a b) := by
  have h := carryPass_spec (t := fun i => limb a i + limb b i)
  rw [sumValue_add] at h
  have := ha.val_lt
  have := hb.val_lt
  exact h (by omega)

theorem val_zero31 : val feZero31 = 8 * p := by decide

theorem sumValue_sub (a : FE) {b : FE} (hb : InSlack b) :
    sumValue (fun i => limb a i + limb feZero31 i - limb b i) + val b = val a + 8 * p := by
  obtain ⟨h0, h1, h2, h3, h4, h5, h6, h7, h8⟩ := hb
  have z : feZero31.l0.toNat = 0x7FFFFFF8 ∧ feZero31.l1.toNat = 0x3FFFFFFC ∧ feZero31.l2.toNat = 0x800003FC
    ∧ feZero31.l3.toNat = 0x3FFFDFFC ∧ feZero31.l4.toNat = 0x7FFFFFFC ∧ feZero31.l5.toNat = 0x3FFFFFFC
    ∧ feZero31.l6.toNat = 0x7FFFFFFC ∧ feZero31.l7.toNat = 0x37FFFFFC ∧ feZero31.l8.toNat = 0x7FFFFFFC := by decide
  obtain ⟨z0, z1, z2, z3, z4, z5, z6, z7, z8⟩ := z
  rw [← val_zero31]
  simp only [sumValue, val, limb_zero, limb_one, limb_two, limb_three, limb_four, limb_five, limb_six, limb_seven,
    limb_eight]
  omega

/-- What Sub computes (R134). -/
theorem sub_spec {a b : FE} (ha : InSlack a) (hb : InSlack b) :
    val (sub a b) + val b + 2 * ((val a + 8 * p - val b) / 2 ^ 257) * p = val a + 8 * p ∧ InSlack (sub a b) := by
  have h := carryPass_spec (t := fun i => limb a i + limb feZero31 i - limb b i)
  have hs := sumValue_sub a hb
  have ha' := ha.val_lt
  have hb' := hb.val_lt
  have hsv : sumValue (fun i => limb a i + limb feZero31 i - limb b i) = val a + 8 * p - val b := by omega
  rw [hsv] at h
  have h8 : 8 * p < 2 ^ 259 := by decide
  have h8' : 2 ^ 258 + 2 ^ 230 < 8 * p := by decide
  obtain ⟨hv, hi⟩ := h (by omega)
  exact ⟨by unfold sub; omega, hi⟩

end Sys2Proof.Machine
end

