-- ==== Sys2Proof/Laws/Encoding.lean ====
section
/-! SUPPORT. The five fields of a word written from its fields (R101). -/

namespace Sys2Proof

/-- A word of fields within their widths does not wrap. -/
theorem wordOf_toNat {op rd ra rb imm : Nat} (hop : op < 64) (hrd : rd < 64) (hra : ra < 64) (hrb : rb < 64)
    (himm : imm < 256) :
    (wordOf op rd ra rb imm).toNat = op * 2 ^ 26 + rd * 2 ^ 20 + ra * 2 ^ 14 + rb * 2 ^ 8 + imm := by
  rw [wordOf, BitVec.toNat_ofNat]
  exact Nat.mod_eq_of_lt (by omega)

/-- Each field of a word is the number it was written from. -/
theorem fields_wordOf {op rd ra rb imm : Nat} (hop : op < 64) (hrd : rd < 64) (hra : ra < 64) (hrb : rb < 64)
    (himm : imm < 256) :
    fieldOp (wordOf op rd ra rb imm) = op ∧ fieldRd (wordOf op rd ra rb imm) = rd
      ∧ fieldRa (wordOf op rd ra rb imm) = ra ∧ fieldRb (wordOf op rd ra rb imm) = rb
      ∧ fieldImm (wordOf op rd ra rb imm) = imm := by
  simp only [fieldOp, fieldRd, fieldRa, fieldRb, fieldImm, bits, wordOf_toNat hop hrd hra hrb himm]
  omega

/-- A part of the immediate, from the immediate (R103). -/
theorem bits_of_imm (w : Word) {hi lo : Nat} (h : hi < 8) (hl : lo ≤ hi) :
    bits w hi lo = fieldImm w / 2 ^ lo % 2 ^ (hi + 1 - lo) := by
  have h8 : 2 ^ (7 + 1 - 0) = 2 ^ lo * 2 ^ (8 - lo) := by rw [← pow_add]; congr 1; omega
  unfold fieldImm bits
  rw [pow_zero, Nat.div_one, h8, Nat.mod_mul_right_div_self]
  exact (Nat.mod_mod_of_dvd _ (Nat.pow_dvd_pow 2 (by omega))).symm

/-- The five fields make the word up (R101). -/
theorem toNat_eq_fields (w : Word) :
    w.toNat = fieldOp w * 2 ^ 26 + fieldRd w * 2 ^ 20 + fieldRa w * 2 ^ 14 + fieldRb w * 2 ^ 8 + fieldImm w := by
  have := w.isLt
  simp only [fieldOp, fieldRd, fieldRa, fieldRb, fieldImm, bits]
  omega

/-- Every field is within its width (R101). -/
theorem fields_lt (w : Word) :
    fieldOp w < 64 ∧ fieldRd w < 64 ∧ fieldRa w < 64 ∧ fieldRb w < 64 ∧ fieldImm w < 256 := by
  simp only [fieldOp, fieldRd, fieldRa, fieldRb, fieldImm, bits]
  omega

/-- A register index survives being read back from its number (R104). -/
theorem regOf_val (r : Reg) : regOf r.val = r := by
  unfold regOf
  exact Fin.ext (Nat.mod_eq_of_lt r.isLt)

theorem regOf_toNat {n : Nat} (h : n < 64) : (regOf n).val = n := Nat.mod_eq_of_lt h

/-- The constant numbers 0 to 4 and the names agree (R222). -/
theorem ConstId.ofNum_num (k : ConstId) : ConstId.ofNum k.num = some k := by cases k <;> rfl

theorem ConstId.num_of_ofNum {n : Nat} {k : ConstId} (h : ConstId.ofNum n = some k) : k.num = n := by
  unfold ConstId.ofNum at h
  split at h <;> cases h <;> rfl

/-- What `commandIf` can answer. -/
theorem commandIf_eq_command {c : Bool} {i j : Instr} (h : commandIf c i = .command j) :
    c = true ∧ i.wellFormed = true ∧ i = j := by
  unfold commandIf at h
  split at h
  · rename_i hc
    rw [Bool.and_eq_true] at hc
    cases h
    exact ⟨hc.1, hc.2, rfl⟩
  · cases h

theorem commandIf_ne_illegalOpcode (c : Bool) (i : Instr) : commandIf c i ≠ .illegalOpcode := by
  unfold commandIf
  split <;> simp

theorem ldcIf_eq_command {c : Bool} {rd : Reg} {k : Option ConstId} {j : Instr} (h : ldcIf c rd k = .command j) :
    c = true ∧ ∃ k', k = some k' ∧ j = .ldc rd k' := by
  cases k with
  | none => cases h
  | some k' =>
    obtain ⟨hc, -, hj⟩ := commandIf_eq_command h
    exact ⟨hc, k', rfl, hj.symm⟩

theorem ldcIf_ne_illegalOpcode (c : Bool) (rd : Reg) (k : Option ConstId) : ldcIf c rd k ≠ .illegalOpcode := by
  cases k with
  | none => simp [ldcIf]
  | some k => exact commandIf_ne_illegalOpcode _ _

end Sys2Proof
end

