-- ==== Sys2Proof/Laws/Mul.lean ====
section
/-! SUPPORT. What the multiplier and its reduction compute: the value of the wide product (R151), the exact division of
R153, the bounds of R158. -/

namespace Sys2Proof.Machine

/-- The seventeen limbs of a wide product, written out (R151). -/
theorem wideMul_eq (a b : FE) :
    wideMul a b = [wideLimb a b 0, wideLimb a b 1, wideLimb a b 2, wideLimb a b 3, wideLimb a b 4, wideLimb a b 5,
      wideLimb a b 6, wideLimb a b 7, wideLimb a b 8, wideLimb a b 9, wideLimb a b 10, wideLimb a b 11, wideLimb a b 12,
      wideLimb a b 13, wideLimb a b 14, wideLimb a b 15, wideLimb a b 16] := rfl

/-- One limb of a wide product as a sum of nine terms. -/
theorem wideLimb_eq (a b : FE) (k : Nat) :
    wideLimb a b k =
      (if 0 ≤ k ∧ k - 0 < 9 then crossFactor 0 (k - 0) * limb a 0 * limb b (k - 0) else 0)
        + ((if 1 ≤ k ∧ k - 1 < 9 then crossFactor 1 (k - 1) * limb a 1 * limb b (k - 1) else 0)
        + ((if 2 ≤ k ∧ k - 2 < 9 then crossFactor 2 (k - 2) * limb a 2 * limb b (k - 2) else 0)
        + ((if 3 ≤ k ∧ k - 3 < 9 then crossFactor 3 (k - 3) * limb a 3 * limb b (k - 3) else 0)
        + ((if 4 ≤ k ∧ k - 4 < 9 then crossFactor 4 (k - 4) * limb a 4 * limb b (k - 4) else 0)
        + ((if 5 ≤ k ∧ k - 5 < 9 then crossFactor 5 (k - 5) * limb a 5 * limb b (k - 5) else 0)
        + ((if 6 ≤ k ∧ k - 6 < 9 then crossFactor 6 (k - 6) * limb a 6 * limb b (k - 6) else 0)
        + ((if 7 ≤ k ∧ k - 7 < 9 then crossFactor 7 (k - 7) * limb a 7 * limb b (k - 7) else 0)
        + ((if 8 ≤ k ∧ k - 8 < 9 then crossFactor 8 (k - 8) * limb a 8 * limb b (k - 8) else 0) + 0)))))))) := rfl

/-- The schoolbook product in a base whose odd weights multiply to twice an even one: the reason for `d(i,j)` (R151).
  -/
theorem crossed_product {u w : Nat} (h : w * w = 2 * u) (a0 a1 a2 a3 a4 a5 a6 a7 a8 b0 b1 b2 b3 b4 b5 b6 b7 b8 : Nat)
  :
    (a0 * b0)
      + (a0 * b1 + a1 * b0) * w
      + (a0 * b2 + 2 * a1 * b1 + a2 * b0) * u
      + (a0 * b3 + a1 * b2 + a2 * b1 + a3 * b0) * u * w
      + (a0 * b4 + 2 * a1 * b3 + a2 * b2 + 2 * a3 * b1 + a4 * b0) * u ^ 2
      + (a0 * b5 + a1 * b4 + a2 * b3 + a3 * b2 + a4 * b1 + a5 * b0) * u ^ 2 * w
      + (a0 * b6 + 2 * a1 * b5 + a2 * b4 + 2 * a3 * b3 + a4 * b2 + 2 * a5 * b1 + a6 * b0) * u ^ 3
      + (a0 * b7 + a1 * b6 + a2 * b5 + a3 * b4 + a4 * b3 + a5 * b2 + a6 * b1 + a7 * b0) * u ^ 3 * w
      + (a0 * b8 + 2 * a1 * b7 + a2 * b6 + 2 * a3 * b5 + a4 * b4 + 2 * a5 * b3 + a6 * b2 + 2 * a7 * b1 + a8 * b0) * u
        ^ 4
      + (a1 * b8 + a2 * b7 + a3 * b6 + a4 * b5 + a5 * b4 + a6 * b3 + a7 * b2 + a8 * b1) * u ^ 4 * w
      + (a2 * b8 + 2 * a3 * b7 + a4 * b6 + 2 * a5 * b5 + a6 * b4 + 2 * a7 * b3 + a8 * b2) * u ^ 5
      + (a3 * b8 + a4 * b7 + a5 * b6 + a6 * b5 + a7 * b4 + a8 * b3) * u ^ 5 * w
      + (a4 * b8 + 2 * a5 * b7 + a6 * b6 + 2 * a7 * b5 + a8 * b4) * u ^ 6
      + (a5 * b8 + a6 * b7 + a7 * b6 + a8 * b5) * u ^ 6 * w
      + (a6 * b8 + 2 * a7 * b7 + a8 * b6) * u ^ 7
      + (a7 * b8 + a8 * b7) * u ^ 7 * w
      + (a8 * b8) * u ^ 8
      = (a0 + a1 * w + a2 * u + a3 * u * w + a4 * u ^ 2 + a5 * u ^ 2 * w + a6 * u ^ 3 + a7 * u ^ 3 * w + a8 * u ^ 4)
        * (b0 + b1 * w + b2 * u + b3 * u * w + b4 * u ^ 2 + b5 * u ^ 2 * w + b6 * u ^ 3 + b7 * u ^ 3 * w + b8 * u ^
          4) := by
  have ha : a0 + a1 * w + a2 * u + a3 * u * w + a4 * u ^ 2 + a5 * u ^ 2 * w + a6 * u ^ 3 + a7 * u ^ 3 * w + a8 * u ^ 4
      = (a0 + a2 * u + a4 * u ^ 2 + a6 * u ^ 3 + a8 * u ^ 4) + w * (a1 + a3 * u + a5 * u ^ 2 + a7 * u ^ 3) := by ring
  have hb : b0 + b1 * w + b2 * u + b3 * u * w + b4 * u ^ 2 + b5 * u ^ 2 * w + b6 * u ^ 3 + b7 * u ^ 3 * w + b8 * u ^ 4
      = (b0 + b2 * u + b4 * u ^ 2 + b6 * u ^ 3 + b8 * u ^ 4) + w * (b1 + b3 * u + b5 * u ^ 2 + b7 * u ^ 3) := by ring
  rw [ha, hb]
  have hx : ((a0 + a2 * u + a4 * u ^ 2 + a6 * u ^ 3 + a8 * u ^ 4) + w * (a1 + a3 * u + a5 * u ^ 2 + a7 * u ^ 3))
      * ((b0 + b2 * u + b4 * u ^ 2 + b6 * u ^ 3 + b8 * u ^ 4) + w * (b1 + b3 * u + b5 * u ^ 2 + b7 * u ^ 3))
      = (a0 + a2 * u + a4 * u ^ 2 + a6 * u ^ 3 + a8 * u ^ 4) * (b0 + b2 * u + b4 * u ^ 2 + b6 * u ^ 3 + b8 * u ^ 4)
        + w * ((a0 + a2 * u + a4 * u ^ 2 + a6 * u ^ 3 + a8 * u ^ 4) * (b1 + b3 * u + b5 * u ^ 2 + b7 * u ^ 3) + (a1 +
          a3 * u + a5 * u ^ 2 + a7 * u ^ 3) * (b0 + b2 * u + b4 * u ^ 2 + b6 * u ^ 3 + b8 * u ^ 4))
        + w * w * ((a1 + a3 * u + a5 * u ^ 2 + a7 * u ^ 3) * (b1 + b3 * u + b5 * u ^ 2 + b7 * u ^ 3)) := by ring
  rw [hx, h]
  ring

/-- The weights of the seventeen limbs as powers of two weights (R150). -/
theorem weight_eq (k : Nat) : (2 : Nat) ^ limbOffset k = (2 ^ 57) ^ (k / 2) * (2 ^ 29) ^ (k % 2) := by
  rw [limbOffset, pow_add, pow_mul, pow_mul]

/-- A weighted sum of seventeen limbs, written out. -/
theorem weighted_seventeen (g : Nat → Nat) (c0 c1 c2 c3 c4 c5 c6 c7 c8 c9 c10 c11 c12 c13 c14 c15 c16 : Nat) :
    ([c0, c1, c2, c3, c4, c5, c6, c7, c8, c9, c10, c11, c12, c13, c14, c15, c16].zipIdx.map fun q => q.1 * g q.2).sum
      = c0 * g 0 + (c1 * g 1 + (c2 * g 2 + (c3 * g 3 + (c4 * g 4 + (c5 * g 5 + (c6 * g 6 + (c7 * g 7 + (c8 * g 8 +
        (c9 * g 9 + (c10 * g 10 + (c11 * g 11 + (c12 * g 12 + (c13 * g 13 + (c14 * g 14 + (c15 * g 15 + (c16 * g 16 +
        0)))))))))))))))) := rfl

/-- The value of seventeen limbs, written out (R150). -/
theorem wval_seventeen (c0 c1 c2 c3 c4 c5 c6 c7 c8 c9 c10 c11 c12 c13 c14 c15 c16 : Nat) :
    wval [c0, c1, c2, c3, c4, c5, c6, c7, c8, c9, c10, c11, c12, c13, c14, c15, c16]
      = c0 * 2 ^ limbOffset 0 + (c1 * 2 ^ limbOffset 1 + (c2 * 2 ^ limbOffset 2 + (c3 * 2 ^ limbOffset 3 + (c4 * 2 ^
        limbOffset 4 + (c5 * 2 ^ limbOffset 5 + (c6 * 2 ^ limbOffset 6 + (c7 * 2 ^ limbOffset 7 + (c8 * 2 ^
        limbOffset 8 + (c9 * 2 ^ limbOffset 9 + (c10 * 2 ^ limbOffset 10 + (c11 * 2 ^ limbOffset 11 + (c12 * 2 ^
        limbOffset 12 + (c13 * 2 ^ limbOffset 13 + (c14 * 2 ^ limbOffset 14 + (c15 * 2 ^ limbOffset 15 + (c16 * 2 ^
        limbOffset 16 + 0)))))))))))))))) :=
  weighted_seventeen (fun k => 2 ^ limbOffset k) c0 c1 c2 c3 c4 c5 c6 c7 c8 c9 c10 c11 c12 c13 c14 c15 c16

/-- `wval(WideMul(a,b)) = val(a)·val(b)` exactly (R151). -/
theorem wval_wideMul (a b : FE) : wval (wideMul a b) = val a * val b := by
  have hw : (2 : Nat) ^ 29 * 2 ^ 29 = 2 * 2 ^ 57 := by decide
  have hv (x : FE) : val x = x.l0.toNat + x.l1.toNat * 2 ^ 29 + x.l2.toNat * 2 ^ 57 + x.l3.toNat * 2 ^ 57 * 2 ^ 29 +
    x.l4.toNat * (2 ^ 57) ^ 2 + x.l5.toNat * (2 ^ 57) ^ 2 * 2 ^ 29 + x.l6.toNat * (2 ^ 57) ^ 3 + x.l7.toNat * (2 ^
    57) ^ 3 * 2 ^ 29 + x.l8.toNat * (2 ^ 57) ^ 4 := by
    unfold val
    norm_num
    ring
  rw [hv a, hv b, wideMul_eq, wval_seventeen]
  simp only [weight_eq]
  generalize (2 : Nat) ^ 57 = u at *
  generalize (2 : Nat) ^ 29 = w at *
  simp only [wideLimb_eq, crossFactor, limb_zero, limb_one, limb_two, limb_three, limb_four, limb_five, limb_six,
    limb_seven, limb_eight]
  rw [← crossed_product hw]
  norm_num
  ring

/-- The product of the values of two in-slack vectors is far inside the range of R153 (R158 (c)). -/
theorem InSlack.val_le {a : FE} (h : InSlack a) : val a ≤ 2 ^ 258 + 2 ^ 230 - 1 := by
  unfold val; omega

theorem negPInv_mul_p : negPInv * p % 2 ^ 257 = 2 ^ 257 - 1 := by decide

/-- The division of R153 is exact: `T + M·p ≡ 0 (mod 2^257)`. -/
theorem montgomery_exact (T : Nat) : (T + montgomeryM T * p) % 2 ^ 257 = 0 := by
  have h : (T + montgomeryM T * p) ≡ 0 [MOD 2 ^ 257] := by
    have h1 : montgomeryM T * p ≡ T * negPInv * p [MOD 2 ^ 257] := (Nat.mod_modEq _ _).mul_right _
    have h2 : T * negPInv * p ≡ T * (2 ^ 257 - 1) [MOD 2 ^ 257] := by
      rw [mul_assoc]
      refine Nat.ModEq.mul_left T ?_
      have : negPInv * p % 2 ^ 257 = (2 ^ 257 - 1) % 2 ^ 257 := by decide
      exact this
    have h3 : T + T * (2 ^ 257 - 1) = T * 2 ^ 257 := by
      have : 2 ^ 257 = 1 + (2 ^ 257 - 1) := by decide
      rw [this, mul_add, mul_one, Nat.add_sub_cancel_left]
    calc T + montgomeryM T * p ≡ T + T * (2 ^ 257 - 1) [MOD 2 ^ 257] := (h1.trans h2).add_left T
      _ = T * 2 ^ 257 := h3
      _ ≡ 0 [MOD 2 ^ 257] := Nat.modEq_zero_iff_dvd.mpr (Dvd.intro_left T rfl)
  exact h

/-- `V·2^257 = T + M·p` (R153). -/
theorem montgomeryV_mul (T : Nat) : montgomeryV T * 2 ^ 257 = T + montgomeryM T * p :=
  Nat.div_mul_cancel (Nat.dvd_of_mod_eq_zero (montgomery_exact T))

theorem montgomeryM_lt (T : Nat) : montgomeryM T < 2 ^ 257 := Nat.mod_lt _ (Nat.two_pow_pos _)

theorem quotient_lt {T X V A B C D : Nat} (hv : V * D = T + X) (hT : T < A - B) (hX : X < B) (hA : A = C * D) :
    V < C := by
  refine Nat.lt_of_mul_lt_mul_right (a := D) ?_
  rw [hv, ← hA]
  omega

/-- The bound on V that makes its carry a row of the ReduceCarry table (R153). -/
theorem montgomeryV_lt {T : Nat} (h : T < 2 ^ 517 - 2 ^ 513) : montgomeryV T < 2 ^ 260 := by
  have hp : p < 2 ^ 256 := by decide
  have hmp : montgomeryM T * p < 2 ^ 513 := by
    have := Nat.mul_lt_mul'' (montgomeryM_lt T) hp
    rwa [← pow_add] at this
  exact quotient_lt (montgomeryV_mul T) h hmp (pow_add 2 260 257)

/-- What the last line of R153 computes from a V below 2^260. -/
theorem unpackV_spec {V : Nat} (h : V < 2 ^ 260) :
    val (unpackV V) + 2 * (V / 2 ^ 257) * p = V ∧ InSlack (unpackV V) := by
  have hc : V / 2 ^ 257 ≤ 7 := by omega
  obtain ⟨hv, hs⟩ := reduceCarry_spec (pack_nominal (V % 2 ^ 257)) hc
  rw [val_pack (Nat.mod_lt _ (Nat.two_pow_pos _))] at hv
  refine ⟨?_, hs⟩
  unfold unpackV
  omega

/-- With no carry the result is canonical-packed (R160). -/
theorem unpackV_of_lt {V : Nat} (h : V < 2 ^ 257) : unpackV V = pack V := by
  have h0 : V / 2 ^ 257 = 0 := Nat.div_eq_of_lt h
  have hr (a : FE) : reduceCarry a 0 = a := by
    cases a
    simp [reduceCarry, carryRow, FE.zero]
  rw [unpackV, h0, Nat.mod_eq_of_lt h, hr]

/-- What ReduceDegree computes within the bound of R153: the residue, times 2^(-257), in slack. -/
theorem reduceDegree_spec {c : List Nat} (h : wval c < 2 ^ 517 - 2 ^ 513) :
    (∃ k m, val (reduceDegree c) * 2 ^ 257 + k * p = wval c + m * p) ∧ InSlack (reduceDegree c) := by
  obtain ⟨hv, hs⟩ := unpackV_spec (montgomeryV_lt h)
  refine ⟨⟨2 * (montgomeryV (wval c) / 2 ^ 257) * 2 ^ 257, montgomeryM (wval c), ?_⟩, hs⟩
  rw [← montgomeryV_mul]
  conv_rhs => rw [← hv]
  unfold reduceDegree
  ring

/-- The wide product of two in-slack vectors is inside the bound of R153 (R158 (c)). -/
theorem wval_wideMul_lt {a b : FE} (ha : InSlack a) (hb : InSlack b) : wval (wideMul a b) < 2 ^ 517 - 2 ^ 513 := by
  have h := Nat.mul_le_mul ha.val_le hb.val_le
  have hk : (2 ^ 258 + 2 ^ 230 - 1) * (2 ^ 258 + 2 ^ 230 - 1) < 2 ^ 517 - 2 ^ 513 := by decide +kernel
  rw [wval_wideMul]
  exact h.trans_lt hk

/-- What Mul computes (R160). -/
theorem mul_spec {a b : FE} (ha : InSlack a) (hb : InSlack b) :
    (∃ k m, val (mul a b) * 2 ^ 257 + k * p = val a * val b + m * p) ∧ InSlack (mul a b) := by
  have h := reduceDegree_spec (wval_wideMul_lt ha hb)
  rwa [wval_wideMul] at h

/-- What Square computes (R161). -/
theorem square_spec {a : FE} (ha : InSlack a) :
    (∃ k m, val (square a) * 2 ^ 257 + k * p = val a * val a + m * p) ∧ InSlack (square a) := mul_spec ha ha

end Sys2Proof.Machine
end

