-- ==== Sys2Proof/Laws/Field.lean ====
section
/-! SUPPORT. The field operations as operations of the ring of integers modulo p: the value a limb vector stands for (R15,
R22) and the slack of every result (R25). -/

namespace Sys2Proof.Machine

/-- The residue a limb vector stands for: `val(a)·R⁻¹` (R15, R22). -/
def residue (a : FE) : ZMod p := (val a : ZMod p) * (rInv : ZMod p)

/-- Multiples of p vanish, so an equation up to multiples of p is an equation of residues. -/
theorem cast_eq_of_multiples {x y k m : Nat} (h : x + k * p = y + m * p) : (x : ZMod p) = (y : ZMod p) := by
  have := congrArg (Nat.cast : Nat → ZMod p) h
  simpa using this

/-- R⁻¹ times R is 1 modulo p (R50). -/
theorem rInv_mul_radix : (rInv : ZMod p) * ((2 ^ 257 : Nat) : ZMod p) = 1 := by
  have h : rInv * 2 ^ 257 = 1 + rInv * 2 ^ 257 / p * p := by decide +kernel
  have := cast_eq_of_multiples (x := rInv * 2 ^ 257) (y := 1) (k := 0) (m := rInv * 2 ^ 257 / p) (by omega)
  rwa [Nat.cast_mul, Nat.cast_one] at this

/-- ToBig gives the residue (R182). -/
theorem toBig_cast (a : FE) : ((toBig a : Nat) : ZMod p) = residue a := by
  rw [toBig_eq, residue, ZMod.natCast_mod, Nat.cast_mul]

theorem toBig_lt (a : FE) : toBig a < p := Nat.mod_lt _ (by decide)

/-- Two vectors of one residue have one canonical integer (R15). -/
theorem toBig_eq_iff (a b : FE) : toBig a = toBig b ↔ residue a = residue b := by
  rw [← toBig_cast, ← toBig_cast, ZMod.natCast_eq_natCast_iff]
  exact ⟨fun h => by rw [h], fun h => Nat.ModEq.eq_of_lt_of_lt h (toBig_lt a) (toBig_lt b)⟩

theorem add_inSlack {a b : FE} (ha : InSlack a) (hb : InSlack b) : InSlack (add a b) := (add_spec ha hb).2
theorem sub_inSlack {a b : FE} (ha : InSlack a) (hb : InSlack b) : InSlack (sub a b) := (sub_spec ha hb).2
theorem mul_inSlack {a b : FE} (ha : InSlack a) (hb : InSlack b) : InSlack (mul a b) := (mul_spec ha hb).2
theorem square_inSlack {a : FE} (ha : InSlack a) : InSlack (square a) := (square_spec ha).2

/-- Add is the sum of residues (R133 (a)). -/
theorem residue_add {a b : FE} (ha : InSlack a) (hb : InSlack b) : residue (add a b) = residue a + residue b := by
  have h := cast_eq_of_multiples (y := val a + val b) (m := 0) (by rw [(add_spec ha hb).1, Nat.zero_mul, Nat.add_zero])
  rw [residue, h, residue, residue, Nat.cast_add, add_mul]

/-- Sub is the difference of residues (R135 (a)). -/
theorem residue_sub {a b : FE} (ha : InSlack a) (hb : InSlack b) : residue (sub a b) = residue a - residue b := by
  have h := cast_eq_of_multiples (x := val (sub a b) + val b) (y := val a) (m := 8) (sub_spec ha hb).1
  rw [Nat.cast_add] at h
  rw [residue, eq_sub_of_add_eq h, residue, residue, sub_mul]

/-- Mul is the product of residues (R160). -/
theorem residue_mul {a b : FE} (ha : InSlack a) (hb : InSlack b) : residue (mul a b) = residue a * residue b := by
  obtain ⟨k, m, h⟩ := (mul_spec ha hb).1
  have h := cast_eq_of_multiples h
  rw [Nat.cast_mul, Nat.cast_mul] at h
  have hr := rInv_mul_radix
  unfold residue
  calc (val (mul a b) : ZMod p) * rInv = val (mul a b) * rInv * (rInv * ((2 ^ 257 : Nat) : ZMod p)) := by rw [hr, mul_one]
    _ = val (mul a b) * ((2 ^ 257 : Nat) : ZMod p) * (rInv * rInv) := by ring
    _ = val a * rInv * (val b * rInv) := by rw [h]; ring

/-- Square is the square of the residue (R161). -/
theorem residue_square {a : FE} (ha : InSlack a) : residue (square a) = residue a * residue a := residue_mul ha ha

end Sys2Proof.Machine
end

