-- ==== Sys2Proof/Laws/Points.lean ====
section
/-! SUPPORT. The point functions keep the slack: every vector they produce is in slack (R25, R190, R201, R205). -/

namespace Sys2Proof.Machine

/-- A point of three in-slack vectors. -/
abbrev Jacobian.InSlack (P : Jacobian) : Prop :=
  Sys2Proof.Machine.InSlack P.x ∧ Sys2Proof.Machine.InSlack P.y ∧ Sys2Proof.Machine.InSlack P.z

/-- An affine point of two in-slack vectors. -/
abbrev Affine.InSlack (A : Affine) : Prop := Sys2Proof.Machine.InSlack A.x ∧ Sys2Proof.Machine.InSlack A.y

theorem zero_inSlack : InSlack FE.zero := by decide
theorem feA_inSlack : InSlack feA := by decide
theorem constant_inSlack (k : ConstId) : InSlack (constant k) := by cases k <;> decide

theorem fromBig_inSlack (x : Nat) : InSlack (fromBig x) := (pack_nominal _).inSlack

theorem double_inSlack {P : Jacobian} (h : P.InSlack) : (double P).InSlack := by
  obtain ⟨hx, hy, hz⟩ := h
  have t1 := mul_inSlack feA_inSlack (square_inSlack (square_inSlack hz))
  have t2 := square_inSlack hx
  have L := add_inSlack (add_inSlack (add_inSlack t2 t2) t2) t1
  have y2 := square_inSlack hy
  have S0 := mul_inSlack hx y2
  have S1 := add_inSlack S0 S0
  have S := add_inSlack S1 S1
  have X3 := sub_inSlack (square_inSlack L) (add_inSlack S S)
  have q0 := square_inSlack y2
  have q1 := add_inSlack q0 q0
  have q2 := add_inSlack q1 q1
  have Z0 := mul_inSlack hy hz
  exact ⟨X3, sub_inSlack (mul_inSlack L (sub_inSlack S X3)) (add_inSlack q2 q2), add_inSlack Z0 Z0⟩

theorem fullAddSteps_inSlack {P Q : Jacobian} (hP : P.InSlack) (hQ : Q.InSlack) : (fullAddSteps P Q).InSlack := by
  obtain ⟨hx1, hy1, hz1⟩ := hP
  obtain ⟨hx2, hy2, hz2⟩ := hQ
  have zz1 := square_inSlack hz1
  have zz2 := square_inSlack hz2
  have u1 := mul_inSlack hx1 zz2
  have s1 := mul_inSlack hy1 (mul_inSlack zz2 hz2)
  have hh := sub_inSlack (mul_inSlack hx2 zz1) u1
  have hr := sub_inSlack (mul_inSlack hy2 (mul_inSlack zz1 hz1)) s1
  have h2 := square_inSlack hh
  have h3 := mul_inSlack h2 hh
  have v := mul_inSlack u1 h2
  have X3 := sub_inSlack (sub_inSlack (sub_inSlack (square_inSlack hr) h3) v) v
  exact ⟨X3, sub_inSlack (mul_inSlack hr (sub_inSlack v X3)) (mul_inSlack s1 h3), mul_inSlack (mul_inSlack hh hz1) hz2⟩

theorem fullAdd_inSlack {P Q : Jacobian} (hP : P.InSlack) (hQ : Q.InSlack) : (fullAdd P Q).InSlack := by
  unfold fullAdd
  split
  · exact hQ
  · split
    · exact hP
    · exact fullAddSteps_inSlack hP hQ

theorem mixedAdd_inSlack {P : Jacobian} {A : Affine} (hP : P.InSlack) (hA : A.InSlack) : (mixedAdd P A).InSlack := by
  obtain ⟨hx1, hy1, hz1⟩ := hP
  obtain ⟨hx2, hy2⟩ := hA
  have zz := square_inSlack hz1
  have dx := sub_inSlack (mul_inSlack hx2 zz) hx1
  have dy := sub_inSlack (mul_inSlack hy2 (mul_inSlack zz hz1)) hy1
  have d2 := square_inSlack dx
  have d3 := mul_inSlack d2 dx
  have v := mul_inSlack hx1 d2
  have X3 := sub_inSlack (sub_inSlack (sub_inSlack (square_inSlack dy) d3) v) v
  exact ⟨X3, sub_inSlack (mul_inSlack dy (sub_inSlack v X3)) (mul_inSlack hy1 d3), mul_inSlack dx hz1⟩

end Sys2Proof.Machine
end

