-- ==== Sys2Proof/Laws/State.lean ====
section
/-! SUPPORT. One lemma per field per update of the state, each true by rfl. -/

namespace Sys2Proof.Machine

variable (s : State)

@[simp] theorem State.setReg_f (r : Reg) (v : FE) : (s.setReg r v).f = s.f.set r.val v r.isLt := rfl
@[simp] theorem State.setReg_din (r : Reg) (v : FE) : (s.setReg r v).din = s.din := rfl
@[simp] theorem State.setReg_dout (r : Reg) (v : FE) : (s.setReg r v).dout = s.dout := rfl
@[simp] theorem State.setReg_ctrl (r : Reg) (v : FE) : (s.setReg r v).ctrl = s.ctrl := rfl
@[simp] theorem State.setReg_status (r : Reg) (v : FE) : (s.setReg r v).status = s.status := rfl
@[simp] theorem State.setReg_cur (r : Reg) (v : FE) : (s.setReg r v).cur = s.cur := rfl
@[simp] theorem State.setReg_dinl (r : Reg) (v : FE) : (s.setReg r v).dinl = s.dinl := rfl
@[simp] theorem State.setReg_rdata (r : Reg) (v : FE) : (s.setReg r v).rdata = s.rdata := rfl
@[simp] theorem State.setReg_completions (r : Reg) (v : FE) : (s.setReg r v).completions = s.completions := rfl
@[simp] theorem State.setReg_schedule (r : Reg) (v : FE) : (s.setReg r v).schedule = s.schedule := rfl

@[simp] theorem State.setDout_f (v : Vector Word 8) : (s.setDout v).f = s.f := rfl
@[simp] theorem State.setDout_din (v : Vector Word 8) : (s.setDout v).din = s.din := rfl
@[simp] theorem State.setDout_dout (v : Vector Word 8) : (s.setDout v).dout = v := rfl
@[simp] theorem State.setDout_ctrl (v : Vector Word 8) : (s.setDout v).ctrl = s.ctrl := rfl
@[simp] theorem State.setDout_status (v : Vector Word 8) : (s.setDout v).status = s.status := rfl
@[simp] theorem State.setDout_cur (v : Vector Word 8) : (s.setDout v).cur = s.cur := rfl
@[simp] theorem State.setDout_dinl (v : Vector Word 8) : (s.setDout v).dinl = s.dinl := rfl
@[simp] theorem State.setDout_rdata (v : Vector Word 8) : (s.setDout v).rdata = s.rdata := rfl
@[simp] theorem State.setDout_completions (v : Vector Word 8) : (s.setDout v).completions = s.completions := rfl
@[simp] theorem State.setDout_schedule (v : Vector Word 8) : (s.setDout v).schedule = s.schedule := rfl

@[simp] theorem State.setDin_f (k : Nat) (v : Word) : (s.setDin k v).f = s.f := rfl
@[simp] theorem State.setDin_din (k : Nat) (v : Word) : (s.setDin k v).din = s.din.setIfInBounds k v := rfl
@[simp] theorem State.setDin_dout (k : Nat) (v : Word) : (s.setDin k v).dout = s.dout := rfl
@[simp] theorem State.setDin_ctrl (k : Nat) (v : Word) : (s.setDin k v).ctrl = s.ctrl := rfl
@[simp] theorem State.setDin_status (k : Nat) (v : Word) : (s.setDin k v).status = s.status := rfl
@[simp] theorem State.setDin_cur (k : Nat) (v : Word) : (s.setDin k v).cur = s.cur := rfl
@[simp] theorem State.setDin_dinl (k : Nat) (v : Word) : (s.setDin k v).dinl = s.dinl := rfl
@[simp] theorem State.setDin_rdata (k : Nat) (v : Word) : (s.setDin k v).rdata = s.rdata := rfl
@[simp] theorem State.setDin_completions (k : Nat) (v : Word) : (s.setDin k v).completions = s.completions := rfl
@[simp] theorem State.setDin_schedule (k : Nat) (v : Word) : (s.setDin k v).schedule = s.schedule := rfl

@[simp] theorem State.setRdata_f (v : Word) : (s.setRdata v).f = s.f := rfl
@[simp] theorem State.setRdata_din (v : Word) : (s.setRdata v).din = s.din := rfl
@[simp] theorem State.setRdata_dout (v : Word) : (s.setRdata v).dout = s.dout := rfl
@[simp] theorem State.setRdata_ctrl (v : Word) : (s.setRdata v).ctrl = s.ctrl := rfl
@[simp] theorem State.setRdata_status (v : Word) : (s.setRdata v).status = s.status := rfl
@[simp] theorem State.setRdata_cur (v : Word) : (s.setRdata v).cur = s.cur := rfl
@[simp] theorem State.setRdata_dinl (v : Word) : (s.setRdata v).dinl = s.dinl := rfl
@[simp] theorem State.setRdata_rdata (v : Word) : (s.setRdata v).rdata = v := rfl
@[simp] theorem State.setRdata_completions (v : Word) : (s.setRdata v).completions = s.completions := rfl
@[simp] theorem State.setRdata_schedule (v : Word) : (s.setRdata v).schedule = s.schedule := rfl

@[simp] theorem State.setCtrl_f (c : Ctrl) : (s.setCtrl c).f = s.f := rfl
@[simp] theorem State.setCtrl_din (c : Ctrl) : (s.setCtrl c).din = s.din := rfl
@[simp] theorem State.setCtrl_dout (c : Ctrl) : (s.setCtrl c).dout = s.dout := rfl
@[simp] theorem State.setCtrl_ctrl (c : Ctrl) : (s.setCtrl c).ctrl = c := rfl
@[simp] theorem State.setCtrl_status (c : Ctrl) : (s.setCtrl c).status = s.status := rfl
@[simp] theorem State.setCtrl_cur (c : Ctrl) : (s.setCtrl c).cur = s.cur := rfl
@[simp] theorem State.setCtrl_dinl (c : Ctrl) : (s.setCtrl c).dinl = s.dinl := rfl
@[simp] theorem State.setCtrl_rdata (c : Ctrl) : (s.setCtrl c).rdata = s.rdata := rfl
@[simp] theorem State.setCtrl_completions (c : Ctrl) : (s.setCtrl c).completions = s.completions := rfl
@[simp] theorem State.setCtrl_schedule (c : Ctrl) : (s.setCtrl c).schedule = s.schedule := rfl

@[simp] theorem State.clearFlags_f (v : Word) : (s.clearFlags v).f = s.f := rfl
@[simp] theorem State.clearFlags_din (v : Word) : (s.clearFlags v).din = s.din := rfl
@[simp] theorem State.clearFlags_dout (v : Word) : (s.clearFlags v).dout = s.dout := rfl
@[simp] theorem State.clearFlags_ctrl (v : Word) : (s.clearFlags v).ctrl = s.ctrl := rfl
@[simp] theorem State.clearFlags_status (v : Word) : (s.clearFlags v).status = s.status.cleared v := rfl
@[simp] theorem State.clearFlags_cur (v : Word) : (s.clearFlags v).cur = s.cur := rfl
@[simp] theorem State.clearFlags_dinl (v : Word) : (s.clearFlags v).dinl = s.dinl := rfl
@[simp] theorem State.clearFlags_rdata (v : Word) : (s.clearFlags v).rdata = s.rdata := rfl
@[simp] theorem State.clearFlags_completions (v : Word) : (s.clearFlags v).completions = s.completions := rfl
@[simp] theorem State.clearFlags_schedule (v : Word) : (s.clearFlags v).schedule = s.schedule := rfl

@[simp] theorem State.setSchedule_f (es : List Event) : (s.setSchedule es).f = s.f := rfl
@[simp] theorem State.setSchedule_din (es : List Event) : (s.setSchedule es).din = s.din := rfl
@[simp] theorem State.setSchedule_dout (es : List Event) : (s.setSchedule es).dout = s.dout := rfl
@[simp] theorem State.setSchedule_ctrl (es : List Event) : (s.setSchedule es).ctrl = s.ctrl := rfl
@[simp] theorem State.setSchedule_status (es : List Event) : (s.setSchedule es).status = s.status := rfl
@[simp] theorem State.setSchedule_cur (es : List Event) : (s.setSchedule es).cur = s.cur := rfl
@[simp] theorem State.setSchedule_dinl (es : List Event) : (s.setSchedule es).dinl = s.dinl := rfl
@[simp] theorem State.setSchedule_rdata (es : List Event) : (s.setSchedule es).rdata = s.rdata := rfl
@[simp] theorem State.setSchedule_completions (es : List Event) : (s.setSchedule es).completions = s.completions := rfl
@[simp] theorem State.setSchedule_schedule (es : List Event) : (s.setSchedule es).schedule = es := rfl

@[simp] theorem State.doReset_f : s.doReset.f = State.reset.f := rfl
@[simp] theorem State.doReset_din : s.doReset.din = State.reset.din := rfl
@[simp] theorem State.doReset_dout : s.doReset.dout = State.reset.dout := rfl
@[simp] theorem State.doReset_ctrl : s.doReset.ctrl = State.reset.ctrl := rfl
@[simp] theorem State.doReset_status : s.doReset.status = State.reset.status := rfl
@[simp] theorem State.doReset_cur : s.doReset.cur = State.reset.cur := rfl
@[simp] theorem State.doReset_dinl : s.doReset.dinl = State.reset.dinl := rfl
@[simp] theorem State.doReset_rdata : s.doReset.rdata = s.rdata := rfl
@[simp] theorem State.doReset_completions : s.doReset.completions = s.completions := rfl
@[simp] theorem State.doReset_schedule : s.doReset.schedule = s.schedule := rfl

@[simp] theorem State.accept_f (w : Word) : (s.accept w).f = s.f := rfl
@[simp] theorem State.accept_din (w : Word) : (s.accept w).din = s.din := rfl
@[simp] theorem State.accept_dout (w : Word) : (s.accept w).dout = s.dout := rfl
@[simp] theorem State.accept_ctrl (w : Word) : (s.accept w).ctrl = s.ctrl := rfl
@[simp] theorem State.accept_status (w : Word) : (s.accept w).status = s.status.accepted := rfl
@[simp] theorem State.accept_cur (w : Word) : (s.accept w).cur = w := rfl
@[simp] theorem State.accept_dinl (w : Word) : (s.accept w).dinl = BitVec.ofNat 256 (portValue s.din) := rfl
@[simp] theorem State.accept_rdata (w : Word) : (s.accept w).rdata = s.rdata := rfl
@[simp] theorem State.accept_completions (w : Word) : (s.accept w).completions = s.completions := rfl
@[simp] theorem State.accept_schedule (w : Word) : (s.accept w).schedule = s.schedule := rfl

@[simp] theorem State.raiseError_f (c : BitVec 4) : (s.raiseError c).f = s.f := rfl
@[simp] theorem State.raiseError_din (c : BitVec 4) : (s.raiseError c).din = s.din := rfl
@[simp] theorem State.raiseError_dout (c : BitVec 4) : (s.raiseError c).dout = s.dout := rfl
@[simp] theorem State.raiseError_ctrl (c : BitVec 4) : (s.raiseError c).ctrl = s.ctrl := rfl
@[simp] theorem State.raiseError_status (c : BitVec 4) : (s.raiseError c).status = s.status.raised c := rfl
@[simp] theorem State.raiseError_cur (c : BitVec 4) : (s.raiseError c).cur = s.cur := rfl
@[simp] theorem State.raiseError_dinl (c : BitVec 4) : (s.raiseError c).dinl = s.dinl := rfl
@[simp] theorem State.raiseError_rdata (c : BitVec 4) : (s.raiseError c).rdata = s.rdata := rfl
@[simp] theorem State.raiseError_completions (c : BitVec 4) : (s.raiseError c).completions = s.completions := rfl
@[simp] theorem State.raiseError_schedule (c : BitVec 4) : (s.raiseError c).schedule = s.schedule := rfl

@[simp] theorem State.finish_f : s.finish.f = s.f := rfl
@[simp] theorem State.finish_din : s.finish.din = s.din := rfl
@[simp] theorem State.finish_dout : s.finish.dout = s.dout := rfl
@[simp] theorem State.finish_ctrl : s.finish.ctrl = s.ctrl := rfl
@[simp] theorem State.finish_status : s.finish.status = s.status.completed := rfl
@[simp] theorem State.finish_cur : s.finish.cur = s.cur := rfl
@[simp] theorem State.finish_dinl : s.finish.dinl = s.dinl := rfl
@[simp] theorem State.finish_rdata : s.finish.rdata = s.rdata := rfl
@[simp] theorem State.finish_completions : s.finish.completions = s.completions + 1 := rfl
@[simp] theorem State.finish_schedule : s.finish.schedule = s.schedule := rfl

@[simp] theorem Status.accepted_busy (q : Status) : q.accepted.busy = true := rfl
@[simp] theorem Status.accepted_done (q : Status) : q.accepted.done = false := rfl
@[simp] theorem Status.accepted_err (q : Status) : q.accepted.err = q.err := rfl
@[simp] theorem Status.accepted_errcode (q : Status) : q.accepted.errcode = q.errcode := rfl

@[simp] theorem Status.completed_busy (q : Status) : q.completed.busy = false := rfl
@[simp] theorem Status.completed_done (q : Status) : q.completed.done = true := rfl
@[simp] theorem Status.completed_err (q : Status) : q.completed.err = q.err := rfl
@[simp] theorem Status.completed_errcode (q : Status) : q.completed.errcode = q.errcode := rfl

@[simp] theorem Status.raised_busy (q : Status) (c : BitVec 4) : (q.raised c).busy = q.busy := rfl
@[simp] theorem Status.raised_done (q : Status) (c : BitVec 4) : (q.raised c).done = q.done := rfl
@[simp] theorem Status.raised_err (q : Status) (c : BitVec 4) : (q.raised c).err = true := rfl
@[simp] theorem Status.raised_errcode (q : Status) (c : BitVec 4) : (q.raised c).errcode = c := rfl

@[simp] theorem Status.cleared_busy (q : Status) (v : Word) : (q.cleared v).busy = q.busy := rfl
@[simp] theorem Status.cleared_done (q : Status) (v : Word) : (q.cleared v).done = (q.done && !v.getLsbD 1) := rfl
@[simp] theorem Status.cleared_err (q : Status) (v : Word) : (q.cleared v).err = (q.err && !v.getLsbD 2) := rfl
@[simp] theorem Status.cleared_errcode (q : Status) (v : Word) : (q.cleared v).errcode = (if v.getLsbD 2 then 0 else q.errcode) := rfl

end Sys2Proof.Machine
end

