-- ==== Sys2Proof/Laws/Ops.lean ====
section
/-! SUPPORT. What each shared operation can do, said once: registers, operand shapes, free values, completion, the CMD write,
the map writes, one event. -/

namespace Sys2Proof.Machine

variable (s : State)

/-- Two states with equal fields are equal. -/
theorem State.ext_fields {s t : State} (hf : s.f = t.f) (h1 : s.din = t.din) (h2 : s.dout = t.dout) (h3 : s.ctrl = t.ctrl)
    (h4 : s.status = t.status) (h5 : s.cur = t.cur) (h6 : s.dinl = t.dinl) (h7 : s.rdata = t.rdata)
    (h8 : s.completions = t.completions) (h9 : s.schedule = t.schedule) : s = t := by
  cases s; cases t
  simp_all

/-! Registers. -/

theorem State.reg_eq_getElem (r : Reg) : s.reg r = s.f[r.val]'r.isLt := rfl

@[simp] theorem State.reg_setReg_same (r : Reg) (v : FE) : (s.setReg r v).reg r = v := by
  simp [State.reg, State.setReg]

theorem State.reg_setReg_ne {r q : Reg} (v : FE) (h : q ≠ r) : (s.setReg r v).reg q = s.reg q := by
  have : r.val ≠ q.val := fun e => h (Fin.ext e.symm)
  simp [State.reg, State.setReg, this]

theorem State.reg_setReg (r q : Reg) (v : FE) : (s.setReg r v).reg q = if q = r then v else s.reg q := by
  split
  · rename_i h; rw [h, State.reg_setReg_same]
  · rename_i h; exact State.reg_setReg_ne s v h

@[simp] theorem State.reg_finish (r : Reg) : s.finish.reg r = s.reg r := rfl
@[simp] theorem State.reg_setDout (r : Reg) (v : Vector Word 8) : (s.setDout v).reg r = s.reg r := rfl
@[simp] theorem State.reg_setDin (r : Reg) (k : Nat) (v : Word) : (s.setDin k v).reg r = s.reg r := rfl
@[simp] theorem State.reg_setRdata (r : Reg) (v : Word) : (s.setRdata v).reg r = s.reg r := rfl
@[simp] theorem State.reg_setCtrl (r : Reg) (c : Ctrl) : (s.setCtrl c).reg r = s.reg r := rfl
@[simp] theorem State.reg_clearFlags (r : Reg) (v : Word) : (s.clearFlags v).reg r = s.reg r := rfl
@[simp] theorem State.reg_setSchedule (r : Reg) (es : List Event) : (s.setSchedule es).reg r = s.reg r := rfl
@[simp] theorem State.reg_accept (r : Reg) (w : Word) : (s.accept w).reg r = s.reg r := rfl
@[simp] theorem State.reg_raiseError (r : Reg) (c : BitVec 4) : (s.raiseError c).reg r = s.reg r := rfl

@[simp] theorem State.reg_doReset (r : Reg) : s.doReset.reg r = FE.zero := by
  simp [State.reg, State.doReset, State.reset]

/-! Operand shapes. -/

theorem regPlus_val {r : Reg} {k : Nat} (h : r.val + k < 64) : (regPlus r k).val = r.val + k := Nat.mod_eq_of_lt h

/-- The registers of a pair or a point are distinct, wherever it lies. -/
theorem regPlus_ne {r : Reg} {j k : Nat} (hj : j < 64) (hk : k < 64) (h : j ≠ k) : regPlus r j ≠ regPlus r k := by
  intro e
  have := congrArg Fin.val e
  simp only [regPlus, Fin.ofNat] at this
  omega

theorem regPlus_zero (r : Reg) : regPlus r 0 = r := Fin.ext (Nat.mod_eq_of_lt r.isLt)

theorem regPlus_ne_self {r : Reg} {k : Nat} (h0 : 0 < k) (hk : k < 64) : regPlus r k ≠ r := by
  have := regPlus_ne (r := r) hk (by decide : 0 < 64) (by omega)
  rwa [regPlus_zero] at this

/-- Writing a point writes its three registers (R13). -/
theorem State.point_setPoint (r : Reg) (P : Jacobian) : (s.setPoint r P).point r = P := by
  have h1 : regPlus r 1 ≠ r := regPlus_ne_self (by decide) (by decide)
  have h2 : regPlus r 2 ≠ r := regPlus_ne_self (by decide) (by decide)
  have h3 : regPlus r 1 ≠ regPlus r 2 := regPlus_ne (by decide) (by decide) (by decide)
  simp [State.point, State.setPoint, State.reg_setReg, h1.symm, h2.symm, h3]

theorem State.affine_setAffine (r : Reg) (A : Affine) : (s.setAffine r A).affine r = A := by
  have h1 : regPlus r 1 ≠ r := regPlus_ne_self (by decide) (by decide)
  simp [State.affine, State.setAffine, State.reg_setReg, h1.symm]

/-- Writing a point writes no other register. -/
theorem State.reg_setPoint_ne {r q : Reg} (P : Jacobian) (h0 : q ≠ r) (h1 : q ≠ regPlus r 1) (h2 : q ≠ regPlus r 2) :
    (s.setPoint r P).reg q = s.reg q := by
  simp [State.setPoint, State.reg_setReg, h0, h1, h2]

theorem State.reg_setAffine_ne {r q : Reg} (A : Affine) (h0 : q ≠ r) (h1 : q ≠ regPlus r 1) :
    (s.setAffine r A).reg q = s.reg q := by
  simp [State.setAffine, State.reg_setReg, h0, h1]

/-! Free values (U1). -/

theorem State.settled_of_inSlack {srcs : List FE} (slot : Nat) (v : FE) (h : ∀ a ∈ srcs, InSlack a) :
    s.settled srcs slot v = v := if_pos h

theorem State.settledPoint_of_inSlack {srcs : List FE} (P : Jacobian) (h : ∀ a ∈ srcs, InSlack a) :
    s.settledPoint srcs P = P := by
  simp only [State.settledPoint, State.settled_of_inSlack s _ _ h]

theorem State.settledDout_of_inSlack {src : FE} (v : Vector Word 8) (h : InSlack src) : s.settledDout src v = v := if_pos h

/-! Completion. -/

theorem completes_of_wellFormed {i : Instr} (t : State) (h : i.WellFormed) : completes i t = .next t.finish := if_pos h

/-- What `completes` can answer with a next state. -/
theorem completes_eq_next {i : Instr} {t u : State} (h : completes i t = .next u) : i.WellFormed ∧ u = t.finish := by
  unfold completes at h
  split at h
  · rename_i hw
    cases h
    exact ⟨hw, rfl⟩
  · cases h

theorem completes_ne_fault (i : Instr) (t : State) (x : Fault) : completes i t ≠ .fault x := by
  unfold completes
  split <;> simp

/-! The ports. -/

/-- The eight words of an integer below 2^256 give it back (R34, R183). -/
theorem portValue_portWords {y : Nat} (h : y < 2 ^ 256) : portValue (portWords y) = y := by
  simp only [portValue, portWords, Vector.getElem_mk, List.getElem_toArray, List.getElem_cons_zero, List.getElem_cons_succ,
    BitVec.toNat_ofNat]
  omega

theorem portValue_lt (v : Vector Word 8) : portValue v < 2 ^ 256 := by
  have h0 := v[0].isLt
  have h1 := v[1].isLt
  have h2 := v[2].isLt
  have h3 := v[3].isLt
  have h4 := v[4].isLt
  have h5 := v[5].isLt
  have h6 := v[6].isLt
  have h7 := v[7].isLt
  unfold portValue
  omega

/-! The CMD write (R272). -/

theorem cmdWrite_of_err (w : Word) (h : s.status.err = true) : s.cmdWrite w = s := if_pos h

theorem cmdWrite_of_busy (w : Word) (h : s.status.err = false) (hb : s.status.busy = true) :
    s.cmdWrite w = s.raiseError 3 := by
  simp [State.cmdWrite, h, hb]

/-- The five outcomes of a CMD write. -/
theorem cmdWrite_cases (w : Word) :
    (s.status.err = true ∧ s.cmdWrite w = s)
      ∨ (s.status.err = false ∧ s.status.busy = true ∧ s.cmdWrite w = s.raiseError 3)
      ∨ (s.status.err = false ∧ s.status.busy = false ∧ decode w = .illegalOpcode ∧ s.cmdWrite w = s.raiseError 1)
      ∨ (s.status.err = false ∧ s.status.busy = false ∧ decode w = .illegalOperand ∧ s.cmdWrite w = s.raiseError 2)
      ∨ (s.status.err = false ∧ s.status.busy = false ∧ ∃ i, decode w = .command i ∧ s.cmdWrite w = s.accept w) := by
  cases he : s.status.err
  · cases hb : s.status.busy
    · cases hd : decode w <;> simp [State.cmdWrite, he, hb, hd]
    · simp [State.cmdWrite, he, hb]
  · simp [State.cmdWrite, he]

/-! The register map (R72). -/

/-- What a map write can do, by offset. -/
theorem mapWrite_cases (off : Nat) (v : Word) :
    (off = 0x04 ∧ v.getLsbD 0 = true ∧ s.mapWrite off v = s.doReset)
      ∨ (off = 0x04 ∧ v.getLsbD 0 = false ∧ s.mapWrite off v = s.setCtrl (Ctrl.ofWord v))
      ∨ (off = 0x08 ∧ s.mapWrite off v = s.clearFlags v)
      ∨ (off = 0x0C ∧ s.mapWrite off v = s.cmdWrite v)
      ∨ ((0x20 ≤ off ∧ off < 0x40) ∧ s.mapWrite off v = s.setDin ((off - 0x20) / 4) v)
      ∨ ((off ≠ 0x04 ∧ off ≠ 0x08 ∧ off ≠ 0x0C ∧ ¬(0x20 ≤ off ∧ off < 0x40)) ∧ s.mapWrite off v = s) := by
  by_cases h4 : off = 0x04
  · subst h4
    cases hv : v.getLsbD 0
    · exact .inr (.inl ⟨rfl, rfl, by simp only [State.mapWrite, State.ctrlWrite, hv]; rfl⟩)
    · exact .inl ⟨rfl, rfl, by simp only [State.mapWrite, State.ctrlWrite, hv]; rfl⟩
  · by_cases h8 : off = 0x08
    · simp [h8, State.mapWrite]
    · by_cases hc : off = 0x0C
      · simp [hc, State.mapWrite]
      · by_cases hd : 0x20 ≤ off ∧ off < 0x40
        · simp [h4, h8, hc, hd, State.mapWrite]
        · simp [h4, h8, hc, hd, State.mapWrite]

/-! Events and the step. -/

theorem step_of_schedule {e : Event} {rest : List Event} (h : s.schedule = e :: rest) :
    step s = runEvent e (s.setSchedule rest) := by
  simp only [step, nextEvent, h]

theorem step_of_empty (h : s.schedule = []) : step s = completionInstant s := by
  simp only [step, nextEvent, h]

/-- What a completion instant can answer with a next state. -/
theorem completionInstant_eq_next {s t : State} (h : completionInstant s = .next t) :
    (s.status.busy = false ∧ t = s)
      ∨ (s.status.busy = true ∧ ∃ i, decode s.cur = .command i ∧ exec i s = .next t) := by
  unfold completionInstant at h
  split at h
  · rename_i hb
    unfold completeCommand at h
    split at h
    · rename_i i hi
      exact .inr ⟨hb, i, hi, h⟩
    · cases h
    · cases h
  · rename_i hb
    cases h
    exact .inl ⟨by simpa using hb, rfl⟩

/-- What an event can answer with a next state. -/
theorem runEvent_eq_next {e : Event} {s t : State} (h : runEvent e s = .next t) :
    (∃ off size, e = .read off size ∧ accessDefined off size = true ∧ t = s.setRdata (s.mapRead off))
      ∨ (∃ off size v, e = .write off size v ∧ accessDefined off size = true ∧ t = s.mapWrite off v)
      ∨ (e = .complete ∧ completionInstant s = .next t)
      ∨ (∃ v, e = .statusWriteAtCompletion v ∧ completionInstant (s.clearFlags v) = .next t)
      ∨ (e = .hwReset ∧ t = s.doReset) := by
  cases e with
  | read off size =>
    simp only [runEvent] at h
    split at h
    · rename_i hd
      cases h
      exact .inl ⟨off, size, rfl, hd, rfl⟩
    · cases h
  | write off size v =>
    simp only [runEvent] at h
    split at h
    · rename_i hd
      cases h
      exact .inr (.inl ⟨off, size, v, rfl, hd, rfl⟩)
    · cases h
  | complete => exact .inr (.inr (.inl ⟨rfl, h⟩))
  | statusWriteAtCompletion v => exact .inr (.inr (.inr (.inl ⟨v, rfl, h⟩)))
  | hwReset =>
    cases h
    exact .inr (.inr (.inr (.inr ⟨rfl, rfl⟩)))

end Sys2Proof.Machine
end

