-- ==== Sys2Proof/Laws/Select.lean ====
section
/-! SUPPORT. The mask datapath: what one round of the selector and the conditional copy give (R215, R219). -/

namespace Sys2Proof.Machine

/-- A round whose mask is zero keeps the running value (R215). -/
theorem selectRound_other (idx : Nat) (out : FE) {e : FE × Nat} (h : e.2 ≠ idx) : selectRound idx out e = out := by
  cases out
  simp [selectRound, zipLimbs, mask32, h]

/-- The round whose mask is all ones adds the entry (R215). -/
theorem selectRound_hit (idx : Nat) (out : FE) {e : FE × Nat} (h : e.2 = idx) :
    selectRound idx out e = zipLimbs (· ^^^ ·) out e.1 := by
  have ha (x : Limb) : x &&& 4294967295#32 = x := by
    have : (4294967295#32 : Limb) = BitVec.allOnes 32 := rfl
    rw [this, BitVec.and_allOnes]
  simp [selectRound, zipLimbs, mask32, h, ha]

theorem zipLimbs_xor_zero (e : FE) : zipLimbs (· ^^^ ·) FE.zero e = e := by
  cases e
  simp [zipLimbs, FE.zero]

/-- Rounds past the selected entry change nothing. -/
theorem foldl_selectRound_other (idx : Nat) (E : List FE) (n : Nat) (out : FE) (h : idx < n) :
    (E.zipIdx n).foldl (selectRound idx) out = out := by
  induction E generalizing n out with
  | nil => rfl
  | cons e E ih =>
    rw [List.zipIdx_cons, List.foldl_cons, selectRound_other idx out (by simp; omega)]
    exact ih (n + 1) out (by omega)

/-- The rounds over a list that starts at entry n, from the zero vector (R215). -/
theorem foldl_selectRound (idx : Nat) (E : List FE) (n : Nat) (h : n ≤ idx) :
    (E.zipIdx n).foldl (selectRound idx) FE.zero = (E[idx - n]?).getD FE.zero := by
  induction E generalizing n with
  | nil => rfl
  | cons e E ih =>
    rw [List.zipIdx_cons, List.foldl_cons]
    by_cases hn : n = idx
    · subst hn
      rw [selectRound_hit n FE.zero rfl, zipLimbs_xor_zero, foldl_selectRound_other n E (n + 1) e (by omega)]
      simp
    · rw [selectRound_other idx FE.zero hn, ih (n + 1) (by omega)]
      have : idx - n = idx - (n + 1) + 1 := by omega
      rw [this, List.getElem?_cons_succ]

/-- What one coordinate of the selector gives: the entry of that index. -/
theorem select_eq (E : List FE) (idx : Nat) : select E idx = (E[idx]?).getD FE.zero := by
  exact foldl_selectRound idx E 0 (Nat.zero_le _)

/-- What the mask of CondCopy does to one limb (R219). -/
theorem condLimb (o i : Limb) (c : Bool) : o ^^^ (mask32 c &&& (i ^^^ o)) = if c then i else o := by
  cases c
  · simp [mask32]
  · have : mask32 true = BitVec.allOnes 32 := rfl
    rw [this, BitVec.allOnes_and, BitVec.xor_comm i o, ← BitVec.xor_assoc, BitVec.xor_self, BitVec.zero_xor]
    rfl

end Sys2Proof.Machine
end

