-- ==== Sys2Proof/Laws/Exec.lean ====
section
/-! SUPPORT. What exec can do, said once: a command's effect on the state, which its completion follows (R274), and the fields
no command touches (R31). -/

namespace Sys2Proof.Machine

/-- What a command writes, before its completion clears BUSY and sets DONE. -/
def effect (i : Instr) (s : State) : State :=
  match i with
  | .nop => s
  | .fadd rd ra rb => s.setReg rd (s.settled [s.reg ra, s.reg rb] 0 (add (s.reg ra) (s.reg rb)))
  | .fsub rd ra rb => s.setReg rd (s.settled [s.reg ra, s.reg rb] 0 (sub (s.reg ra) (s.reg rb)))
  | .fmul rd ra rb => s.mulLane 0 rd ra rb
  | .fsqr rd ra => s.squareLane 0 rd ra
  | .fmul2 rd ra rb => (s.mulLane 0 rd ra rb).mulLane 1 (regPlus rd 1) (regPlus ra 1) (regPlus rb 1)
  | .fsqr2 rd ra => (s.squareLane 0 rd ra).squareLane 1 (regPlus rd 1) (regPlus ra 1)
  | .frombig rd => s.setReg rd (fromBig s.dinl.toNat)
  | .tobig ra => s.setDout (s.settledDout (s.reg ra) (portWords (toBig (s.reg ra))))
  | .pdbl rd ra => s.setPoint rd (s.settledPoint (s.point ra).vectors (double (s.point ra)))
  | .padd rd ra rb =>
    s.setPoint rd (s.settledPoint ((s.point ra).vectors ++ (s.point rb).vectors) (fullAdd (s.point ra) (s.point rb)))
  | .paddm rd ra rb =>
    s.setPoint rd (s.settledPoint ((s.point ra).vectors ++ (s.affine rb).vectors) (mixedAdd (s.point ra) (s.affine rb)))
  | .sela rd g idx => s.setAffine rd (selectAffine (baseGroup g) idx)
  | .selj rd rb idx =>
    s.setPoint rd (s.settledPoint ((s.table rb).flatMap Jacobian.vectors) (selectJacobian (s.table rb) idx))
  | .ccopy rd ra c => s.setReg rd (s.settled [s.reg rd, s.reg ra] 0 (condCopy (s.reg rd) (s.reg ra) c))
  | .ldc rd k => s.setReg rd (constant k)

/-- Every command completes its effect. -/
theorem exec_eq (i : Instr) (s : State) : exec i s = completes i (effect i s) := by cases i <;> rfl

/-- What exec can answer with a next state. -/
theorem exec_eq_next {i : Instr} {s t : State} (h : exec i s = .next t) : i.WellFormed ∧ t = (effect i s).finish :=
  completes_eq_next (exec_eq i s ▸ h)

theorem exec_of_wellFormed {i : Instr} (s : State) (h : i.WellFormed) : exec i s = .next (effect i s).finish :=
  (exec_eq i s).trans (completes_of_wellFormed _ h)

variable (i : Instr) (s : State)

@[simp] theorem effect_din : (effect i s).din = s.din := by cases i <;> rfl
@[simp] theorem effect_ctrl : (effect i s).ctrl = s.ctrl := by cases i <;> rfl
@[simp] theorem effect_status : (effect i s).status = s.status := by cases i <;> rfl
@[simp] theorem effect_cur : (effect i s).cur = s.cur := by cases i <;> rfl
@[simp] theorem effect_dinl : (effect i s).dinl = s.dinl := by cases i <;> rfl
@[simp] theorem effect_rdata : (effect i s).rdata = s.rdata := by cases i <;> rfl
@[simp] theorem effect_completions : (effect i s).completions = s.completions := by cases i <;> rfl
@[simp] theorem effect_schedule : (effect i s).schedule = s.schedule := by cases i <;> rfl

end Sys2Proof.Machine
end

