-- ==== Sys2Proof/Laws/HostSequences.lean ====
section
/-! SUPPORT. The host layer: what one host event, one host action and the reading of DOUT do to the machine, and that the
host's inversion is one. -/

namespace Sys2Proof.Machine

/-! Outcomes in sequence. -/

@[simp] theorem andThen_next {α β : Type} (a : α) (k : α → Host.Outcome β Fault Refusal) : andThen (.next a) k = k a := rfl

theorem andThen_assoc {α β γ : Type} (r : Host.Outcome α Fault Refusal) (k : α → Host.Outcome β Fault Refusal)
    (m : β → Host.Outcome γ Fault Refusal) : andThen (andThen r k) m = andThen r fun a => andThen (k a) m := by
  cases r <;> rfl

/-- When a sequence goes on, its first part did. -/
theorem andThen_eq_next {α β : Type} {r : Host.Outcome α Fault Refusal} {k : α → Host.Outcome β Fault Refusal} {b : β}
    (h : andThen r k = .next b) : ∃ a, r = .next a ∧ k a = .next b := by
  cases r with
  | next a => exact ⟨a, rfl, h⟩
  | fault e => cases h
  | refused e => cases h

/-! Events and actions. -/

variable (s : State)

/-- A host event is that event on the state as it is, the schedule included. -/
theorem hostEvent_eq (e : Event) : s.hostEvent e = runEvent e s := step_of_schedule _ rfl

theorem runEvents_append (es fs : List Event) : runEvents (es ++ fs) s = andThen (runEvents es s) (runEvents fs) := by
  induction es generalizing s with
  | nil => rfl
  | cons e es ih =>
    simp only [List.cons_append, runEvents, andThen_assoc]
    exact congrArg _ (funext ih)

theorem runActions_nil : runActions [] s = .next s := rfl

theorem runActions_cons (a : HostAction) (as : List HostAction) :
    runActions (a :: as) s = andThen (runEvents a.events s) (runActions as) := by
  simp only [runActions, List.flatMap_cons, runEvents_append]
  rfl

/-- The DIN words are defined accesses of the window (R72, R74). -/
theorem hostEvent_writeDin {k : Nat} (hk : k < 8) (v : Word) :
    s.hostEvent (.write (0x20 + 4 * k) 4 v) = .next (s.setDin k v) := by
  have ha : accessDefined (0x20 + 4 * k) 4 = true := by simp [accessDefined]; omega
  have hm : s.mapWrite (0x20 + 4 * k) v = s.setDin ((0x20 + 4 * k - 0x20) / 4) v := by
    rw [State.mapWrite, if_neg (by omega), if_neg (by omega), if_neg (by omega), if_pos (by omega)]
  rw [hostEvent_eq, runEvent, if_pos ha, hm, show (0x20 + 4 * k - 0x20) / 4 = k by omega]

/-- A read of DOUT word k (R34). -/
theorem hostEvent_readDout {k : Nat} (hk : k < 8) :
    s.hostEvent (.read (0x40 + 4 * k) 4) = .next (s.setRdata s.dout[k]) := by
  have ha : accessDefined (0x40 + 4 * k) 4 = true := by simp [accessDefined]; omega
  have hm : s.mapRead (0x40 + 4 * k) = s.dout[k] := by
    rw [State.mapRead, if_neg (by omega), if_neg (by omega), if_neg (by omega), dif_neg (by omega), dif_pos (by omega)]
    congr 1
    omega
  rw [hostEvent_eq, runEvent, if_pos ha, hm]

/-- The eight words of an integer written one after another (R33, R78). -/
theorem portWords_written (d : Vector Word 8) (x : Nat) :
    (List.range 8).foldl (fun (d : Vector Word 8) k => d.setIfInBounds k (BitVec.ofNat 32 (x / 2 ^ (32 * k)))) d
      = portWords x := by
  apply Vector.ext
  intro i hi
  simp only [List.range, List.range.loop, List.foldl, portWords, Vector.getElem_setIfInBounds]
  rcases (by omega : i = 0 ∨ i = 1 ∨ i = 2 ∨ i = 3 ∨ i = 4 ∨ i = 5 ∨ i = 6 ∨ i = 7) with
    rfl | rfl | rfl | rfl | rfl | rfl | rfl | rfl <;> simp

/-- Words of DIN written one after another. -/
theorem runEvents_writeDin (g : Nat → Word) (ks : List Nat) (h : ∀ k ∈ ks, k < 8) :
    runEvents (ks.map fun k => .write (0x20 + 4 * k) 4 (g k)) s
      = .next { s with din := ks.foldl (fun d k => d.setIfInBounds k (g k)) s.din } := by
  induction ks generalizing s with
  | nil => rfl
  | cons k ks ih =>
    rw [List.map_cons, runEvents, hostEvent_writeDin s (h k List.mem_cons_self), andThen_next,
      ih _ fun j hj => h j (List.mem_cons_of_mem k hj)]
    rfl

/-- `DIN <- x` leaves the eight words of x in DIN and changes nothing else (R33, R109). -/
theorem runEvents_din (x : Nat) : runEvents (HostAction.din x).events s = .next { s with din := portWords x } := by
  rw [HostAction.events, runEvents_writeDin s _ _ fun k hk => List.mem_range.mp hk, portWords_written]

/-- A command written to CMD when the unit is ready, and its completion: the command's effect on the state that accepted it
(R272 to R274). -/
theorem runEvents_cmd {i : Instr} (he : s.status.err = false) (hb : s.status.busy = false)
    (hd : decode (encode i) = .command i) (hw : i.WellFormed) :
    runEvents (HostAction.cmd i).events s = .next (effect i (s.accept (encode i))).finish := by
  have hc : s.cmdWrite (encode i) = s.accept (encode i) := by simp only [State.cmdWrite, he, hb, hd]; rfl
  have h0 : s.hostEvent (.write 0x0C 4 (encode i)) = .next (s.accept (encode i)) := by
    rw [hostEvent_eq, ← hc]
    rfl
  have h1 : (s.accept (encode i)).hostEvent .complete = exec i (s.accept (encode i)) := by
    rw [hostEvent_eq]
    have hb1 : (s.accept (encode i)).status.busy = true := rfl
    have hc1 : (s.accept (encode i)).cur = encode i := rfl
    simp only [runEvent, completionInstant, completeCommand, hb1, hc1, hd, if_true]
  simp only [HostAction.events, runEvents, h0, andThen_next, h1, exec_of_wellFormed _ hw]

/-- `v <- DOUT` returns the value of the port and changes nothing but what was last read (R34, R76). -/
theorem readDout_eq : readDout s = .next (s.setRdata s.dout[7], portValue s.dout) := by
  have h := fun (t : State) (k : Nat) (hk : k < 8) => hostEvent_readDout t hk
  simp only [readDout, readWords, h _ 0 (by decide), h _ 1 (by decide), h _ 2 (by decide), h _ 3 (by decide),
    h _ 4 (by decide), h _ 5 (by decide), h _ 6 (by decide), h _ 7 (by decide), andThen_next, Nat.reduceAdd]
  simp only [State.setRdata, portValue]
  congr 2
  omega

/-- `TOBIG f[r] ; v <- DOUT` when the unit is ready returns the canonical integer of a register in slack (R183). -/
theorem storeReg_eq {r : Reg} (he : s.status.err = false) (hb : s.status.busy = false)
    (hd : decode (encode (.tobig r)) = .command (.tobig r)) (h : InSlack (s.reg r)) :
    ∃ t, storeReg r s = .next (t, toBig (s.reg r)) ∧ t.f = s.f
      ∧ t.status = { s.status with busy := false, done := true } := by
  have hv : portValue (portWords (toBig (s.reg r))) = toBig (s.reg r) :=
    portValue_portWords ((toBig_lt _).trans (by decide))
  let u := (effect (.tobig r) (s.accept (encode (.tobig r)))).finish
  have hu : portValue u.dout = toBig (s.reg r) := by
    have : u.dout = portWords (toBig (s.reg r)) := State.settledDout_of_inSlack _ _ h
    rw [this, hv]
  refine ⟨u.setRdata u.dout[7], ?_, rfl, rfl⟩
  rw [storeReg, runActions_cons, runEvents_cmd s he hb hd rfl, andThen_next, runActions_nil, andThen_next, readDout_eq, hu]

/-! The host's inversion. -/

/-- The extended Euclidean algorithm gives the inverse factor of coprime remainders. -/
theorem inverseLoop_spec (z : ZMod p) (fuel r0 r1 : Nat) (t0 t1 : Int) (hf : r0 * r1 < 2 ^ fuel) (hr : r1 ≤ r0)
    (hg : Nat.Coprime r0 r1) (h0 : (t0 : ZMod p) * z = r0) (h1 : (t1 : ZMod p) * z = r1) :
    ((inverseLoop fuel r0 r1 t0 t1 : Int) : ZMod p) * z = 1 := by
  induction fuel generalizing r0 r1 t0 t1 with
  | zero =>
    have hz : r0 * r1 = 0 := by omega
    have hr1 : r1 = 0 := by rcases Nat.mul_eq_zero.mp hz with h | h <;> omega
    subst hr1
    rw [inverseLoop, h0, (Nat.coprime_zero_right r0).mp hg, Nat.cast_one]
  | succ fuel ih =>
    rw [inverseLoop]
    split
    · rename_i hr1
      subst hr1
      rw [h0, (Nat.coprime_zero_right r0).mp hg, Nat.cast_one]
    · rename_i hr1
      have hlt : r0 % r1 < r1 := Nat.mod_lt _ (Nat.pos_of_ne_zero hr1)
      have hdm : r1 * (r0 / r1) + r0 % r1 = r0 := Nat.div_add_mod r0 r1
      refine ih r1 (r0 % r1) t1 _ ?_ hlt.le ?_ h1 ?_
      · have hq : 1 ≤ r0 / r1 := Nat.div_pos hr (Nat.pos_of_ne_zero hr1)
        have h2 : 2 * (r0 % r1) ≤ r0 := by nlinarith
        have h3 : r1 * (2 * (r0 % r1)) ≤ r1 * r0 := Nat.mul_le_mul_left r1 h2
        rw [pow_succ] at hf
        nlinarith
      · have hgcd : Nat.gcd r1 (r0 % r1) = Nat.gcd r0 r1 := by rw [Nat.gcd_comm r1, ← Nat.gcd_rec, Nat.gcd_comm]
        exact hgcd.trans hg
      · have hc : ((r1 : ZMod p) * ((r0 / r1 : Nat) : ZMod p) + ((r0 % r1 : Nat) : ZMod p)) = r0 := by
          exact_mod_cast congrArg (Nat.cast : Nat → ZMod p) hdm
        rw [Int.cast_sub, Int.cast_mul, Int.cast_natCast, sub_mul, mul_assoc, h1, h0, ← hc]
        ring

/-- `inv(z, p)` times z is 1 modulo p (R10). -/
theorem inverseModP_spec {z : Nat} (hz : z < p) (hc : Nat.Coprime p z) : z * inverseModP z % p = 1 := by
  have hp256 : p < 2 ^ 256 := by decide
  have hf : p * z < 2 ^ 512 :=
    (Nat.mul_lt_mul'' hp256 (hz.trans hp256)).trans_eq (pow_add 2 256 256).symm
  have h := inverseLoop_spec (z : ZMod p) 512 p z 0 1 hf hz.le hc (by simp) (by simp)
  have hp : (0 : Int) < p := by decide
  have hn : ((inverseModP z : Nat) : ZMod p) = ((inverseLoop 512 p z 0 1 : Int) : ZMod p) := by
    have e : ((inverseModP z : Nat) : Int) = inverseLoop 512 p z 0 1 % (p : Int) :=
      Int.toNat_of_nonneg (Int.emod_nonneg _ hp.ne')
    have := congrArg (Int.cast : Int → ZMod p) e
    simpa using this
  have h2 : ((z * inverseModP z : Nat) : ZMod p) = ((1 : Nat) : ZMod p) := by
    rw [Nat.cast_mul, hn, mul_comm, h, Nat.cast_one]
  have h3 := (ZMod.natCast_eq_natCast_iff _ _ _).mp h2
  rw [Nat.ModEq] at h3
  rw [h3]
  decide

end Sys2Proof.Machine
end

