-- ==== Sys2Proof/Laws/PerInstr.lean ====
section
/-! SUPPORT. Statements made per instruction. OpcodeField: the `op` field of an instruction's word is its opcode (R105). -/

namespace Sys2Proof.Laws

/-- The opcode of R105. -/
def opcode : Instr → Nat
  | .nop => 0x00
  | .fadd _ _ _ => 0x01
  | .fsub _ _ _ => 0x02
  | .fmul _ _ _ => 0x03
  | .fsqr _ _ => 0x04
  | .fmul2 _ _ _ => 0x05
  | .fsqr2 _ _ => 0x06
  | .frombig _ => 0x08
  | .tobig _ => 0x09
  | .pdbl _ _ => 0x0C
  | .padd _ _ _ => 0x0D
  | .paddm _ _ _ => 0x0E
  | .sela _ _ _ => 0x10
  | .selj _ _ _ => 0x11
  | .ccopy _ _ _ => 0x12
  | .ldc _ _ => 0x13

/-- The word of an instruction carries its opcode in bits 31:26. -/
def OpcodeField.Statement (i : Instr) : Prop := fieldOp (encode i) = opcode i

namespace OpcodeField

theorem nop : Statement .nop := (by decide : fieldOp (encode .nop) = opcode .nop)

theorem fadd (rd ra rb : Reg) : Statement (.fadd rd ra rb) :=
  (fields_wordOf (by decide) rd.isLt ra.isLt rb.isLt (by decide)).1

theorem fsub (rd ra rb : Reg) : Statement (.fsub rd ra rb) :=
  (fields_wordOf (by decide) rd.isLt ra.isLt rb.isLt (by decide)).1

theorem fmul (rd ra rb : Reg) : Statement (.fmul rd ra rb) :=
  (fields_wordOf (by decide) rd.isLt ra.isLt rb.isLt (by decide)).1

theorem fsqr (rd ra : Reg) : Statement (.fsqr rd ra) :=
  (fields_wordOf (by decide) rd.isLt ra.isLt (by decide) (by decide)).1

theorem fmul2 (rd ra rb : Reg) : Statement (.fmul2 rd ra rb) :=
  (fields_wordOf (by decide) rd.isLt ra.isLt rb.isLt (by decide)).1

theorem fsqr2 (rd ra : Reg) : Statement (.fsqr2 rd ra) :=
  (fields_wordOf (by decide) rd.isLt ra.isLt (by decide) (by decide)).1

theorem frombig (rd : Reg) : Statement (.frombig rd) :=
  (fields_wordOf (by decide) rd.isLt (by decide) (by decide) (by decide)).1

theorem tobig (ra : Reg) : Statement (.tobig ra) :=
  (fields_wordOf (by decide) (by decide) ra.isLt (by decide) (by decide)).1

theorem pdbl (rd ra : Reg) : Statement (.pdbl rd ra) :=
  (fields_wordOf (by decide) rd.isLt ra.isLt (by decide) (by decide)).1

theorem padd (rd ra rb : Reg) : Statement (.padd rd ra rb) :=
  (fields_wordOf (by decide) rd.isLt ra.isLt rb.isLt (by decide)).1

theorem paddm (rd ra rb : Reg) : Statement (.paddm rd ra rb) :=
  (fields_wordOf (by decide) rd.isLt ra.isLt rb.isLt (by decide)).1

theorem sela (rd : Reg) (g : Fin 2) (idx : Fin 16) : Statement (.sela rd g idx) :=
  (fields_wordOf (by decide) rd.isLt (by decide) (by decide) (by omega)).1

theorem selj (rd rb : Reg) (idx : Fin 16) : Statement (.selj rd rb idx) :=
  (fields_wordOf (by decide) rd.isLt (by decide) rb.isLt (by omega)).1

theorem ccopy (rd ra : Reg) (c : Bool) : Statement (.ccopy rd ra c) :=
  (fields_wordOf (by decide) rd.isLt ra.isLt (by decide) (by cases c <;> decide)).1

theorem ldc (rd : Reg) (k : ConstId) : Statement (.ldc rd k) :=
  (fields_wordOf (by decide) rd.isLt (by decide) (by decide) (by cases k <;> decide)).1

end OpcodeField

end Sys2Proof.Laws
end

