-- ==== Sys2Proof/Tests/Slice0.lean ====
section
/-! SUPPORT. The model's own tests: ill-formed terms refused, words of the spec decoded, one step per command with the spec's
numbers, and for every statement with hypotheses a state and operands that meet them. -/

namespace Sys2Proof.Tests

open Sys2Proof Sys2Proof.Machine

/-! ## Helpers -/

/-- The reset state with some registers set. -/
def withRegs (rs : List (Reg × FE)) : State := rs.foldl (fun s q => s.setReg q.1 q.2) State.reset

/-- The reset state with events to come. -/
def withEvents (es : List Event) : State := State.reset.setSchedule es

/-- The reset state with the word `w` in flight and events to come. -/
def inFlightWith (w : Word) (es : List Event) : State := (State.reset.accept w).setSchedule es

/-- The reset state after a command error, with events to come. -/
def erredWith (es : List Event) : State := (State.reset.raiseError 1).setSchedule es

/-- A register after an outcome. -/
def regAfter (o : Result) (r : Reg) : Option FE :=
  match o with
  | .next t => some (t.reg r)
  | .fault _ => none
  | .refused _ => none

/-- DOUT as an integer after an outcome. -/
def doutAfter (o : Result) : Option Nat :=
  match o with
  | .next t => some (portValue t.dout)
  | .fault _ => none
  | .refused _ => none

/-- STATUS as the host would read it after an outcome, and the interrupt line. -/
def statusAfter (o : Result) : Option (Word × Bool) :=
  match o with
  | .next t => some (t.mapRead 0x08, t.irq)
  | .fault _ => none
  | .refused _ => none

/-- The outcome is a next state. -/
def goesOn (o : Result) : Bool :=
  match o with
  | .next _ => true
  | .fault _ => false
  | .refused _ => false

/-- The largest in-slack vector (R152). -/
def largest : FE :=
  ⟨0x3FFFFFFF, 0x1FFFFFFF, 0x3FFFFFFF, 0x1FFFFFFF, 0x3FFFFFFF, 0x1FFFFFFF, 0x3FFFFFFF, 0x1FFFFFFF, 0x3FFFFFFF⟩

/-- FromBig(Gx) (R181). -/
def gx : FE :=
  ⟨0x0830053D, 0x0328990F, 0x06C04FE1, 0x0C0F72E5, 0x01E19F3C, 0x0666B093, 0x0175A87B, 0x0EC38276, 0x0222CF4B⟩

/-- FromBig(Gy) (R193). -/
def gy : FE :=
  ⟨0x185A1BBA, 0x0354E593, 0x1295FAC1, 0x0F2BC469, 0x047C60FA, 0x0C19B8A9, 0x0F63533E, 0x0903AE6B, 0x0C79ACBA⟩

/-- The X, Y and Z of 2G as R193 leaves them. -/
def twoG : Jacobian :=
  ⟨⟨0x0C7891AB, 0x0DA8381E, 0x3614A6AE, 0x01EBC2AC, 0x02048192, 0x0A189805, 0x1DDEBBCF, 0x07ED4763, 0x17310E98⟩,
    ⟨0x034E7C80, 0x0385681C, 0x2F4DC128, 0x025447B5, 0x0EA414F8, 0x0EB99248, 0x11D6A1A9, 0x0BB5E9FA, 0x03F77BFB⟩,
    ⟨0x10B43774, 0x06A9CB27, 0x052BF582, 0x0E5788D3, 0x08F8C1F5, 0x08337152, 0x1EC6A67D, 0x02075CD6, 0x18F35975⟩⟩

/-- G in registers 0 to 2 and 2G in registers 3 to 5 (R204). -/
def points : State := withRegs [(0, gx), (1, gy), (2, feOne), (3, twoG.x), (4, twoG.y), (5, twoG.z)]

/-! ## Operand limits (R276): a term beyond each is refused -/

theorem test_pair_limit : (Instr.fmul2 63 0 0).wellFormed = false ∧ (Instr.fmul2 0 63 0).wellFormed = false
    ∧ (Instr.fmul2 0 0 63).wellFormed = false ∧ (Instr.fsqr2 63 0).wellFormed = false
    ∧ (Instr.fsqr2 0 63).wellFormed = false ∧ (Instr.paddm 0 0 63).wellFormed = false
    ∧ (Instr.sela 63 0 0).wellFormed = false ∧ (Instr.fmul2 62 62 62).wellFormed = true := by decide

theorem test_point_limit : (Instr.pdbl 62 0).wellFormed = false ∧ (Instr.pdbl 0 62).wellFormed = false
    ∧ (Instr.padd 62 0 0).wellFormed = false ∧ (Instr.padd 0 62 0).wellFormed = false
    ∧ (Instr.padd 0 0 62).wellFormed = false ∧ (Instr.paddm 62 0 0).wellFormed = false
    ∧ (Instr.paddm 0 62 0).wellFormed = false ∧ (Instr.selj 62 0 0).wellFormed = false
    ∧ (Instr.padd 61 61 61).wellFormed = true := by decide

theorem test_table_limit : (Instr.selj 0 17 0).wellFormed = false ∧ (Instr.selj 61 16 15).wellFormed = true := by decide

/-! ## Decoding: the words of 95_test_vectors.md sections 7.4 and 7.5 -/

theorem test_decode_field : decode 0x04304200 = .command (.fadd 3 1 2) ∧ decode 0x0BFFBD00 = .command (.fsub 63 62 61)
    ∧ decode 0x0C304200 = .command (.fmul 3 1 2) ∧ decode 0x10304000 = .command (.fsqr 3 1)
    ∧ decode 0x17E00200 = .command (.fmul2 62 0 2) ∧ decode 0x184F8000 = .command (.fsqr2 4 62) := by decide

theorem test_decode_ports : decode 0x00000000 = .command .nop ∧ decode 0x23F00000 = .command (.frombig 63)
    ∧ decode 0x240FC000 = .command (.tobig 63) := by decide

theorem test_decode_points : decode 0x33D00000 = .command (.pdbl 61 0) ∧ decode 0x34600300 = .command (.padd 6 0 3)
    ∧ decode 0x38603E00 = .command (.paddm 6 0 62) := by decide

theorem test_decode_select : decode 0x43E0001F = .command (.sela 62 1 15) ∧ decode 0x47D0100F = .command (.selj 61 16 15)
    ∧ decode 0x4BF00001 = .command (.ccopy 63 0 true) ∧ decode 0x4FF00004 = .command (.ldc 63 .pv) := by decide

theorem test_decode_unused_fields : ([0x00000001, 0x00100000, 0x04000001, 0x10004100, 0x20004000, 0x24100000,
    0x43E00020, 0x40004000, 0x44000010, 0x48000002, 0x48000100, 0x4C000008] : List Word).all (decode · ==
    .illegalOperand) = true := by decide

theorem test_decode_limits : ([0x17FFBE00, 0x17EFFE00, 0x17EFBF00, 0x1BF00000, 0x33E00000, 0x330F8000, 0x37DF7E00,
    0x3BDF7F00, 0x43F00000, 0x44001100, 0x47E00000, 0x4C000005] : List Word).all (decode · == .illegalOperand) = true
    := by decide

theorem test_decode_opcodes : ([0x1C000000, 0x28000000, 0x2C000000, 0x3C000000, 0x50000000, 0x80000000, 0xFC000000,
    0xFFFFFFFF] : List Word).all (decode · == .illegalOpcode) = true := by decide

theorem test_encode_words : encode (.fsub 63 62 61) = 0x0BFFBD00 ∧ encode (.sela 62 1 15) = 0x43E0001F
    ∧ encode (.paddm 6 0 62) = 0x38603E00 ∧ encode (.ldc 63 .pv) = 0x4FF00004 := by decide

theorem test_table_words : decodeTableWord 32 0x4851C001 = some (.ccopy 5 7 true) ∧ decodeTableWord 32 0x1C000000 = none := by
  decide

/-! ## Constants (R51 to R56) -/

theorem test_constants : p = 2 ^ 256 - 2 ^ 224 - 2 ^ 96 + 2 ^ 64 - 1 ∧ rModP = 2 ^ 225 + 2 ^ 97 - 2 ^ 65 + 2
    ∧ feOne = pack rModP ∧ feA = fromBig (p - 3) ∧ feBM = fromBig curveB ∧ fePV = pack p ∧ val feZero31 = 8 * p
    ∧ rInv * 2 ^ 257 % p = 1 ∧ negPInv * p % 2 ^ 257 = 2 ^ 257 - 1 ∧ curveA = p - 3 := by decide +kernel

theorem test_carry_rows : ∀ c ∈ List.range 8, carryRow c = pack (c * (2 ^ 257 % p)) := by decide +kernel

/-! ## One step per command, with the spec's own example -/

/-- R235: NOP with IE_DONE set. -/
theorem test_nop : statusAfter (exec .nop ((State.reset.setCtrl { ieDone := true, ieErr := false }).accept 0))
    = some (0x02, true) := by decide

/-- R136. -/
theorem test_fadd : regAfter (exec (.fadd 4 1 2) (withRegs [(1, fromBig 3), (2, fromBig 4)])) 4
    = some ⟨0x0000000E, 0, 0x1FFFF900, 0x000037FF, 0, 0, 0, 0x0E000000, 0⟩ := by decide +kernel

/-- R137. -/
theorem test_fsub : regAfter (exec (.fsub 3 1 2) (withRegs [(1, fromBig 5), (2, fromBig 7)])) 3
    = some ⟨0x1FFFFFFA, 0x0FFFFFFF, 0x200002FF, 0x0FFFE7FF, 0x1FFFFFFF, 0x0FFFFFFF, 0x1FFFFFFF, 0x09FFFFFF, 0x1FFFFFFF⟩ := by
  decide +kernel

/-- R159: the product of the largest vectors, with carry 4. -/
theorem test_fmul : regAfter (exec (.fmul 1 1 1) (withRegs [(1, largest)])) 1
    = some ⟨0x1FF46A0F, 0x0058B227, 0x2A33D9BA, 0x06001B06, 0x1A007009, 0x0BFB3FFA, 0x07700178, 0x0DBFF4EE, 0x00005988⟩ := by
  decide +kernel

/-- R163. -/
theorem test_fsqr : regAfter (exec (.fsqr 3 1) (withRegs [(1, gx)])) 3
    = some ⟨0x087741FB, 0x01EE251E, 0x068D0F3D, 0x01811436, 0x130D9A3B, 0x007CAE86, 0x0F8DF704, 0x07CB6968, 0x0B0E017D⟩ := by
  decide +kernel

/-- R165, with overlap: lane 1 reads what lane 0 wrote. -/
theorem test_fmul2 : regAfter (exec (.fmul2 2 1 2) (withRegs [(1, fromBig 2), (2, fromBig 3), (3, fromBig 5)])) 3
    = some ⟨0x0000003C, 0, 0x1FFFE200, 0x0000EFFF, 0, 0, 0, 0x0C000000, 0x00000003⟩ := by decide +kernel

/-- R166, with overlap. -/
theorem test_fsqr2 : regAfter (exec (.fsqr2 2 1) (withRegs [(1, fromBig 2), (2, fromBig 3)])) 3
    = some ⟨0x00000020, 0, 0x1FFFF000, 0x00007FFF, 0, 0, 0, 0, 0x00000002⟩ := by decide +kernel

/-- R181: x = 2^256 − 1. -/
theorem test_frombig : regAfter (exec (.frombig 1) { State.reset with dinl := BitVec.allOnes 256 }) 1
    = some ⟨0x00000004, 0x00000020, 0x00000000, 0x00001000, 0x00008000, 0x00040000, 0x00800000, 0x06000000, 0⟩ := by
  decide +kernel

/-- R183: the largest in-slack vector. -/
theorem test_tobig : doutAfter (exec (.tobig 1) (withRegs [(1, largest)]))
    = some 0x41C1C409DC5C7C74C2C3C3822E3E3BFE61E1C000DD5C3BF51483838BCC3C3C7F := by decide +kernel

/-- R193, here with the destination overlapping the source. -/
theorem test_pdbl : regAfter (exec (.pdbl 1 0) points) 1 = some twoG.x ∧ regAfter (exec (.pdbl 1 0) points) 2 = some twoG.y
    ∧ regAfter (exec (.pdbl 1 0) points) 3 = some twoG.z := by decide +kernel

/-- R204. -/
theorem test_padd : regAfter (exec (.padd 6 0 3) points) 7
    = some ⟨0x17E2E677, 0x040BB897, 0x242C3C8D, 0x04C54230, 0x015A4F7D, 0x0DC5F39C, 0x01618DC7, 0x10BC3422, 0x12CFBEAA⟩ := by
  decide +kernel

/-- R204: infinity as the first operand copies the second. -/
theorem test_padd_infinity : regAfter (exec (.padd 6 9 3) points) 8 = some twoG.z := by decide +kernel

/-- R208. -/
theorem test_paddm : regAfter (exec (.paddm 6 3 0) points) 8
    = some ⟨0x07AC999B, 0x08EE33CD, 0x10D4BE2E, 0x0B669808, 0x190ED3E6, 0x0149BF25, 0x0C7F4F7C, 0x070D7BD1, 0x1385BDB4⟩ := by
  decide +kernel

/-- R216. -/
theorem test_sela : regAfter (exec (.sela 10 1 1) State.reset) 11
    = some ⟨0x1A003957, 0x01C95F61, 0x1EEEC155, 0x026F811F, 0x0F9596BA, 0x03082BFB, 0x096DF083, 0x03E3A289, 0x07E2D8BE⟩ := by
  decide +kernel

/-- R217: entry 5 of the table at 16 is registers 31 to 33. -/
theorem test_selj : regAfter (exec (.selj 0 16 5) (withRegs [(31, gx), (32, gy), (33, feOne)])) 1 = some gy := by
  decide +kernel

/-- R220. -/
theorem test_ccopy : regAfter (exec (.ccopy 5 7 true) (withRegs [(5, gx), (7, gy)])) 5 = some gy
    ∧ regAfter (exec (.ccopy 5 7 false) (withRegs [(5, gx), (7, gy)])) 5 = some gx := by decide +kernel

/-- R222. -/
theorem test_ldc : regAfter (exec (.ldc 9 .a) State.reset) 9
    = some ⟨0x1FFFFFF9, 0x0FFFFFFF, 0x0000037F, 0x0FFFE400, 0x1FFFFFFF, 0x0FFFFFFF, 0x1FFFFFFF, 0x08FFFFFF, 0x0FFFFFFF⟩ := by
  decide

/-! ## Steps of the life cycle (95_test_vectors.md section 7.6) -/

theorem test_step_accept : statusAfter (step (withEvents [.write 0x0C 4 0x4C100001])) = some (0x01, false) := by decide

theorem test_step_complete : statusAfter (step (inFlightWith 0x4C100001 [.complete])) = some (0x02, false)
    ∧ regAfter (step (inFlightWith 0x4C100001 [.complete])) 1 = some feOne := by decide

theorem test_step_busy_error : statusAfter (step (inFlightWith 0 [.write 0x0C 4 0x1C000000])) = some (0x35, false) := by decide

theorem test_step_illegal : statusAfter (step (withEvents [.write 0x0C 4 0x1C000001])) = some (0x14, false)
    ∧ statusAfter (step (withEvents [.write 0x0C 4 0x33E00000])) = some (0x24, false) := by decide

theorem test_fetch_word : regAfter (step (State.reset.withFetchWord 32 0x4C900001)) 9 = some feOne := by decide

/-! ## Witnesses: for each statement with hypotheses, what meets them -/

theorem test_witness_DecodeEncode : ∀ i ∈ [Instr.fmul2 62 62 62, .padd 61 61 61, .paddm 61 61 62, .selj 61 16 15,
    .sela 62 1 15, .fadd 63 63 63, .fadd 0 0 0], i.WellFormed := by decide

theorem test_witness_EncodeDecode : decode 0x44001005 = .command (.selj 0 16 5) ∧ (Instr.selj 3 2 1).row.hits 0x44001005 := by
  decide

theorem test_witness_CmdWriteOutcome :
    (erredWith [.write 0x0C 4 0]).status.err = true
      ∧ ((inFlightWith 0 [.write 0x0C 4 0]).status.err = false ∧ (inFlightWith 0 [.write 0x0C 4 0]).status.busy = true)
      ∧ ((withEvents [.write 0x0C 4 0]).status.err = false ∧ (withEvents [.write 0x0C 4 0]).status.busy = false)
      ∧ IllegalOpcode (fieldOp 0x1C000000) ∧ IllegalOpcode (fieldOp 0x50000000) ∧ IllegalOpcode (fieldOp 0xFC000000)
      ∧ ¬IllegalOpcode (fieldOp 0x4C000005) ∧ ∃ i : Instr, i.WellFormed ∧ encode i = 0x4C000004 :=
  ⟨by decide, by decide, by decide, by decide, by decide, by decide, by decide, .ldc 0 .pv, by decide⟩

/-- The word of the fourth clause is no command's: its opcode is LDC's and its constant number 5. -/
theorem test_witness_CmdWriteOutcome_operand : decode 0x4C000005 = .illegalOperand := by decide

theorem test_witness_AcceptEffect : (withEvents [.write 0x0C 4 0]).schedule = [.write 0x0C 4 0]
    ∧ (withEvents [.write 0x0C 4 0]).status.err = false ∧ (withEvents [.write 0x0C 4 0]).status.busy = false
    ∧ decode 0 = .command .nop := by decide

theorem test_witness_RaiseErrorEffect : ({ State.reset with ctrl := { ieDone := false, ieErr := true } }).ctrl.ieErr = true
    ∧ goesOn (exec .nop State.reset) = true
    ∧ (inFlightWith 0 [.write 0x0C 4 5, .complete]).schedule = [.write 0x0C 4 5, .complete]
    ∧ (inFlightWith 0 [.write 0x0C 4 5, .complete]).status.err = false
    ∧ (inFlightWith 0 [.write 0x0C 4 5, .complete]).status.busy = true
    ∧ decode (inFlightWith 0 [.write 0x0C 4 5, .complete]).cur = .command .nop
    ∧ goesOn (exec .nop ((inFlightWith 0 [.write 0x0C 4 5, .complete]).setSchedule [])) = true := by decide

theorem test_witness_StepRunsDecodedCommand :
    (∀ es ∈ [[], [.complete], [.statusWriteAtCompletion 6]], (inFlightWith 0x4C100001 es).status.busy = true
        ∧ decode (inFlightWith 0x4C100001 es).cur = .command (.ldc 1 .one) ∧ (inFlightWith 0x4C100001 es).schedule = es)
      ∧ (withEvents [.complete]).status.busy = false ∧ decodeTableWord 32 0 = some .nop := by decide

theorem test_witness_CommandFrame : goesOn (exec (.ldc 63 .one) State.reset) = true
    ∧ goesOn (exec (.tobig 63) State.reset) = true := by decide

theorem test_witness_CommandsReadOnlyTheirSources :
    (∀ r ∈ (Instr.ccopy 5 7 true).reads, InSlack ((withRegs [(7, gy)]).reg r))
      ∧ (∀ r ∈ (Instr.ccopy 5 7 true).reads, (withRegs [(7, gy), (6, gx)]).reg r = (withRegs [(7, gy)]).reg r)
      ∧ (Instr.ccopy 5 7 true).readsDinl = false ∧ goesOn (exec (.ccopy 5 7 true) (withRegs [(7, gy)])) = true
      ∧ (Instr.frombig 5).readsDinl = true ∧ (Instr.tobig 5).writesDout = true := by decide +kernel

theorem test_witness_EveryCommandCompletes : ∀ i ∈ [Instr.fsqr2 62 62, .pdbl 61 61, .selj 61 16 15, .nop], i.WellFormed := by
  decide

theorem test_witness_ResetValues :
    (withEvents [.hwReset]).ResetsNext ∧ (inFlightWith 0 [.write 0x04 4 0xFFFFFFFF]).ResetsNext
      ∧ (inFlightWith 0 [.write 0x04 4 1]).ResetsNext :=
  ⟨⟨[], .inl rfl⟩, ⟨[], .inr ⟨0xFFFFFFFF, by decide, rfl⟩⟩, ⟨[], .inr ⟨1, by decide, rfl⟩⟩⟩

theorem test_ldc_word : decode 0x4C100001 = .command (.ldc 1 .one) := by decide

/-- A state in flight meets the invariant. -/
theorem test_inv_in_flight (es : List Event) : (inFlightWith 0x4C100001 es).Inv := by
  have hr : ∀ r : Reg, InSlack ((State.reset.accept 0x4C100001).reg r) := by decide +kernel
  refine ⟨fun r => hr r, ⟨⟨fun _ => rfl, fun _ => rfl⟩, Nat.zero_le 3⟩, ?_, fun _ => ⟨rfl, .ldc 1 .one, test_ldc_word⟩⟩
  exact (by decide : portValue (Vector.replicate 8 0) < p)

theorem test_witness_StepKeepsInv : (inFlightWith 0x4C100001 []).Inv ∧ goesOn (step (inFlightWith 0x4C100001 [])) = true :=
  ⟨test_inv_in_flight [], by decide⟩

theorem test_witness_InvStatesGoOn :
    (inFlightWith 0x4C100001 [.read 0x08 2]).Inv ∧ accessDefined 0x08 2 = false ∧ accessDefined 0x02 4 = false
      ∧ accessDefined 0x100 4 = false ∧ (inFlightWith 0x4C100001 [.read 0xFC 4]).Inv ∧ accessDefined 0xFC 4 = true :=
  ⟨test_inv_in_flight _, by decide, by decide, by decide, test_inv_in_flight _, by decide⟩

theorem test_witness_ReservedAndIdOffsets :
    ∀ off ∈ [0x10, 0x1C, 0x60, 0xFC], (off % 4 = 0 ∧ ((0x10 ≤ off ∧ off < 0x20) ∨ (0x60 ≤ off ∧ off < 0x100)))
      ∧ (withEvents [.read off 4]).schedule = [.read off 4] ∧ (withEvents [.write off 4 7]).schedule = [.write off 4 7]
      ∧ (withEvents [.read 0 4]).schedule = [.read 0 4] ∧ (withEvents [.write 0 4 7]).schedule = [.write 0 4 7] := by decide

theorem test_witness_PortAccesses : ∀ k ∈ [0, 7], k < 8
    ∧ (withEvents [.write (0x20 + 4 * k) 4 9]).schedule = [.write (0x20 + 4 * k) 4 9]
    ∧ (withEvents [.write (0x40 + 4 * k) 4 9]).schedule = [.write (0x40 + 4 * k) 4 9]
    ∧ (withEvents [.read (0x20 + 4 * k) 4]).schedule = [.read (0x20 + 4 * k) 4]
    ∧ (withEvents [.read (0x40 + 4 * k) 4]).schedule = [.read (0x40 + 4 * k) 4]
    ∧ (withEvents [.read 0x0C 4]).schedule = [.read 0x0C 4] := by decide

theorem test_witness_CtrlRegister : (withEvents [.write 0x04 4 7]).schedule = [.write 0x04 4 7]
    ∧ BitVec.getLsbD (7 : Word) 0 = true ∧ BitVec.getLsbD (6 : Word) 0 = false
    ∧ (withEvents [.read 0x04 4]).schedule = [.read 0x04 4]
    ∧ (∃ s : State, s.ctrl.ieDone = true ∧ s.status.done = true) ∧ (∃ s : State, s.ctrl.ieErr = true ∧ s.status.err = true)
    ∧ State.reset.ctrl.ieDone = false ∧ State.reset.ctrl.ieErr = false :=
  ⟨by decide, by decide, by decide, by decide,
    ⟨{ State.reset with ctrl := ⟨true, false⟩, status := ⟨false, true, false, 0⟩ }, rfl, rfl⟩,
    ⟨{ State.reset with ctrl := ⟨false, true⟩, status := ⟨false, false, true, 1⟩ }, rfl, rfl⟩, rfl, rfl⟩

theorem test_witness_StatusRegister : (withEvents [.read 0x08 4]).schedule = [.read 0x08 4]
    ∧ (withEvents [.write 0x08 4 6]).schedule = [.write 0x08 4 6]
    ∧ (inFlightWith 0 [.statusWriteAtCompletion 6]).schedule = [.statusWriteAtCompletion 6]
    ∧ (inFlightWith 0 [.statusWriteAtCompletion 6]).status.busy = true
    ∧ decode (inFlightWith 0 [.statusWriteAtCompletion 6]).cur = .command .nop := by decide

theorem test_witness_ErrorIsSticky : (erredWith [.write 0x0C 4 0]).status.err = true
    ∧ goesOn (step (erredWith [.write 0x0C 4 0])) = true ∧ goesOn (step (erredWith [.write 0x08 4 4])) = true
    ∧ goesOn (step (erredWith [.hwReset])) = true := by decide

/-- A register changes, DOUT changes and BUSY falls at a completion; BUSY rises at an acceptance. -/
theorem test_witness_StateChangesOnlyAtCompletions :
    (regAfter (step (inFlightWith 0x4C100001 [])) 1 ≠ some ((inFlightWith 0x4C100001 []).reg 1))
      ∧ (doutAfter (step (((withRegs [(1, feOne)]).accept 0x24004000).setSchedule [])) = some 1)
      ∧ ((inFlightWith 0x4C100001 []).status.busy = true
          ∧ statusAfter (step (inFlightWith 0x4C100001 [])) = some (2, false))
      ∧ (withEvents [.write 0x0C 4 0]).status.busy = false
      ∧ statusAfter (step (withEvents [.write 0x0C 4 0])) = some (1, false) := by decide +kernel

theorem test_witness_ReadsHaveNoSideEffects : ∀ off ∈ [0x00, 0xFC], off % 4 = 0 ∧ off < 0x100
    ∧ (withEvents [.read off 4]).schedule = [.read off 4] := by decide

theorem test_witness_HostTrafficCannotDisturb :
    (∀ e ∈ [Event.write 0x0C 4 5, .write 0x20 4 9, .write 0x04 4 6, .read 0x40 4], e.Quiet)
      ∧ (inFlightWith 0x20100000 [.write 0x0C 4 5, .write 0x20 4 9, .write 0x04 4 6, .read 0x40 4, .complete]).status.busy
          = true
      ∧ decode 0x20100000 = .command (.frombig 1) := by
  refine ⟨?_, by decide, by decide⟩
  simp only [List.mem_cons, List.not_mem_nil, or_false, forall_eq_or_imp, forall_eq, Event.Quiet]
  decide

theorem test_witness_EveryAcceptedCommandCompletes :
    (inFlightWith 0x4C100001 [.read 0x08 4]).Inv ∧ (inFlightWith 0x4C100001 [.read 0x08 4]).status.busy = true
      ∧ ∀ e ∈ (inFlightWith 0x4C100001 [.read 0x08 4]).schedule, e.Defined := by
  refine ⟨test_inv_in_flight _, by decide, fun e he => ?_⟩
  rw [List.mem_singleton.mp he]
  exact (by decide : accessDefined 0x08 4 = true)

theorem test_witness_ReduceCarryLaws : ∀ c ∈ [0, 1, 7], c ≤ 7 ∧ (∀ i, i < 9 → limb fePV i < 2 ^ limbWidth i)
    ∧ ∀ i, i < 9 → limb FE.zero i < 2 ^ limbWidth i := by decide

/-- In-slack vectors, the extreme ones among them, for the statements about all in-slack vectors: AddLaws, SubLaws,
FieldLawsAddSub, WideMulLaws, ReduceDegreeClosedForm, MulLaws, SquareSymmetry, FieldLawsMul, ToBigLaws, DoubleFormulas,
DoubleOfInfinity, FullAddFormulas, MixedAddFormulas. -/
theorem test_witness_in_slack : InSlack largest ∧ InSlack FE.zero ∧ InSlack fePV ∧ InSlack twoPVector ∧ InSlack gx
    ∧ InSlack gy := by decide

/-- Two vectors m·p apart, for odd, zero and even m. -/
theorem test_witness_SubLaws : InSlack fePV ∧ InSlack FE.zero ∧ InSlack twoPVector
    ∧ (val fePV : Int) - val FE.zero = 1 * p ∧ (val FE.zero : Int) - val fePV = -1 * p
    ∧ (val largest : Int) - val largest = 0 * p ∧ (val twoPVector : Int) - val FE.zero = 2 * p := by decide +kernel

theorem test_witness_FieldLawsAddSub : (0 : Nat) < p ∧ p - 1 < p := by decide

theorem test_witness_ReduceDegreeClosedForm : wval [0] < 2 ^ 517 - 2 ^ 513 ∧ wval [2 ^ 517 - 2 ^ 513 - 1] < 2 ^ 517 - 2 ^ 513
    ∧ (0 < 2 ^ 257 ∧ (wval [0] + 0 * p) % 2 ^ 257 = 0) ∧ wval [2 ^ 29, 0] = wval [0, 1] ∧ [2 ^ 29, 0] ≠ [0, 1] := by
  decide +kernel

theorem test_witness_ReduceDegreeLaws : wval [] < 2 ^ 517 - 2 ^ 513 ∧ wval (wideMul largest largest) < 2 ^ 517 - 2 ^ 513 := by
  decide +kernel

theorem test_witness_MulLaws : (InSlack gx ∧ InSlack feOne ∧ val gx * val feOne = val feOne * val gx)
    ∧ (val gx * val feOne + val gx * val feOne * negPInv % 2 ^ 257 * p) / 2 ^ 257 / 2 ^ 257 = 0
    ∧ (0 < val (pack 1) ∧ val (pack 1) < 2 ^ 257) ∧ (0 < val (pack (2 ^ 257 - 1)) ∧ val (pack (2 ^ 257 - 1)) < 2 ^ 257)
    ∧ InSlack (pack 1) ∧ InSlack (pack (2 ^ 257 - 1)) := by decide +kernel

theorem test_witness_FromBigLaws : (0 : Nat) < 2 ^ 256 ∧ p < 2 ^ 256 ∧ p ≤ p ∧ 2 ^ 256 - 1 < 2 ^ 256 ∧ p ≤ 2 ^ 256 - 1
    ∧ val (fromBig p) % p = 0 := by decide +kernel

theorem test_witness_ToBigLaws : (InSlack fePV ∧ InSlack twoPVector ∧ val fePV % p = val twoPVector % p)
    ∧ p - 1 < p ∧ p ≤ p ∧ p < 2 ^ 256 ∧ p ≤ 2 ^ 256 - 1 := by decide

theorem test_witness_DoubleOfInfinity : (InSlack largest ∧ InSlack (pack 1) ∧ 0 < val (pack 1) ∧ val (pack 1) < 2 ^ 257)
    ∧ InSlack (pack (2 ^ 257 - 1)) ∧ 0 < val (pack (2 ^ 257 - 1)) ∧ val (pack (2 ^ 257 - 1)) < 2 ^ 257 := by decide +kernel

theorem test_witness_InfinityTest : pack (2 * p) ≠ FE.zero ∧ pack (2 * p) ≠ pack p ∧ toBig (pack (2 * p)) = 0 := by
  decide +kernel

/-- The three cases of FullAdd: z1 infinity in either encoding, z2 infinity, neither. -/
theorem test_witness_FullAddFormulas : isInfZ FE.zero = true ∧ isInfZ fePV = true ∧ isInfZ feOne = false
    ∧ isInfZ twoG.z = false ∧ InSlack twoG.x ∧ InSlack twoG.y ∧ InSlack twoG.z := by decide

/-- G twice, 2G twice: the same affine point; for G the bounds of the last clause hold. -/
theorem test_witness_FullAddDegenerate : isInfZ feOne = false ∧ isInfZ twoG.z = false
    ∧ val (sub (mul gx (square feOne)) (mul gx (square feOne))) * val feOne ≤ p * 2 ^ 257 ∧ val feOne ≤ 2 ^ 257
    ∧ InSlack gx ∧ InSlack gy ∧ InSlack feOne := by decide +kernel

/-- The field equations of the degenerate case for G and G, where Z is the vector ONE. -/
theorem test_witness_FullAddDegenerate_equations :
    (toBig gx : ZMod p) * (toBig feOne) ^ 2 = toBig gx * (toBig feOne) ^ 2
      ∧ (toBig gy : ZMod p) * (toBig feOne) ^ 3 = toBig gy * (toBig feOne) ^ 3 := ⟨rfl, rfl⟩

/-- G and its affine form meet the premises of the last clause. -/
theorem test_witness_MixedAddFormulas : feOne ≠ FE.zero ∧ (toBig gx : ZMod p) = toBig gx * (toBig feOne) ^ 2
    ∧ (toBig gy : ZMod p) = toBig gy * (toBig feOne) ^ 3 := by
  have h : toBig feOne = 1 := by decide +kernel
  rw [h]
  exact ⟨by decide, by simp, by simp⟩

/-- Every register of a state with non-zero vectors is in slack, for FaddFsubResult, FmulFsqrResult, Fmul2Result, Fsqr2Result,
TobigResult, PdblResult, PaddResult, PaddmResult, SeljResult and CcopyResult. -/
theorem test_witness_command_registers : ∀ r : Reg, InSlack (points.reg r) := by decide +kernel

/-- The register limits of Fmul2Result, Fsqr2Result, PdblResult, PaddResult, PaddmResult, SelaResult and SeljResult at their
ends. -/
theorem test_witness_command_limits : (62 : Reg).val ≤ 62 ∧ (0 : Reg).val ≤ 62 ∧ (61 : Reg).val ≤ 61 ∧ (16 : Reg).val ≤ 16
    ∧ regPlus 62 1 = 63 ∧ regPlus 61 2 = 63 ∧ regPlus 16 47 = 63 := by decide

/-- SELA of entry 0 and CCOPY of one register to itself: the premises of their last clauses. -/
theorem test_witness_SelaResult_CcopyResult : ((0 : Fin 16) = 0 ∧ (62 : Reg).val ≤ 62) ∧ (false = false ∨ (3 : Reg) = 3)
    ∧ (true = false ∨ (3 : Reg) = 3) := by decide

/-! ## The host layer -/

/-- `2 · (p + 1)/2 = p + 1`, and `(p − 1)² = p² − 2p + 1`: the inverses of 2 and of p − 1 modulo p. -/
theorem test_inverseModP : inverseModP 2 = (p + 1) / 2 ∧ inverseModP (p - 1) = p - 1 ∧ inverseModP 1 = 1 := by decide +kernel

/-- PMOV f4, f3 copies from the last register down, PMOV f3, f4 from the first up (R110). -/
theorem test_pmov_order : pmov 4 3 = [.ccopy 6 5 true, .ccopy 5 4 true, .ccopy 4 3 true]
    ∧ pmov 3 4 = [.ccopy 3 4 true, .ccopy 4 5 true, .ccopy 5 6 true] := by decide

/-- The bounds of X and Y at both ends, an all-zero Z, and the Z of G, which is 1. -/
theorem test_witness_HostProceduresReturn : (points.status.err = false ∧ points.status.busy = false)
    ∧ (State.reset.status.err = false ∧ State.reset.status.busy = false) ∧ (0 : Nat) < 2 ^ 256 ∧ 2 ^ 256 - 1 < 2 ^ 256
    ∧ (InSlack (points.reg 0) ∧ InSlack (points.reg 1) ∧ InSlack (points.reg 2) ∧ Nat.Coprime p (toBig (points.reg 2)))
    ∧ InSlack (State.reset.reg 0) ∧ InSlack (State.reset.reg 1) ∧ InSlack (State.reset.reg 2)
    ∧ toBig (State.reset.reg 2) = 0 := by decide +kernel

end Sys2Proof.Tests
end

section
/-! SUPPORT. Proofs about the state: reset, the map accesses, the completion step and the frame of a command. -/

namespace Sys2Proof.Machine

section StateRules

variable (s : State)

/-! Events: a defined host access and a completion instant, as the step carries them out. -/

theorem step_read {off size : Nat} {rest : List Event} (h : s.schedule = .read off size :: rest)
    (hd : accessDefined off size = true) : step s = .next ((s.setSchedule rest).setRdata (s.mapRead off)) := by
  rw [step_of_schedule s h, runEvent, if_pos hd]
  rfl

theorem step_write {off size : Nat} {v : Word} {rest : List Event} (h : s.schedule = .write off size v :: rest)
    (hd : accessDefined off size = true) : step s = .next ((s.setSchedule rest).mapWrite off v) := by
  rw [step_of_schedule s h, runEvent, if_pos hd]

theorem completionInstant_of_command {i : Instr} (hb : s.status.busy = true) (hd : decode s.cur = .command i) :
    completionInstant s = exec i s := by
  simp only [completionInstant, completeCommand, hb, hd, if_true]

theorem completionInstant_of_idle (hb : s.status.busy = false) : completionInstant s = .next s := by
  simp [completionInstant, hb]

/-! The register map at ID and CTRL (R35, R38). -/

/-- ID reads its constant in every state (R38). -/
@[simp] theorem State.mapRead_id : s.mapRead 0x00 = 0x534D3246 := rfl

@[simp] theorem State.mapRead_ctrl : s.mapRead 0x04 = s.ctrl.word := rfl

@[simp] theorem State.mapWrite_ctrl (v : Word) : s.mapWrite 0x04 v = s.ctrlWrite v := rfl

theorem State.ctrlWrite_of_srst {v : Word} (h : v.getLsbD 0 = true) : s.ctrlWrite v = s.doReset := if_pos h

theorem State.ctrlWrite_of_not_srst {v : Word} (h : v.getLsbD 0 = false) : s.ctrlWrite v = s.setCtrl (Ctrl.ofWord v) :=
  if_neg (by rw [h]; decide)

/-! The interrupt line (R35, R280). -/

theorem State.irq_of_done (hc : s.ctrl.ieDone = true) (hs : s.status.done = true) : s.irq = true := by
  simp [State.irq, hc, hs]

theorem State.irq_of_err (hc : s.ctrl.ieErr = true) (hs : s.status.err = true) : s.irq = true := by
  simp [State.irq, hc, hs]

theorem State.irq_of_disabled (hd : s.ctrl.ieDone = false) (he : s.ctrl.ieErr = false) : s.irq = false := by
  simp [State.irq, hd, he]

end StateRules

/-! CTRL as the host reads it (R35). -/

@[simp] theorem Ctrl.getLsbD_word_zero (c : Ctrl) : c.word.getLsbD 0 = false := by
  obtain ⟨d, e⟩ := c
  cases d <;> cases e <;> decide

@[simp] theorem Ctrl.getLsbD_word_one (c : Ctrl) : c.word.getLsbD 1 = c.ieDone := by
  obtain ⟨d, e⟩ := c
  cases d <;> cases e <;> decide

@[simp] theorem Ctrl.getLsbD_word_two (c : Ctrl) : c.word.getLsbD 2 = c.ieErr := by
  obtain ⟨d, e⟩ := c
  cases d <;> cases e <;> decide

/-- The reserved bits read 0: the word is below 2^3. -/
theorem Ctrl.getLsbD_word_reserved (c : Ctrl) {b : Nat} (h : 3 ≤ b) : c.word.getLsbD b = false := by
  have hw : c.word.toNat < 2 ^ 3 := by
    obtain ⟨d, e⟩ := c
    cases d <;> cases e <;> decide
  exact Nat.testBit_lt_two_pow (hw.trans_le (Nat.pow_le_pow_right (by decide) h))

/-- Settles O18: the map accesses at CTRL, the bits of its word, and the two enables of the interrupt line. -/
theorem ctrlRegister : Obligations.CtrlRegister := by
  have hd : accessDefined 0x04 4 = true := by decide
  refine ⟨fun s v rest h => ?_, fun s rest h => ?_, fun s => ?_, rfl⟩
  · have hstep := step_write s h hd
    rw [State.mapWrite_ctrl] at hstep
    refine ⟨fun hv => ?_, fun hv => ?_⟩
    · rw [hstep, State.ctrlWrite_of_srst _ hv]
    · rw [hstep, State.ctrlWrite_of_not_srst _ hv]
      rfl
  · refine ⟨_, step_read s h hd, ?_⟩
    rw [State.setRdata_rdata, State.mapRead_ctrl]
    exact ⟨Ctrl.getLsbD_word_zero _, Ctrl.getLsbD_word_one _, Ctrl.getLsbD_word_two _,
      fun b hb => Ctrl.getLsbD_word_reserved _ hb⟩
  · exact ⟨s.irq_of_done, s.irq_of_err, s.irq_of_disabled⟩

/-! What a command leaves alone (R30, R31). -/

section Frame

variable (s : State)

theorem State.reg_mulLane_ne (slot : Nat) {rd ra rb r : Reg} (h : r ≠ rd) : (s.mulLane slot rd ra rb).reg r = s.reg r :=
  s.reg_setReg_ne _ h

theorem State.reg_squareLane_ne (slot : Nat) {rd ra r : Reg} (h : r ≠ rd) : (s.squareLane slot rd ra).reg r = s.reg r :=
  s.reg_setReg_ne _ h

/-- A command writes no register outside its write set (R30). -/
theorem reg_effect_of_not_mem_writes {i : Instr} {r : Reg} (h : r ∉ i.writes) : (effect i s).reg r = s.reg r := by
  cases i with
  | nop => rfl
  | tobig ra => rfl
  | fadd rd _ _ | fsub rd _ _ | fmul rd _ _ | fsqr rd _ | frombig rd | ccopy rd _ _ | ldc rd _ =>
    exact s.reg_setReg_ne _ (List.ne_of_not_mem_cons h)
  | fmul2 rd ra rb =>
    obtain ⟨h0, h1⟩ : r ≠ rd ∧ r ≠ regPlus rd 1 := by simpa [Instr.writes] using h
    rw [effect, State.reg_mulLane_ne _ _ h1, State.reg_mulLane_ne _ _ h0]
  | fsqr2 rd ra =>
    obtain ⟨h0, h1⟩ : r ≠ rd ∧ r ≠ regPlus rd 1 := by simpa [Instr.writes] using h
    rw [effect, State.reg_squareLane_ne _ _ h1, State.reg_squareLane_ne _ _ h0]
  | sela rd g idx =>
    obtain ⟨h0, h1⟩ : r ≠ rd ∧ r ≠ regPlus rd 1 := by simpa [Instr.writes] using h
    exact s.reg_setAffine_ne _ h0 h1
  | pdbl rd _ | padd rd _ _ | paddm rd _ _ | selj rd _ _ =>
    obtain ⟨h0, h1, h2⟩ : r ≠ rd ∧ r ≠ regPlus rd 1 ∧ r ≠ regPlus rd 2 := by simpa [Instr.writes] using h
    exact s.reg_setPoint_ne _ h0 h1 h2

/-- Only TOBIG writes DOUT (R31). -/
theorem effect_dout_of_not_writesDout {i : Instr} (h : i.writesDout = false) : (effect i s).dout = s.dout := by
  cases i with
  | tobig ra => cases h
  | _ => rfl

/-- A completed command changed its write set, BUSY and DONE, and DOUT if it is a TOBIG. -/
theorem completedWriting_finish_effect (i : Instr) :
    CompletedWriting i.writes i.writesDout s (effect i s).finish :=
  ⟨fun _ h => reg_effect_of_not_mem_writes s h, effect_dout_of_not_writesDout s, effect_din i s, effect_ctrl i s,
    congrArg Status.completed (effect_status i s), effect_cur i s, effect_dinl i s, effect_rdata i s, effect_schedule i s⟩

end Frame

/-- Settles O9, from the frame of a command's effect. -/
theorem commandFrame : Obligations.CommandFrame := by
  refine ⟨fun i s t h => ?_, fun s w => ?_⟩
  · obtain ⟨-, rfl⟩ := exec_eq_next h
    exact ⟨completedWriting_finish_effect s i, State.mapRead_id _⟩
  · exact ⟨rfl, s.accept_ctrl w, s.accept_din w, s.accept_dout w, State.mapRead_id _⟩

/-! The command that a completion runs (R274, logs 7 and 17). -/

/-- The decoder's word is the command's one 32-bit word. -/
theorem decodeTableWord_eq_some {nbits w : Nat} {i : Instr} (h : decodeTableWord nbits w = some i) :
    decode (BitVec.ofNat 32 (w % 2 ^ nbits)) = .command i := by
  unfold decodeTableWord at h
  split at h
  · rename_i j hj
    cases h
    exact hj
  · cases h
  · cases h

/-- The step after acceptance runs the accepted word on the state that accepted it. -/
theorem step_inFlight (s : State) {w : Word} {i : Instr} (hd : decode w = .command i) :
    step (s.inFlight w) = exec i (s.accept w) :=
  (step_of_schedule (s.inFlight w) rfl).trans (completionInstant_of_command (s.accept w) rfl hd)

/-- Settles O8: each schedule comes down to one completion instant, with the command in flight or idle. -/
theorem stepRunsDecodedCommand : Obligations.StepRunsDecodedCommand := by
  refine ⟨fun s i hb hd => ⟨fun h => ?_, fun rest h => ?_, fun v rest h => ?_⟩, fun s rest hb h => ?_, fun s nbits w i h => ?_⟩
  · exact (step_of_empty s h).trans (completionInstant_of_command s hb hd)
  · exact (step_of_schedule s h).trans (completionInstant_of_command (s.setSchedule rest) hb hd)
  · exact (step_of_schedule s h).trans (completionInstant_of_command ((s.setSchedule rest).clearFlags v) hb hd)
  · exact (step_of_schedule s h).trans (completionInstant_of_idle (s.setSchedule rest) hb)
  · exact step_inFlight s (decodeTableWord_eq_some h)

/-! Reset (R43, R300). -/

/-- Either reset source does the reset of R43. -/
theorem step_of_resetsNext {s : State} (h : s.ResetsNext) : ∃ rest, step s = .next (s.setSchedule rest).doReset := by
  obtain ⟨rest, h | ⟨v, hv, h⟩⟩ := h
  · exact ⟨rest, step_of_schedule s h⟩
  · refine ⟨rest, ?_⟩
    rw [step_write s h (by decide), State.mapWrite_ctrl, State.ctrlWrite_of_srst _ hv]

@[simp] theorem State.reg_reset (r : Reg) : State.reset.reg r = FE.zero := State.reg_doReset State.reset r

theorem State.reset_ports {k : Nat} (h : k < 8) : State.reset.din[k] = 0 ∧ State.reset.dout[k] = 0 :=
  ⟨Vector.getElem_replicate h, Vector.getElem_replicate h⟩

@[simp] theorem val_zero : val FE.zero = 0 := by decide

@[simp] theorem toBig_zero : toBig FE.zero = 0 := by simp [toBig_eq]

@[simp] theorem isInfZ_zero : isInfZ FE.zero = true := by decide

/-- Settles O12: both sources do the same reset, whose fields are those of the state after reset. -/
theorem resetValues : Obligations.ResetValues := by
  refine ⟨fun s h => ?_, State.reg_reset, fun k hk => State.reset_ports hk, rfl, rfl, rfl, rfl, rfl⟩
  obtain ⟨rest, hstep⟩ := step_of_resetsNext h
  refine ⟨_, hstep, fun r => ?_, fun k hk => State.reset_ports hk, rfl, rfl, rfl, rfl, rfl, State.mapRead_id _,
    completionInstant_of_idle _ rfl⟩
  rw [State.reg_doReset]
  exact ⟨rfl, zero_inSlack, val_zero, toBig_zero, isInfZ_zero⟩

end Sys2Proof.Machine
end

section
/-! SUPPORT. Proofs about the register map: the accesses that have no effect (R38, R73). -/

namespace Sys2Proof.Machine

theorem accessDefined_of_aligned {off : Nat} (ha : off % 4 = 0) (hw : off < 0x100) : accessDefined off 4 = true := by
  simp [accessDefined, ha, hw]

section RegisterMap

variable (s : State) {off : Nat}

/-- Every offset outside CTRL, STATUS, CMD and DIN ignores a write (R34, R38, R73). -/
theorem State.mapWrite_of_ignored (hctrl : off ≠ 0x04) (hstatus : off ≠ 0x08) (hcmd : off ≠ 0x0C)
    (hdin : ¬(0x20 ≤ off ∧ off < 0x40)) (v : Word) : s.mapWrite off v = s := by
  rw [State.mapWrite, if_neg hctrl, if_neg hstatus, if_neg hcmd, if_neg hdin]

/-- ID ignores a write (R38). -/
@[simp] theorem State.mapWrite_id (v : Word) : s.mapWrite 0x00 v = s :=
  s.mapWrite_of_ignored (by decide) (by decide) (by decide) (by decide) v

/-- A reserved offset reads 0 (R73). -/
theorem State.mapRead_of_reserved (h : (0x10 ≤ off ∧ off < 0x20) ∨ (0x60 ≤ off ∧ off < 0x100)) :
    s.mapRead off = 0 := by
  rw [State.mapRead, if_neg (by omega), if_neg (by omega), if_neg (by omega), dif_neg (by omega), dif_neg (by omega)]

/-- A reserved offset ignores a write (R73). -/
theorem State.mapWrite_of_reserved (h : (0x10 ≤ off ∧ off < 0x20) ∨ (0x60 ≤ off ∧ off < 0x100)) (v : Word) :
    s.mapWrite off v = s :=
  s.mapWrite_of_ignored (by omega) (by omega) (by omega) (by omega) v

end RegisterMap

/-- Settles O16: reserved offsets and ID are defined accesses, whose step leaves only the word read and the rest of the
schedule. -/
theorem reservedAndIdOffsets : Obligations.ReservedAndIdOffsets := by
  have hid : accessDefined 0x00 4 = true := by decide
  refine fun s off rest => ⟨fun ha hr => ?_, fun h => ?_, fun v h => ?_⟩
  · have hd : accessDefined off 4 = true := accessDefined_of_aligned ha (by omega)
    refine ⟨fun h => ?_, fun v h => ?_⟩
    · rw [step_read s h hd, State.mapRead_of_reserved s hr]
      rfl
    · rw [step_write s h hd, State.mapWrite_of_reserved _ hr]
      rfl
  · rw [step_read s h hid, State.mapRead_id]
    rfl
  · rw [step_write s h hid, State.mapWrite_id]
    rfl

end Sys2Proof.Machine
end

section
/-! SUPPORT. Proofs about the decoder: the fields a row of the opcode map fixes, and the decoder from the fields (R105 to
R108). -/

namespace Sys2Proof.Machine

/-! A word through its fields. -/

theorem bits_lt (w : Word) (hi lo : Nat) : bits w hi lo < 2 ^ (hi + 1 - lo) := Nat.mod_lt _ (Nat.two_pow_pos _)

/-- A word is its five fields (R101). -/
theorem eq_iff_fields (v w : Word) :
    v = w ↔ fieldOp v = fieldOp w ∧ fieldRd v = fieldRd w ∧ fieldRa v = fieldRa w ∧ fieldRb v = fieldRb w
      ∧ fieldImm v = fieldImm w := by
  refine ⟨fun h => h ▸ ⟨rfl, rfl, rfl, rfl, rfl⟩, fun ⟨hop, hrd, hra, hrb, himm⟩ => BitVec.eq_of_toNat_eq ?_⟩
  rw [toNat_eq_fields v, hop, hrd, hra, hrb, himm, ← toNat_eq_fields w]

theorem bits_and (v w : Word) (hi lo : Nat) : bits (v &&& w) hi lo = bits v hi lo &&& bits w hi lo := by
  simp only [bits, BitVec.toNat_and, Nat.and_div_two_pow, Nat.and_mod_two_pow]

@[simp] theorem regOf_fieldRd (w : Word) : (regOf (fieldRd w)).val = fieldRd w := regOf_toNat (bits_lt w 25 20)

@[simp] theorem regOf_fieldRa (w : Word) : (regOf (fieldRa w)).val = fieldRa w := regOf_toNat (bits_lt w 19 14)

@[simp] theorem regOf_fieldRb (w : Word) : (regOf (fieldRb w)).val = fieldRb w := regOf_toNat (bits_lt w 13 8)

/-- The group of SELA (R103). -/
@[simp] theorem ofNat_bits_group (w : Word) : (Fin.ofNat 2 (bits w 4 4)).val = bits w 4 4 :=
  Nat.mod_eq_of_lt (bits_lt w 4 4)

/-- The entry of SELA and SELJ (R103). -/
@[simp] theorem ofNat_bits_entry (w : Word) : (Fin.ofNat 16 (bits w 3 0)).val = bits w 3 0 :=
  Nat.mod_eq_of_lt (bits_lt w 3 0)

/-- The condition of CCOPY (R103). -/
@[simp] theorem toNat_bits_condition (w : Word) : (bits w 0 0 == 1).toNat = bits w 0 0 := by
  have h : bits w 0 0 = 0 ∨ bits w 0 0 = 1 := by
    have := bits_lt w 0 0
    omega
  rcases h with h | h <;> rw [h] <;> rfl

/-! Masked fields: a full mask keeps the field, a mask over its high bits tests them. -/

@[simp] theorem fieldRd_and_full (w : Word) : fieldRd w &&& 63 = fieldRd w :=
  Nat.and_two_pow_sub_one_of_lt_two_pow (n := 6) (bits_lt w 25 20)

@[simp] theorem fieldRa_and_full (w : Word) : fieldRa w &&& 63 = fieldRa w :=
  Nat.and_two_pow_sub_one_of_lt_two_pow (n := 6) (bits_lt w 19 14)

@[simp] theorem fieldRb_and_full (w : Word) : fieldRb w &&& 63 = fieldRb w :=
  Nat.and_two_pow_sub_one_of_lt_two_pow (n := 6) (bits_lt w 13 8)

@[simp] theorem fieldImm_and_full (w : Word) : fieldImm w &&& 255 = fieldImm w :=
  Nat.and_two_pow_sub_one_of_lt_two_pow (n := 8) (bits_lt w 7 0)

theorem fieldOp_and_full (w : Word) : fieldOp w &&& 63 = fieldOp w :=
  Nat.and_two_pow_sub_one_of_lt_two_pow (n := 6) (bits_lt w 31 26)

/-- A mask of n ones above k zeros keeps n bits. -/
theorem and_ones_mul_two_pow (x n k : Nat) : x &&& (2 ^ n - 1) * 2 ^ k = x / 2 ^ k % 2 ^ n * 2 ^ k := by
  rw [← Nat.and_two_pow_sub_one_eq_mod]
  refine Nat.eq_of_testBit_eq fun j => ?_
  rw [Nat.testBit_and, Nat.testBit_mul_two_pow, Nat.testBit_mul_two_pow, Nat.testBit_and, Nat.testBit_div_two_pow]
  by_cases hj : k ≤ j
  · simp [hj]
  · simp [hj]

/-- A mask over bits 7:k of the immediate tests whether they are 0. -/
theorem fieldImm_and_high_eq_zero (w : Word) {k : Nat} (hk : k ≤ 7) :
    fieldImm w &&& (2 ^ (8 - k) - 1) * 2 ^ k = 0 ↔ bits w 7 k = 0 := by
  rw [and_ones_mul_two_pow, bits_of_imm w (by decide) hk, Nat.mul_eq_zero]
  exact or_iff_left (Nat.two_pow_pos k).ne'

/-! The rows of the opcode map (R105). -/

/-- The fields, and parts of the immediate, that the command's format leaves unused are 0 (R107). -/
def unusedZero (w : Word) : Instr → Bool
  | .nop => fieldRd w == 0 && fieldRa w == 0 && fieldRb w == 0 && fieldImm w == 0
  | .fadd _ _ _ | .fsub _ _ _ | .fmul _ _ _ | .fmul2 _ _ _ | .padd _ _ _ | .paddm _ _ _ => fieldImm w == 0
  | .fsqr _ _ | .fsqr2 _ _ | .pdbl _ _ => fieldRb w == 0 && fieldImm w == 0
  | .frombig _ => fieldRa w == 0 && fieldRb w == 0 && fieldImm w == 0
  | .tobig _ => fieldRd w == 0 && fieldRb w == 0 && fieldImm w == 0
  | .sela _ _ _ => fieldRa w == 0 && fieldRb w == 0 && bits w 7 5 == 0
  | .selj _ _ _ => fieldRa w == 0 && bits w 7 4 == 0
  | .ccopy _ _ _ => fieldRb w == 0 && bits w 7 1 == 0
  | .ldc _ _ => fieldRa w == 0 && fieldRb w == 0 && bits w 7 3 == 0

/-- The pattern of a row is its opcode alone (R105). -/
theorem fields_row_pattern (i : Instr) :
    fieldOp i.row.pattern = Laws.opcode i ∧ fieldRd i.row.pattern = 0 ∧ fieldRa i.row.pattern = 0
      ∧ fieldRb i.row.pattern = 0 ∧ fieldImm i.row.pattern = 0 := by
  cases i <;> simp only [Instr.row, Laws.opcode] <;> decide

/-- The mask of a row takes the whole opcode (R105). -/
theorem fieldOp_row_mask (i : Instr) : fieldOp i.row.mask = 63 := by
  cases i <;> simp only [Instr.row] <;> decide

/-- A row tests the opcode, and each other field under its own part of the mask. -/
theorem row_hits_iff_masked (i : Instr) (w : Word) :
    i.row.hits w = true ↔ fieldOp w = Laws.opcode i ∧ fieldRd w &&& fieldRd i.row.mask = 0
      ∧ fieldRa w &&& fieldRa i.row.mask = 0 ∧ fieldRb w &&& fieldRb i.row.mask = 0
      ∧ fieldImm w &&& fieldImm i.row.mask = 0 := by
  obtain ⟨hop, hrd, hra, hrb, himm⟩ := fields_row_pattern i
  have hmask : fieldOp (w &&& i.row.mask) = fieldOp w := by
    rw [fieldOp, bits_and, ← fieldOp, ← fieldOp, fieldOp_row_mask, fieldOp_and_full]
  rw [OpcodeRow.hits, beq_iff_eq, eq_iff_fields, hop, hrd, hra, hrb, himm, hmask]
  simp only [fieldRd, fieldRa, fieldRb, fieldImm, bits_and]

/-- A word matches the row of a command exactly when it has the command's opcode and its unused fields are 0. -/
theorem row_hits_iff (i : Instr) (w : Word) :
    i.row.hits w = true ↔ fieldOp w = Laws.opcode i ∧ unusedZero w i = true := by
  refine (row_hits_iff_masked i w).trans (and_congr_right' ?_)
  cases i with
  | nop =>
    simp only [Instr.row]
    change fieldRd w &&& 63 = 0 ∧ fieldRa w &&& 63 = 0 ∧ fieldRb w &&& 63 = 0 ∧ fieldImm w &&& 255 = 0 ↔ _
    simp [unusedZero, and_assoc]
  | fadd | fsub | fmul | fmul2 | padd | paddm =>
    simp only [Instr.row]
    change fieldRd w &&& 0 = 0 ∧ fieldRa w &&& 0 = 0 ∧ fieldRb w &&& 0 = 0 ∧ fieldImm w &&& 255 = 0 ↔ _
    simp [unusedZero]
  | fsqr | fsqr2 | pdbl =>
    simp only [Instr.row]
    change fieldRd w &&& 0 = 0 ∧ fieldRa w &&& 0 = 0 ∧ fieldRb w &&& 63 = 0 ∧ fieldImm w &&& 255 = 0 ↔ _
    simp [unusedZero]
  | frombig =>
    simp only [Instr.row]
    change fieldRd w &&& 0 = 0 ∧ fieldRa w &&& 63 = 0 ∧ fieldRb w &&& 63 = 0 ∧ fieldImm w &&& 255 = 0 ↔ _
    simp [unusedZero, and_assoc]
  | tobig =>
    simp only [Instr.row]
    change fieldRd w &&& 63 = 0 ∧ fieldRa w &&& 0 = 0 ∧ fieldRb w &&& 63 = 0 ∧ fieldImm w &&& 255 = 0 ↔ _
    simp [unusedZero, and_assoc]
  | sela =>
    simp only [Instr.row]
    change fieldRd w &&& 0 = 0 ∧ fieldRa w &&& 63 = 0 ∧ fieldRb w &&& 63 = 0
      ∧ fieldImm w &&& (2 ^ (8 - 5) - 1) * 2 ^ 5 = 0 ↔ _
    rw [fieldImm_and_high_eq_zero w (k := 5) (by decide)]
    simp [unusedZero, and_assoc]
  | selj =>
    simp only [Instr.row]
    change fieldRd w &&& 0 = 0 ∧ fieldRa w &&& 63 = 0 ∧ fieldRb w &&& 0 = 0
      ∧ fieldImm w &&& (2 ^ (8 - 4) - 1) * 2 ^ 4 = 0 ↔ _
    rw [fieldImm_and_high_eq_zero w (k := 4) (by decide)]
    simp [unusedZero]
  | ccopy =>
    simp only [Instr.row]
    change fieldRd w &&& 0 = 0 ∧ fieldRa w &&& 0 = 0 ∧ fieldRb w &&& 63 = 0
      ∧ fieldImm w &&& (2 ^ (8 - 1) - 1) * 2 ^ 1 = 0 ↔ _
    rw [fieldImm_and_high_eq_zero w (k := 1) (by decide)]
    simp [unusedZero]
  | ldc =>
    simp only [Instr.row]
    change fieldRd w &&& 0 = 0 ∧ fieldRa w &&& 63 = 0 ∧ fieldRb w &&& 63 = 0
      ∧ fieldImm w &&& (2 ^ (8 - 3) - 1) * 2 ^ 3 = 0 ↔ _
    rw [fieldImm_and_high_eq_zero w (k := 3) (by decide)]
    simp [unusedZero, and_assoc]

/-! The decoder from the fields (R106 to R108). -/

/-- A word with an instruction's opcode and operands is decoded by that instruction's operand tests. -/
theorem decode_eq_commandIf {w : Word} {i : Instr} (hop : fieldOp w = Laws.opcode i) (hf : i.FieldsAre w) :
    decode w = commandIf (unusedZero w i) i := by
  cases i with
  | nop => simp only [decode, hop, Laws.opcode, unusedZero]
  | fadd | fsub | fmul | fmul2 | padd | paddm =>
    obtain ⟨hrd, hra, hrb⟩ := hf
    simp only [decode, hop, Laws.opcode, unusedZero, hrd, hra, hrb, regOf_val]
  | fsqr | fsqr2 | pdbl =>
    obtain ⟨hrd, hra⟩ := hf
    simp only [decode, hop, Laws.opcode, unusedZero, hrd, hra, regOf_val]
  | frombig =>
    have hrd : fieldRd w = _ := hf
    simp only [decode, hop, Laws.opcode, unusedZero, hrd, regOf_val]
  | tobig =>
    have hra : fieldRa w = _ := hf
    simp only [decode, hop, Laws.opcode, unusedZero, hra, regOf_val]
  | sela rd g idx =>
    obtain ⟨hrd, hg, hidx⟩ := hf
    simp only [decode, hop, Laws.opcode, unusedZero, hrd, hg, hidx, regOf_val, Fin.ofNat_val_eq_self]
  | selj rd rb idx =>
    obtain ⟨hrd, hrb, hidx⟩ := hf
    simp only [decode, hop, Laws.opcode, unusedZero, hrd, hrb, hidx, regOf_val, Fin.ofNat_val_eq_self]
  | ccopy rd ra c =>
    obtain ⟨hrd, hra, hc⟩ := hf
    have hcond : (c.toNat == 1) = c := by cases c <;> rfl
    simp only [decode, hop, Laws.opcode, unusedZero, hrd, hra, hc, hcond, regOf_val]
  | ldc rd k =>
    obtain ⟨hrd, hk⟩ := hf
    simp only [decode, hop, Laws.opcode, unusedZero, hrd, hk, ConstId.ofNum_num, ldcIf, regOf_val]

/-- A word of a legal opcode has the opcode and the operands of some instruction, unless it is an LDC whose number names
no constant. -/
theorem exists_fieldsAre {w : Word} (h : ¬IllegalOpcode (fieldOp w)) :
    (∃ i : Instr, fieldOp w = Laws.opcode i ∧ i.FieldsAre w)
      ∨ (fieldOp w = 0x13 ∧ ConstId.ofNum (bits w 2 0) = none) := by
  have hrd := (regOf_fieldRd w).symm
  have hra := (regOf_fieldRa w).symm
  have hrb := (regOf_fieldRb w).symm
  have hcases : fieldOp w = 0x00 ∨ fieldOp w = 0x01 ∨ fieldOp w = 0x02 ∨ fieldOp w = 0x03 ∨ fieldOp w = 0x04
      ∨ fieldOp w = 0x05 ∨ fieldOp w = 0x06 ∨ fieldOp w = 0x08 ∨ fieldOp w = 0x09 ∨ fieldOp w = 0x0C ∨ fieldOp w = 0x0D
      ∨ fieldOp w = 0x0E ∨ fieldOp w = 0x10 ∨ fieldOp w = 0x11 ∨ fieldOp w = 0x12 ∨ fieldOp w = 0x13 := by
    have := bits_lt w 31 26
    unfold IllegalOpcode fieldOp at *
    omega
  rcases hcases with h | h | h | h | h | h | h | h | h | h | h | h | h | h | h | h
  · exact .inl ⟨.nop, h, trivial⟩
  · exact .inl ⟨.fadd _ _ _, h, hrd, hra, hrb⟩
  · exact .inl ⟨.fsub _ _ _, h, hrd, hra, hrb⟩
  · exact .inl ⟨.fmul _ _ _, h, hrd, hra, hrb⟩
  · exact .inl ⟨.fsqr _ _, h, hrd, hra⟩
  · exact .inl ⟨.fmul2 _ _ _, h, hrd, hra, hrb⟩
  · exact .inl ⟨.fsqr2 _ _, h, hrd, hra⟩
  · exact .inl ⟨.frombig _, h, hrd⟩
  · exact .inl ⟨.tobig _, h, hra⟩
  · exact .inl ⟨.pdbl _ _, h, hrd, hra⟩
  · exact .inl ⟨.padd _ _ _, h, hrd, hra, hrb⟩
  · exact .inl ⟨.paddm _ _ _, h, hrd, hra, hrb⟩
  · exact .inl ⟨.sela _ _ _, h, hrd, (ofNat_bits_group w).symm, (ofNat_bits_entry w).symm⟩
  · exact .inl ⟨.selj _ _ _, h, hrd, hrb, (ofNat_bits_entry w).symm⟩
  · exact .inl ⟨.ccopy _ _ _, h, hrd, hra, (toNat_bits_condition w).symm⟩
  · cases hk : ConstId.ofNum (bits w 2 0) with
    | none => exact .inr ⟨h, rfl⟩
    | some k => exact .inl ⟨.ldc _ k, h, hrd, (ConstId.num_of_ofNum hk).symm⟩

theorem decode_of_illegalOpcode {w : Word} (h : IllegalOpcode (fieldOp w)) : decode w = .illegalOpcode := by
  unfold decode
  split
  case h_17 => rfl
  all_goals omega

/-- All that the decoder can do: ILLEGAL_OPCODE, the operand tests of the word's instruction, or ILLEGAL_OPERAND for an LDC
of no constant (R108). -/
theorem decode_cases (w : Word) :
    (IllegalOpcode (fieldOp w) ∧ decode w = .illegalOpcode)
      ∨ (∃ i : Instr, fieldOp w = Laws.opcode i ∧ i.FieldsAre w ∧ decode w = commandIf (unusedZero w i) i)
      ∨ (fieldOp w = 0x13 ∧ decode w = .illegalOperand) := by
  by_cases hill : IllegalOpcode (fieldOp w)
  · exact .inl ⟨hill, decode_of_illegalOpcode hill⟩
  · obtain ⟨i, hop, hf⟩ | ⟨hop, hk⟩ := exists_fieldsAre hill
    · exact .inr (.inl ⟨i, hop, hf, decode_eq_commandIf hop hf⟩)
    · exact .inr (.inr ⟨hop, by simp only [decode, hop, hk, ldcIf]⟩)

theorem decode_eq_illegalOpcode_iff (w : Word) : decode w = .illegalOpcode ↔ IllegalOpcode (fieldOp w) := by
  refine ⟨fun h => ?_, decode_of_illegalOpcode⟩
  obtain ⟨hill, -⟩ | ⟨i, -, -, hd⟩ | ⟨-, hd⟩ := decode_cases w
  · exact hill
  · exact absurd (hd.symm.trans h) (commandIf_ne_illegalOpcode _ _)
  · cases hd.symm.trans h

theorem decode_eq_command_iff (w : Word) (i : Instr) :
    decode w = .command i ↔ i.row.hits w = true ∧ i.WellFormed ∧ i.FieldsAre w := by
  rw [row_hits_iff]
  refine ⟨fun h => ?_, fun ⟨⟨hop, hz⟩, hw, hf⟩ => ?_⟩
  · obtain ⟨-, hd⟩ | ⟨j, hop, hf, hd⟩ | ⟨-, hd⟩ := decode_cases w
    · cases hd.symm.trans h
    · obtain ⟨hz, hw, rfl⟩ := commandIf_eq_command (hd.symm.trans h)
      exact ⟨⟨hop, hz⟩, hw, hf⟩
    · cases hd.symm.trans h
  · rw [decode_eq_commandIf hop hf, hz]
    exact if_pos hw

/-- The third outcome is what the other two leave. -/
theorem decode_eq_illegalOperand_iff (w : Word) :
    decode w = .illegalOperand ↔ decode w ≠ .illegalOpcode ∧ ¬∃ i, decode w = .command i := by
  cases decode w <;> simp

/-- Settles O3: a hit of a row is an opcode and zero fields, and the decoder tests those and the limits. -/
theorem decoderFollowsTheOpcodeMap : Obligations.DecoderFollowsTheOpcodeMap := by
  refine fun w => ⟨decode_eq_illegalOpcode_iff w, decode_eq_command_iff w, ?_⟩
  rw [decode_eq_illegalOperand_iff, Ne, decode_eq_illegalOpcode_iff]
  simp only [decode_eq_command_iff]

end Sys2Proof.Machine
end

section
/-! SUPPORT. Proofs about the adder and the subtractor: both unpack one number, which gives the laws of R133 and R135. -/

namespace Sys2Proof.Machine

/-! The carry pass and the unpacking of R153 are one function of the value. -/

theorem passOut_eq_pack (t : Nat → Nat) : passOut t = pack (sumValue t % 2 ^ 257) := by
  have hlt := (passOut_nominal t).val_lt
  have hval : val (passOut t) = sumValue t % 2 ^ 257 := by
    rw [← passOut_val t, Nat.add_mul_mod_self_right, Nat.mod_eq_of_lt hlt]
  rw [← hval, pack_val (passOut_nominal t)]

/-- The carry pass sees its nine sums through their value alone (R132, R134). -/
theorem carryPass_eq_unpackV (t : Nat → Nat) : carryPass t = unpackV (sumValue t) := by
  rw [carryPass_eq, passOut_eq_pack, carryInto_nine, unpackV]

theorem add_eq_unpackV (a b : FE) : add a b = unpackV (val a + val b) := by
  rw [add, carryPass_eq_unpackV, sumValue_add]

theorem sub_eq_unpackV (a : FE) {b : FE} (hb : InSlack b) : sub a b = unpackV (val a + 8 * p - val b) := by
  rw [sub, carryPass_eq_unpackV, ← sumValue_sub a hb, Nat.add_sub_cancel]

/-! Add (R133). -/

theorem add_comm_limbs (a b : FE) : add a b = add b a := by rw [add_eq_unpackV, add_eq_unpackV, Nat.add_comm]

theorem val_add_modEq {a b : FE} (ha : InSlack a) (hb : InSlack b) : val (add a b) % p = (val a + val b) % p := by
  rw [← (add_spec ha hb).1, Nat.add_mul_mod_self_right]

theorem toBig_add_assoc {a b c : FE} (ha : InSlack a) (hb : InSlack b) (hc : InSlack c) :
    toBig (add (add a b) c) = toBig (add a (add b c)) := by
  rw [toBig_eq_iff, residue_add (add_inSlack ha hb) hc, residue_add ha hb, residue_add ha (add_inSlack hb hc),
    residue_add hb hc, add_assoc]

theorem val_fePV : val fePV = p := by decide

/-- The first sum on the left wraps past 2^257, so the two sides take off different multiples of 2p (R133). -/
theorem add_not_assoc_limbs :
    add (add (pack (2 ^ 257 - 1)) (pack 1)) (pack (2 * p)) ≠ add (pack (2 ^ 257 - 1)) (add (pack 1) (pack (2 * p))) := by
  decide +kernel

/-- Settles O27: Add unpacks the sum of the two values, so it is symmetric, and its laws are those of a residue. -/
theorem addLaws : Obligations.AddLaws := by
  refine ⟨fun a b ha hb => ?_, by decide, by decide +kernel, val_fePV, fun a b c => toBig_add_assoc,
    _, _, _, (pack_nominal _).inSlack, (pack_nominal _).inSlack, (pack_nominal _).inSlack, add_not_assoc_limbs⟩
  obtain ⟨hval, hslack⟩ := add_spec ha hb
  have hlt := ha.val_lt
  have hlt' := hb.val_lt
  refine ⟨?_, ?_, val_add_modEq ha hb, by omega, hlt, hslack, add_comm_limbs a b⟩
  · have hint := congrArg (Nat.cast : Nat → Int) hval
    push_cast at hint ⊢
    linarith
  · rw [toBig_cast, toBig_cast, toBig_cast, residue_add ha hb]

/-! Sub (R135). -/

/-- The number that Sub unpacks: its carry is 1 to 6 (R135 (b)). -/
theorem sub_range {a b : FE} (ha : InSlack a) (hb : InSlack b) :
    2 ^ 257 < 8 * p - val b ∧ val a + 8 * p < 7 * 2 ^ 257 := by
  have hlo : 2 ^ 257 + (2 ^ 258 + 2 ^ 230) < 8 * p := by decide
  have hhi : 2 ^ 258 + 2 ^ 230 + 8 * p < 7 * 2 ^ 257 := by decide
  have := ha.val_lt
  have := hb.val_lt
  omega

theorem val_sub_add_modEq {a b : FE} (ha : InSlack a) (hb : InSlack b) : (val (sub a b) + val b) % p = val a % p := by
  rw [← Nat.add_mul_mod_self_right _ (2 * ((val a + 8 * p - val b) / 2 ^ 257)) p, (sub_spec ha hb).1,
    Nat.add_mul_mod_self_right]

theorem sub_self_limbs {a : FE} (ha : InSlack a) : sub a a = twoPVector := by
  rw [sub_eq_unpackV a ha, Nat.add_sub_cancel_left]
  decide

theorem val_twoPVector : val twoPVector = 2 * p := by decide

theorem toBig_twoPVector : toBig twoPVector = 0 := by
  rw [toBig_eq, val_twoPVector, Nat.mul_right_comm, Nat.mul_mod_left]

/-- p is just below 2^256, so in the range of Sub the carry of n·p is the last whole number below n/2 (R135 (e)). -/
theorem carry_of_multiple {n : Nat} (hlo : 2 ^ 257 < n * p) (hhi : n * p < 7 * 2 ^ 257) :
    n * p / 2 ^ 257 = (n - 1) / 2 := by
  unfold p at *
  omega

theorem eq_two_mul_carry_add_parity {n : Nat} (h : 0 < n) : n = 2 * ((n - 1) / 2) + if n % 2 = 0 then 2 else 1 := by
  split_ifs <;> omega

/-- The residue zero that Sub leaves for congruent operands is 2p or p, by the parity of the multiple (R135 (e)). -/
theorem val_sub_of_multiple {a b : FE} {n : Nat} (ha : InSlack a) (hb : InSlack b) (h : val a + 8 * p - val b = n * p) :
    val (sub a b) = (if n % 2 = 0 then 2 else 1) * p := by
  obtain ⟨hlo, hhi⟩ := sub_range ha hb
  have hn : 0 < n := Nat.pos_of_ne_zero fun h0 => by subst h0; omega
  have hval := (sub_spec ha hb).1
  rw [h, carry_of_multiple (by omega) (by omega)] at hval
  have hsum : n * p = 2 * ((n - 1) / 2) * p + (if n % 2 = 0 then 2 else 1) * p := by
    rw [← Nat.add_mul, ← eq_two_mul_carry_add_parity hn]
  omega

/-- For congruent operands Sub unpacks a multiple of p (R135 (e)). -/
theorem sub_range_of_congruent {a b : FE} {m : Int} (ha : InSlack a) (hb : InSlack b)
    (h : (val a : Int) - val b = m * p) : ∃ n : Nat, m + 8 = n ∧ val a + 8 * p - val b = n * p := by
  have hlo := (sub_range ha hb).1
  have hV : ((val a + 8 * p - val b : Nat) : Int) = (m + 8) * p := by
    rw [Nat.cast_sub (by omega)]
    push_cast
    linarith
  have hpos : 0 ≤ m + 8 := by
    refine nonneg_of_mul_nonneg_left (b := (p : Int)) ?_ (by decide)
    rw [← hV]
    exact Int.natCast_nonneg _
  obtain ⟨n, hn⟩ := Int.eq_ofNat_of_zero_le hpos
  rw [hn] at hV
  exact ⟨n, hn, by exact_mod_cast hV⟩

/-- Settles O28: Sub unpacks val(a) + 8p − val(b), and for congruent operands that is a multiple of p. -/
theorem subLaws : Obligations.SubLaws := by
  refine ⟨fun a b ha hb => ?_, fun a => sub_self_limbs, by decide, by decide, val_twoPVector, by decide, by decide,
    toBig_twoPVector, fun a b m ha hb hm => ?_⟩
  · obtain ⟨hval, hslack⟩ := sub_spec ha hb
    obtain ⟨hlo, hhi⟩ := sub_range ha hb
    refine ⟨?_, val_sub_add_modEq ha hb, by omega, by omega, hlo, hhi, hslack⟩
    have hint := congrArg (Nat.cast : Nat → Int) hval
    push_cast at hint ⊢
    linarith
  · obtain ⟨n, hn, hV⟩ := sub_range_of_congruent ha hb hm
    have hval := val_sub_of_multiple ha hb hV
    have hpar : m % 2 = 0 ↔ n % 2 = 0 := by omega
    refine ⟨?_, ?_, by simp only [hn, hV, Int.natCast_div, Nat.cast_mul, Nat.cast_pow, Nat.cast_ofNat]⟩
    · simp only [hval, hpar, ite_mul, one_mul]
    · rw [hval]
      split_ifs <;> decide

/-! The field laws as canonical integers (R138). -/

theorem toBig_eq_mod {a : FE} {n : Nat} (h : residue a = (n : ZMod p)) : toBig a = n % p := by
  rw [← toBig_cast, ZMod.natCast_eq_natCast_iff] at h
  rw [← h, Nat.mod_eq_of_lt (toBig_lt a)]

theorem toBig_add {a b : FE} (ha : InSlack a) (hb : InSlack b) : toBig (add a b) = (toBig a + toBig b) % p :=
  toBig_eq_mod (by rw [residue_add ha hb, Nat.cast_add, toBig_cast, toBig_cast])

theorem toBig_sub {a b : FE} (ha : InSlack a) (hb : InSlack b) : toBig (sub a b) = (toBig a + p - toBig b) % p := by
  have hle : toBig b ≤ toBig a + p := ((toBig_lt b).le).trans (Nat.le_add_left _ _)
  refine toBig_eq_mod ?_
  rw [residue_sub ha hb, Nat.cast_sub hle, Nat.cast_add, ZMod.natCast_self, add_zero, toBig_cast, toBig_cast]

theorem toBig_mul_add {a b c : FE} (ha : InSlack a) (hb : InSlack b) (hc : InSlack c) :
    toBig (mul a (add b c)) = toBig (add (mul a b) (mul a c)) := by
  rw [toBig_eq_iff, residue_mul ha (add_inSlack hb hc), residue_add hb hc,
    residue_add (mul_inSlack ha hb) (mul_inSlack ha hc), residue_mul ha hb, residue_mul ha hc, mul_add]

theorem toBig_sub_self {a : FE} (ha : InSlack a) : toBig (sub a a) = 0 := by
  rw [sub_self_limbs ha, toBig_twoPVector]

theorem val_fromBig (x : Nat) : val (fromBig x) = x * 2 ^ 257 % p :=
  val_pack ((Nat.mod_lt _ (by decide)).trans (by decide))

theorem residue_fromBig (x : Nat) : residue (fromBig x) = x := by
  rw [residue, val_fromBig, ZMod.natCast_mod, Nat.cast_mul, mul_assoc, mul_comm _ (rInv : ZMod p), rInv_mul_radix,
    mul_one]

/-- ToBig undoes FromBig (R182). -/
theorem toBig_fromBig (x : Nat) : toBig (fromBig x) = x % p := toBig_eq_mod (residue_fromBig x)

theorem toBig_fromBig_of_lt {x : Nat} (h : x < p) : toBig (fromBig x) = x :=
  (toBig_fromBig x).trans (Nat.mod_eq_of_lt h)

/-- Settles O29: the laws of the residues, at any in-slack vectors and so at those of FromBig. -/
theorem fieldLawsAddSub : Obligations.FieldLawsAddSub := by
  refine ⟨fun a b c ha hb _ => ?_, fun a b c ha hb hc => ?_, toBig_lt⟩
  · have hA := fromBig_inSlack a
    have hB := fromBig_inSlack b
    have hC := fromBig_inSlack c
    refine ⟨?_, ?_, by rw [add_comm_limbs], toBig_add_assoc hA hB hC, toBig_mul_add hA hB hC, toBig_sub_self hA⟩
    · rw [toBig_add hA hB, toBig_fromBig_of_lt ha, toBig_fromBig_of_lt hb]
    · rw [toBig_sub hA hB, toBig_fromBig_of_lt ha, toBig_fromBig_of_lt hb]
  · exact ⟨toBig_add ha hb, toBig_sub ha hb, by rw [add_comm_limbs], toBig_add_assoc ha hb hc, toBig_mul_add ha hb hc,
      toBig_sub_self ha, add_inSlack ha hb, sub_inSlack ha hb, mul_inSlack ha hb⟩

end Sys2Proof.Machine
end

section
/-! SUPPORT. Proofs about the wide product: its limbs as double sums, which give its symmetry, its bounds and the doubled
cross products of Square (R151, R161). -/

namespace Sys2Proof.Machine

/-- One product of the crossed layout: `d(i,j)·a[i]·b[j]` (R151). -/
def crossTerm (a b : FE) (i j : Nat) : Nat := crossFactor i j * limb a i * limb b j

theorem crossTerm_comm (a b : FE) (i j : Nat) : crossTerm a b i j = crossTerm b a j i := by
  simp only [crossTerm, crossFactor, and_comm, Nat.mul_right_comm _ (limb a i)]

/-! The limbs as double sums (R151). -/

/-- At most one j completes i to k. -/
theorem sum_completing (f : Nat → Nat) (n i k : Nat) :
    (∑ j : Fin n, if i + j.val = k then f j else 0) = if i ≤ k ∧ k - i < n then f (k - i) else 0 := by
  have hj (j : Nat) : i + j = k ↔ i ≤ k ∧ k - i = j := by omega
  rw [← Finset.sum_range (fun j => if i + j = k then f j else 0)]
  simp only [hj, ite_and, Finset.sum_ite_irrel, Finset.sum_const_zero, Finset.sum_ite_eq, Finset.mem_range]

theorem wideLimb_eq_sum (a b : FE) (k : Nat) :
    wideLimb a b k = ∑ i : Fin 9, ∑ j : Fin 9, if i.val + j.val = k then crossTerm a b i j else 0 := by
  simp only [sum_completing (crossTerm a b _)]
  exact Finset.sum_range (n := 9) fun i => if i ≤ k ∧ k - i < 9 then crossTerm a b i (k - i) else 0

theorem wideMul_getElem? (a b : FE) {k : Nat} (h : k < 17) : (wideMul a b)[k]? = some (wideLimb a b k) := by
  rw [wideMul, List.getElem?_map, List.getElem?_range h, Option.map_some]

theorem wideLimb_comm (a b : FE) (k : Nat) : wideLimb a b k = wideLimb b a k := by
  rw [wideLimb_eq_sum, wideLimb_eq_sum, Finset.sum_comm]
  simp only [crossTerm_comm a b, Nat.add_comm]

theorem wideMul_comm (a b : FE) : wideMul a b = wideMul b a := by
  rw [wideMul, wideMul, funext (wideLimb_comm a b)]

/-! The bounds (R151): no limb exceeds that of the greatest in-slack vector's square. -/

/-- The greatest in-slack vector: every limb is `2^(W[i]+1) − 1` (R24). -/
def slackTop : FE := ofLimbs fun i => 2 ^ (limbWidth i + 1) - 1

theorem InSlack.limb_le {a : FE} (h : InSlack a) (i : Fin 9) : limb a i ≤ limb slackTop i := by
  obtain ⟨h0, h1, h2, h3, h4, h5, h6, h7, h8⟩ := h
  fin_cases i
  exacts [Nat.le_pred_of_lt h0, Nat.le_pred_of_lt h1, Nat.le_pred_of_lt h2, Nat.le_pred_of_lt h3, Nat.le_pred_of_lt h4,
    Nat.le_pred_of_lt h5, Nat.le_pred_of_lt h6, Nat.le_pred_of_lt h7, Nat.le_pred_of_lt h8]

theorem wideLimb_mono {a b a' b' : FE} (ha : ∀ i : Fin 9, limb a i ≤ limb a' i) (hb : ∀ i : Fin 9, limb b i ≤ limb b' i)
    (k : Nat) : wideLimb a b k ≤ wideLimb a' b' k := by
  rw [wideLimb_eq_sum, wideLimb_eq_sum]
  refine Finset.sum_le_sum fun i _ => Finset.sum_le_sum fun j _ => ?_
  split_ifs
  · exact Nat.mul_le_mul (Nat.mul_le_mul_left _ (ha i)) (hb j)
  · exact le_rfl

/-- Limb 8, with its five squares of 30-bit limbs, is the greatest of the seventeen (R151). -/
theorem wideLimb_slackTop_le : ∀ k < 17, wideLimb slackTop slackTop k ≤ 0x6FFFFFFB8000000D := by decide

theorem wideLimb_le {a b : FE} (ha : InSlack a) (hb : InSlack b) {k : Nat} (hk : k < 17) :
    wideLimb a b k ≤ 0x6FFFFFFB8000000D :=
  (wideLimb_mono ha.limb_le hb.limb_le k).trans (wideLimb_slackTop_le k hk)

theorem wval_wideMul_lt_square {a b : FE} (ha : InSlack a) (hb : InSlack b) :
    wval (wideMul a b) < (2 ^ 258 + 2 ^ 230) ^ 2 := by
  rw [wval_wideMul, sq]
  exact Nat.mul_lt_mul'' ha.val_lt hb.val_lt

/-- The square of the bound of R24, as R153 rounds it. -/
theorem slack_bound_sq_lt : (2 ^ 258 + 2 ^ 230) ^ 2 < 2 ^ 516 + 2 ^ 490 := by
  simp only [sq, Nat.add_mul, Nat.mul_add, ← pow_add, Nat.reduceAdd]
  omega

theorem wval_wideMul_lt_of_inSlack {a b : FE} (ha : InSlack a) (hb : InSlack b) :
    wval (wideMul a b) < 2 ^ 516 + 2 ^ 490 :=
  (wval_wideMul_lt_square ha hb).trans slack_bound_sq_lt

/-- Settles O30: the limbs are double sums, monotone in every limb and symmetric in the two vectors. -/
theorem wideMulLaws : Obligations.WideMulLaws := by
  intro a b ha hb
  have hlt := wval_wideMul_lt_of_inSlack ha hb
  refine ⟨by simp [wideMul], fun k hk => ?_, wval_wideMul a b, fun x hx => ?_, wval_wideMul_lt_square ha hb,
    by omega, wideMul_comm a b⟩
  · rw [wideMul_getElem? a b hk, wideLimb_eq_sum]
    rfl
  · obtain ⟨k, hk, rfl⟩ := List.mem_map.mp hx
    have hle := wideLimb_le ha hb (List.mem_range.mp hk)
    exact ⟨hle, hle.trans_lt (by decide)⟩

/-! Square (R161). -/

/-- A sum of symmetric terms, with every pair of different indices taken once and doubled. -/
theorem sum_eq_doubled {n : Nat} (f : Fin n → Fin n → Nat) (hf : ∀ i j, f i j = f j i) :
    ∑ i, ∑ j, f i j = ∑ i, ∑ j, if i < j then 2 * f i j else if i = j then f i i else 0 := by
  have hsplit (i j : Fin n) :
      f i j = (if i < j then f i j else if i = j then f i i else 0) + if j < i then f j i else 0 := by
    rcases lt_trichotomy i j with h | rfl | h
    · simp [h, h.not_gt]
    · simp
    · simp [h, h.ne', h.not_gt, hf i j]
  have hdouble (i j : Fin n) : (if i < j then 2 * f i j else if i = j then f i i else 0)
      = (if i < j then f i j else if i = j then f i i else 0) + if i < j then f i j else 0 := by
    split_ifs <;> omega
  rw [Fintype.sum_congr _ _ fun i => Fintype.sum_congr _ _ (hsplit i)]
  simp only [hdouble, Finset.sum_add_distrib]
  rw [Finset.sum_comm (f := fun i j => if j < i then f j i else 0)]

/-- A limb of a square with every product of two different limbs computed once and doubled (R161). -/
theorem wideLimb_self_eq_doubled (a : FE) (k : Nat) :
    wideLimb a a k = ∑ i : Fin 9, ∑ j : Fin 9, if i.val + j.val = k then
      (if i.val < j.val then 2 * crossTerm a a i j else if i = j then crossTerm a a i i else 0) else 0 := by
  rw [wideLimb_eq_sum, sum_eq_doubled _ fun i j => by rw [crossTerm_comm, Nat.add_comm]]
  refine Finset.sum_congr rfl fun i _ => Finset.sum_congr rfl fun j _ => ?_
  rcases lt_trichotomy i j with h | rfl | h
  · simp [h]
  · simp
  · simp [h.not_gt, h.ne']

/-- Settles O35: Square is Mul(a, a) by definition, and the crossed products are symmetric. -/
theorem squareSymmetry : Obligations.SquareSymmetry := by
  refine fun a _ => ⟨rfl, rfl, fun k hk => ?_⟩
  rw [wideMul_getElem? a a hk, wideLimb_self_eq_doubled]
  simp only [crossTerm, crossFactor, and_self]

end Sys2Proof.Machine
end

section
/-! SUPPORT. Proofs about the reduction and the products it gives: the one M of R153, the range of its carry, and Mul as a
function of the product of two values (R153, R160, R167). -/

namespace Sys2Proof.Machine

/-! The reduction (R153). -/

theorem two_pow_coprime_p : Nat.Coprime (2 ^ 257) p := Nat.Coprime.pow_left 257 (by decide)

/-- p is odd, so M is determined by T (R153). -/
theorem montgomeryM_unique {T M : Nat} (hM : M < 2 ^ 257) (h : (T + M * p) % 2 ^ 257 = 0) : M = montgomeryM T := by
  have hsum : T + M * p ≡ T + montgomeryM T * p [MOD 2 ^ 257] := h.trans (montgomery_exact T).symm
  have hmul : M * p ≡ montgomeryM T * p [MOD 2 ^ 257] := Nat.ModEq.add_left_cancel' T hsum
  exact (Nat.ModEq.cancel_right_of_coprime two_pow_coprime_p hmul).eq_of_lt_of_lt hM (montgomeryM_lt T)

theorem reduceDegree_congr {c c' : List Nat} (h : wval c = wval c') : reduceDegree c = reduceDegree c' := by
  rw [reduceDegree, reduceDegree, h]

theorem montgomeryM_mul_p_lt (T : Nat) : montgomeryM T * p < 2 ^ 513 := by
  rw [pow_add 2 257 256]
  exact Nat.mul_lt_mul'' (montgomeryM_lt T) (by decide)

/-- The carry of a product is at most 4 (R153). -/
theorem montgomeryV_carry_le {T : Nat} (h : T < 2 ^ 516 + 2 ^ 490) : montgomeryV T / 2 ^ 257 ≤ 4 := by
  have hMp := montgomeryM_mul_p_lt T
  have hV := montgomeryV_mul T
  omega

/-- Settles O31: the division of R153 is exact for one M only, and the reduction reads its argument through its value. -/
theorem reduceDegreeClosedForm : Obligations.ReduceDegreeClosedForm := by
  refine ⟨fun c hc => ?_, fun c c' => reduceDegree_congr, by decide, by decide, fun a b ha hb => ?_⟩
  · have hV := montgomeryV_lt hc
    exact ⟨montgomeryM (wval c), montgomeryV (wval c), rfl, montgomery_exact _, rfl, fun M' => montgomeryM_unique,
      by omega, rfl⟩
  · have hT := wval_wideMul_lt_of_inSlack ha hb
    exact ⟨hT, montgomeryV_carry_le hT⟩

/-! Mul (R160). -/

/-- Mul sees its operands through the product of their values alone (R160). -/
theorem mul_eq_unpackV (a b : FE) : mul a b = unpackV (montgomeryV (val a * val b)) := by
  rw [mul, reduceDegree, wval_wideMul]

theorem mul_comm_limbs (a b : FE) : mul a b = mul b a := by rw [mul_eq_unpackV, mul_eq_unpackV, Nat.mul_comm]

theorem mul_congr_of_val {a b c d : FE} (h : val a * val b = val c * val d) : mul a b = mul c d := by
  rw [mul_eq_unpackV, mul_eq_unpackV, h]

theorem mul_zero_limbs (a : FE) : mul a FE.zero = FE.zero := by
  have hval : val FE.zero = 0 := by decide
  rw [mul_eq_unpackV, hval, Nat.mul_zero]
  decide

theorem val_mul_modEq {a b : FE} (ha : InSlack a) (hb : InSlack b) :
    val (mul a b) * 2 ^ 257 ≡ val a * val b [MOD p] := by
  obtain ⟨k, m, h⟩ := (mul_spec ha hb).1
  rw [Nat.ModEq, ← Nat.add_mul_mod_self_right _ k, h, Nat.add_mul_mod_self_right]

theorem toBig_mul {a b : FE} (ha : InSlack a) (hb : InSlack b) : toBig (mul a b) = toBig a * toBig b % p :=
  toBig_eq_mod (by rw [residue_mul ha hb, Nat.cast_mul, toBig_cast, toBig_cast])

/-! Mul by ONE (R160). -/

theorem feOne_inSlack : InSlack feOne := by decide

/-- ONE has the value R modulo p (R52). -/
theorem val_feOne_modEq : val feOne ≡ 2 ^ 257 [MOD p] := by decide

theorem val_mul_feOne_modEq {a : FE} (ha : InSlack a) : val (mul a feOne) ≡ val a [MOD p] := by
  refine Nat.ModEq.cancel_right_of_coprime two_pow_coprime_p.symm ?_
  calc val (mul a feOne) * 2 ^ 257 ≡ val a * val feOne [MOD p] := val_mul_modEq ha feOne_inSlack
    _ ≡ val a * 2 ^ 257 [MOD p] := val_feOne_modEq.mul_left _

/-- A product with no carry is canonical-packed (R160). -/
theorem mul_canonicalPacked {a b : FE} (h : montgomeryV (val a * val b) / 2 ^ 257 = 0) : CanonicalPacked (mul a b) := by
  have hV : montgomeryV (val a * val b) < 2 ^ 257 := by omega
  exact ⟨_, hV, by rw [mul_eq_unpackV, unpackV_of_lt hV]⟩

/-- The vector of value 2p with a limb above its nominal width comes back packed (R160). -/
theorem mul_twoPVector_feOne : mul twoPVector feOne ≠ twoPVector := by decide

/-! Mul by PV (R160). -/

/-- The M of a multiple of p is the multiple's negative (R160). -/
theorem montgomeryM_p_mul {n : Nat} (h0 : 0 < n) (hn : n < 2 ^ 257) : montgomeryM (p * n) = 2 ^ 257 - n := by
  refine (montgomeryM_unique (by omega) ?_).symm
  rw [Nat.mul_comm p n, ← Nat.add_mul, Nat.add_sub_cancel' hn.le, Nat.mul_mod_right]

theorem montgomeryV_p_mul {n : Nat} (h0 : 0 < n) (hn : n < 2 ^ 257) : montgomeryV (p * n) = p := by
  rw [montgomeryV, montgomeryM_p_mul h0 hn, Nat.mul_comm p n, ← Nat.add_mul, Nat.add_sub_cancel' hn.le,
    Nat.mul_div_cancel_left p (Nat.two_pow_pos 257)]

theorem mul_fePV {b : FE} (h0 : 0 < val b) (hb : val b < 2 ^ 257) : mul fePV b = fePV := by
  rw [mul_eq_unpackV, val_fePV, montgomeryV_p_mul h0 hb]
  decide

/-- Settles O34: Mul reduces the product of two values, so it is symmetric, and its laws are those of that product. -/
theorem mulLaws : Obligations.MulLaws := by
  refine ⟨fun a b ha hb => ?_, fun a ha => ⟨val_mul_feOne_modEq ha, mul_canonicalPacked⟩,
    ⟨twoPVector, by decide, mul_twoPVector_feOne⟩, fun b hb h0 hlt => ?_⟩
  · refine ⟨rfl, val_mul_modEq ha hb, toBig_mul ha hb, mul_inSlack ha hb, mul_comm_limbs a b, mul_zero_limbs a, ?_,
      fun c d _ _ => mul_congr_of_val⟩
    rw [mul_comm_limbs, mul_zero_limbs]
  · have hM := montgomeryM_p_mul h0 hlt
    have hV := montgomeryV_p_mul h0 hlt
    rw [montgomeryV, hM] at hV
    rw [val_fePV]
    exact ⟨mul_fePV h0 hlt, hM, hV⟩

/-! The field laws as canonical integers (R167). -/

theorem toBig_mul_assoc {a b c : FE} (ha : InSlack a) (hb : InSlack b) (hc : InSlack c) :
    toBig (mul (mul a b) c) = toBig (mul a (mul b c)) := by
  rw [toBig_eq_iff, residue_mul (mul_inSlack ha hb) hc, residue_mul ha hb, residue_mul ha (mul_inSlack hb hc),
    residue_mul hb hc, mul_assoc]

theorem toBig_mul_fromBig_one {a : FE} (ha : InSlack a) : toBig (mul a (fromBig 1)) = toBig a := by
  rw [toBig_eq_iff, residue_mul ha (fromBig_inSlack 1), residue_fromBig, Nat.cast_one, mul_one]

/-- Settles O36: the laws of the residues. -/
theorem fieldLawsMul : Obligations.FieldLawsMul := fun a b _ ha hb hc =>
  ⟨toBig_mul ha hb, by rw [mul_comm_limbs], toBig_mul_assoc ha hb hc, toBig_mul_add ha hb hc, toBig_mul_fromBig_one ha, rfl⟩

end Sys2Proof.Machine
end

section
/-! SUPPORT. Proofs about the converter: the digits that Pack writes and the residue of a value, which give the laws of R180
and R182. -/

namespace Sys2Proof.Machine

/-! The digits of the packing loop (R12). -/

theorem limb_ofLimbs (g : Nat → Nat) {i : Nat} (hi : i < 9) : limb (ofLimbs g) i = g i % 2 ^ 32 := by
  interval_cases i <;> rfl

theorem limbWidth_le_container (i : Nat) : limbWidth i ≤ 32 := by
  unfold limbWidth
  split_ifs <;> decide

theorem limbOffset_succ (i : Nat) : limbOffset (i + 1) = limbOffset i + limbWidth i := by
  unfold limbOffset limbWidth
  split_ifs <;> omega

theorem limb_pack (v : Nat) {i : Nat} (hi : i < 9) : limb (pack v) i = v / 2 ^ limbOffset i % 2 ^ limbWidth i := by
  rw [pack, limb_ofLimbs _ hi, mod_container _ (limbWidth_le_container i)]

/-- One turn of the packing loop takes limb i off what is left of the number (R12). -/
theorem div_limbOffset_succ (v i : Nat) : v / 2 ^ limbOffset (i + 1) = v / 2 ^ limbOffset i / 2 ^ limbWidth i := by
  rw [limbOffset_succ, pow_add, Nat.div_div_eq_div_mul]

/-! FromBig (R180). -/

theorem val_fromBig_lt (x : Nat) : val (fromBig x) < p := by
  rw [val_fromBig]
  exact Nat.mod_lt _ (by decide)

theorem fromBig_eq_pack_val (x : Nat) : fromBig x = pack (val (fromBig x)) := by rw [val_fromBig, fromBig]

theorem fromBig_canonicalPacked (x : Nat) : CanonicalPacked (fromBig x) :=
  ⟨val (fromBig x), (pack_nominal _).val_lt, fromBig_eq_pack_val x⟩

/-- A value below p, and so below 2^256, leaves the top bit of limb 8 clear (R180). -/
theorem limb_eight_fromBig_lt (x : Nat) : limb (fromBig x) 8 < 2 ^ 28 := by
  have hv : val (fromBig x) < 2 ^ 256 := (val_fromBig_lt x).trans (by decide)
  unfold val at hv
  rw [limb_eight]
  omega

/-- PV has the value p, which FromBig reduces (R180). -/
theorem fromBig_ne_fePV (x : Nat) : fromBig x ≠ fePV := fun h => by
  have hlt := val_fromBig_lt x
  rw [h, val_fePV] at hlt
  exact lt_irrefl p hlt

theorem pack_zero : pack 0 = FE.zero := by decide

theorem fromBig_eq_zero_of_val_mod {x : Nat} (h : val (fromBig x) % p = 0) : fromBig x = FE.zero := by
  rw [Nat.mod_eq_of_lt (val_fromBig_lt x)] at h
  rw [fromBig_eq_pack_val, h, pack_zero]

theorem fromBig_congr {x y : Nat} (h : x ≡ y [MOD p]) : fromBig x = fromBig y :=
  congrArg pack (h.mul_right (2 ^ 257))

theorem fromBig_sub_p {x : Nat} (h : p ≤ x) : fromBig x = fromBig (x - p) :=
  fromBig_congr (Nat.mod_eq_sub_mod h)

/-- The ReduceCarry table holds the first multiples of R modulo p (R54, R180). -/
theorem fromBig_eq_carryRow {c : Nat} (h : c ≤ 7) : fromBig c = carryRow c := by
  interval_cases c <;> decide

/-- Settles O37: the value of FromBig(x) is reduced, so its packing is canonical and PV, of value p, is never met. -/
theorem fromBigLaws : Obligations.FromBigLaws := by
  refine ⟨fun x _ => ⟨rfl, fromBig_canonicalPacked x, fromBig_inSlack x, val_fromBig x, val_fromBig_lt x,
    limb_eight_fromBig_lt x, fun i hi => ⟨limb_pack _ hi, div_limbOffset_succ _ i⟩, toBig_fromBig x, fromBig_ne_fePV x,
    fromBig_eq_zero_of_val_mod, fromBig_sub_p⟩, ?_, ?_, fun c => fromBig_eq_carryRow⟩
  · exact fromBig_eq_carryRow (c := 0) (by decide)
  · exact fromBig_eq_carryRow (c := 1) (by decide)

/-! ToBig (R182). -/

/-- RINV is the inverse of R modulo p (R50). -/
theorem rInv_mul_radix_mod : rInv * 2 ^ 257 % p = 1 := by decide

theorem val_mul_rInv_lt {a : FE} (ha : InSlack a) : val a * rInv < 2 ^ 515 :=
  calc val a * rInv < (2 ^ 258 + 2 ^ 230) * 2 ^ 255 := Nat.mul_lt_mul'' ha.val_lt (by decide)
    _ < 2 ^ 515 := by decide +kernel

theorem toBig_congr {a b : FE} (h : val a ≡ val b [MOD p]) : toBig a = toBig b := by
  rw [toBig_eq, toBig_eq]
  exact h.mul_right rInv

theorem toBig_fePV : toBig fePV = 0 := by rw [toBig_eq, val_fePV, Nat.mul_mod_right]

/-- Below 2^256 there is room for p once only, so one subtraction reduces (R182). -/
theorem toBig_fromBig_of_ge {x : Nat} (hp : p ≤ x) (hx : x < 2 ^ 256) : toBig (fromBig x) = x - p := by
  have hroom : 2 ^ 256 < 2 * p := by decide
  rw [fromBig_sub_p hp, toBig_fromBig_of_lt (by omega)]

/-- Settles O38: ToBig sees a vector through its value, and on FromBig(x) it gives the residue of x. -/
theorem toBigLaws : Obligations.ToBigLaws := by
  refine ⟨fun a ha => ?_, rInv_mul_radix_mod, by decide, toBig_lt, fun a b _ _ => toBig_congr, toBig_zero, toBig_fePV,
    toBig_twoPVector, fun x => ⟨toBig_fromBig_of_lt, toBig_fromBig_of_ge⟩⟩
  rw [unpackValue_eq_val]
  exact ⟨toBig_eq a, rfl, toBig_eq a, ha.val_lt, val_mul_rInv_lt ha⟩

end Sys2Proof.Machine
end

section
/-! SUPPORT. Proofs about the point units: the infinity test, which looks at limbs and not at values (R200). -/

namespace Sys2Proof.Machine

/-! The two vectors of the infinity test, limb by limb (R56, R200). -/

/-- A vector is its nine limbs (R12). -/
theorem eq_iff_limb_eq {a b : FE} : a = b ↔ ∀ i, i < 9 → limb a i = limb b i :=
  ⟨fun h _ _ => h ▸ rfl, fun h => FE.ext_toNat (h 0 (by decide)) (h 1 (by decide)) (h 2 (by decide)) (h 3 (by decide))
    (h 4 (by decide)) (h 5 (by decide)) (h 6 (by decide)) (h 7 (by decide)) (h 8 (by decide))⟩

theorem limb_FE_zero {i : Nat} (h : i < 9) : limb FE.zero i = 0 := by interval_cases i <;> rfl

theorem eq_zero_iff_limb_eq {z : FE} : z = FE.zero ↔ ∀ i, i < 9 → limb z i = 0 := by
  rw [eq_iff_limb_eq]
  exact forall₂_congr fun i hi => by rw [limb_FE_zero hi]

theorem fePV_eq_pack : fePV = pack p := by
  have hnominal : Nominal fePV := by decide
  rw [← val_fePV, pack_val hnominal]

/-- FromBig never gives PV: p itself goes to the all-zero vector (R180). -/
theorem fromBig_p : fromBig p = FE.zero :=
  fromBig_eq_zero_of_val_mod (by rw [val_fromBig, Nat.mul_mod_right, Nat.zero_mod])

/-! The infinity test (R200). -/

theorem isInfZ_iff {z : FE} : isInfZ z = true ↔ z = FE.zero ∨ z = fePV := by
  rw [isInfZ, Bool.or_eq_true, beq_iff_eq, beq_iff_eq]

theorem isInfZ_eq_false_iff {z : FE} : isInfZ z = false ↔ z ≠ FE.zero ∧ z ≠ fePV := by
  rw [← Bool.not_eq_true, isInfZ_iff, not_or]

theorem isInfZ_iff_limb_eq {z : FE} :
    isInfZ z = true ↔ (∀ i, i < 9 → limb z i = 0) ∨ (∀ i, i < 9 → limb z i = limb fePV i) := by
  rw [isInfZ_iff, eq_zero_iff_limb_eq, eq_iff_limb_eq]

/-- Settles O41: the test compares a vector with FE.zero and with PV, and a vector is its limbs; the field value plays no
part. -/
theorem infinityTest : Obligations.InfinityTest :=
  ⟨fun _ => isInfZ_iff_limb_eq, rfl, fePV_eq_pack, fromBig_p,
    fun _ hzero hpv _ => isInfZ_eq_false_iff.mpr ⟨hzero, fePV_eq_pack ▸ hpv⟩⟩

end Sys2Proof.Machine
end

section
/-! SUPPORT. Proofs about the life of a command up to its acceptance or its error: a word is accepted exactly when it is the
word of a command (R272, R273), an error commutes with every command (R271), and the interrupt line (R280). -/

namespace Sys2Proof.Machine

/-! The words that hold a command (R101, R108). -/

/-- A word is written from its five fields and from no others (R101). -/
theorem wordOf_eq_iff {op rd ra rb imm : Nat} (hop : op < 64) (hrd : rd < 64) (hra : ra < 64) (hrb : rb < 64)
    (himm : imm < 256) (w : Word) :
    wordOf op rd ra rb imm = w
      ↔ fieldOp w = op ∧ fieldRd w = rd ∧ fieldRa w = ra ∧ fieldRb w = rb ∧ fieldImm w = imm := by
  obtain ⟨h1, h2, h3, h4, h5⟩ := fields_wordOf hop hrd hra hrb himm
  rw [eq_iff_fields, h1, h2, h3, h4, h5]
  simp only [eq_comm]

/-- The immediate of SELA: group and entry, with the bits above them 0 (R103). -/
theorem fieldImm_eq_group_entry_iff (w : Word) (g : Fin 2) (idx : Fin 16) :
    fieldImm w = 16 * g.val + idx.val ↔ bits w 7 5 = 0 ∧ bits w 4 4 = g ∧ bits w 3 0 = idx := by
  have hw : fieldImm w < 2 ^ 8 := bits_lt w 7 0
  rw [bits_of_imm w (hi := 7) (lo := 5) (by decide) (by decide),
    bits_of_imm w (hi := 4) (lo := 4) (by decide) (by decide), bits_of_imm w (hi := 3) (lo := 0) (by decide) (by decide)]
  omega

/-- An immediate that holds one number in its low k bits, with the bits above them 0 (R103). -/
theorem fieldImm_eq_low_iff (w : Word) {k n : Nat} (hk : k < 7) (hn : n < 2 ^ (k + 1)) :
    fieldImm w = n ↔ bits w 7 (k + 1) = 0 ∧ bits w k 0 = n := by
  have hw : fieldImm w < 2 ^ 8 := bits_lt w 7 0
  rw [bits_of_imm w (by decide) (by omega), bits_of_imm w (by omega) (Nat.zero_le k)]
  interval_cases k <;> omega

/-- A word is an instruction's exactly when it has the instruction's opcode and operands and 0 in the unused fields. -/
theorem encode_eq_iff (i : Instr) (w : Word) :
    encode i = w ↔ (fieldOp w = Laws.opcode i ∧ unusedZero w i = true) ∧ i.FieldsAre w := by
  cases i with
  | nop =>
    rw [encode, wordOf_eq_iff (by decide) (by decide) (by decide) (by decide) (by decide)]
    simp [Laws.opcode, unusedZero, Instr.FieldsAre, and_assoc, and_left_comm, and_comm]
  | fadd rd ra rb | fsub rd ra rb | fmul rd ra rb | fmul2 rd ra rb | padd rd ra rb | paddm rd ra rb =>
    rw [encode, wordOf_eq_iff (by decide) rd.isLt ra.isLt rb.isLt (by decide)]
    simp [Laws.opcode, unusedZero, Instr.FieldsAre, and_assoc, and_left_comm, and_comm]
  | fsqr rd ra | fsqr2 rd ra | pdbl rd ra =>
    rw [encode, wordOf_eq_iff (by decide) rd.isLt ra.isLt (by decide) (by decide)]
    simp [Laws.opcode, unusedZero, Instr.FieldsAre, and_assoc, and_left_comm, and_comm]
  | frombig rd =>
    rw [encode, wordOf_eq_iff (by decide) rd.isLt (by decide) (by decide) (by decide)]
    simp [Laws.opcode, unusedZero, Instr.FieldsAre, and_assoc, and_left_comm, and_comm]
  | tobig ra =>
    rw [encode, wordOf_eq_iff (by decide) (by decide) ra.isLt (by decide) (by decide)]
    simp [Laws.opcode, unusedZero, Instr.FieldsAre, and_assoc, and_left_comm, and_comm]
  | sela rd g idx =>
    rw [encode, wordOf_eq_iff (by decide) rd.isLt (by decide) (by decide) (by omega), fieldImm_eq_group_entry_iff]
    simp [Laws.opcode, unusedZero, Instr.FieldsAre, and_assoc, and_left_comm, and_comm]
  | selj rd rb idx =>
    rw [encode, wordOf_eq_iff (by decide) rd.isLt (by decide) rb.isLt (by omega),
      fieldImm_eq_low_iff w (k := 3) (by decide) idx.isLt]
    simp [Laws.opcode, unusedZero, Instr.FieldsAre, and_assoc, and_left_comm, and_comm]
  | ccopy rd ra c =>
    rw [encode, wordOf_eq_iff (by decide) rd.isLt ra.isLt (by decide) (c.toNat_lt.trans (by decide)),
      fieldImm_eq_low_iff w (k := 0) (by decide) c.toNat_lt]
    simp [Laws.opcode, unusedZero, Instr.FieldsAre, and_assoc, and_left_comm, and_comm]
  | ldc rd k =>
    have hk : k.num < 2 ^ 3 := by cases k <;> decide
    rw [encode, wordOf_eq_iff (by decide) rd.isLt (by decide) (by decide) (hk.trans (by decide)),
      fieldImm_eq_low_iff w (k := 2) (by decide) hk]
    simp [Laws.opcode, unusedZero, Instr.FieldsAre, and_assoc, and_left_comm, and_comm]

/-- The decoder finds a command in that command's word, within the limits, and in no other word. -/
theorem decode_eq_command_iff_encode (w : Word) (i : Instr) :
    decode w = .command i ↔ i.WellFormed ∧ encode i = w := by
  rw [decode_eq_command_iff, row_hits_iff, encode_eq_iff, and_left_comm]

/-- What is neither an illegal opcode nor a command's word is ILLEGAL_OPERAND (R107). -/
theorem decode_of_no_command {w : Word} (hop : ¬IllegalOpcode (fieldOp w))
    (h : ¬∃ i : Instr, i.WellFormed ∧ encode i = w) : decode w = .illegalOperand := by
  rw [decode_eq_illegalOperand_iff, Ne, decode_eq_illegalOpcode_iff]
  exact ⟨hop, fun ⟨i, hi⟩ => h ⟨i, (decode_eq_command_iff_encode w i).mp hi⟩⟩

/-! The outcomes of a CMD write, one per test (R272). -/

section CmdWrite

variable (s : State) {w : Word}

@[simp] theorem State.mapWrite_cmd (v : Word) : s.mapWrite 0x0C v = s.cmdWrite v := rfl

theorem cmdWrite_of_illegalOpcode (he : s.status.err = false) (hb : s.status.busy = false)
    (hd : decode w = .illegalOpcode) : s.cmdWrite w = s.raiseError 1 := by
  simp [State.cmdWrite, he, hb, hd]

theorem cmdWrite_of_illegalOperand (he : s.status.err = false) (hb : s.status.busy = false)
    (hd : decode w = .illegalOperand) : s.cmdWrite w = s.raiseError 2 := by
  simp [State.cmdWrite, he, hb, hd]

theorem cmdWrite_of_command {i : Instr} (he : s.status.err = false) (hb : s.status.busy = false)
    (hd : decode w = .command i) : s.cmdWrite w = s.accept w := by
  simp [State.cmdWrite, he, hb, hd]

/-- A CMD write is a defined access, and its step is the handling of R272. -/
theorem step_cmdWrite {rest : List Event} (h : s.schedule = .write 0x0C 4 w :: rest) :
    step s = .next ((s.setSchedule rest).cmdWrite w) := by
  rw [step_write s h (by decide), State.mapWrite_cmd]

end CmdWrite

/-- Settles O5: the five outcomes are those of the tests of R272, and the operand test fails exactly on the words of no
command. -/
theorem cmdWriteOutcome : Obligations.CmdWriteOutcome := by
  refine ⟨fun w => ?_, fun s w rest h => ?_⟩
  · rw [memWrite, if_pos (Nat.le_add_right _ _), Nat.add_sub_cancel_left]
  · rw [step_cmdWrite s h]
    exact ⟨fun he => congrArg Host.Outcome.next (cmdWrite_of_err (s.setSchedule rest) w he),
      fun he hb => congrArg Host.Outcome.next (cmdWrite_of_busy (s.setSchedule rest) w he hb),
      fun he hb hop => congrArg Host.Outcome.next
        (cmdWrite_of_illegalOpcode (s.setSchedule rest) he hb (decode_of_illegalOpcode hop)),
      fun he hb hop hno => congrArg Host.Outcome.next
        (cmdWrite_of_illegalOperand (s.setSchedule rest) he hb (decode_of_no_command hop hno)),
      fun he hb ⟨i, hi⟩ => congrArg Host.Outcome.next
        (cmdWrite_of_command (s.setSchedule rest) he hb ((decode_eq_command_iff_encode w i).mpr hi))⟩

/-! Acceptance (R273). -/

/-- DINL takes the whole of DIN: the value of a port is below 2^256 (R33). -/
theorem State.accept_dinl_toNat (s : State) (w : Word) : (s.accept w).dinl.toNat = portValue s.din := by
  rw [State.accept_dinl, BitVec.toNat_ofNat, Nat.mod_eq_of_lt (portValue_lt s.din)]

/-- Acceptance clears DONE, so with ERR clear no cause of the interrupt is left (R280). -/
theorem State.irq_accept (s : State) (w : Word) (he : s.status.err = false) : (s.accept w).irq = false := by
  simp [State.irq, he]

/-- Settles O6: the step is the acceptance, whose latches, flags and frame are those of R273. -/
theorem acceptEffect : Obligations.AcceptEffect := by
  refine fun s w i rest h he hb hd => ⟨(s.setSchedule rest).accept w, ?_, rfl, State.accept_dinl_toNat _ w, rfl, rfl, rfl,
    rfl, fun _ => rfl, rfl, rfl, rfl, State.irq_accept _ w he⟩
  rw [step_cmdWrite s h, cmdWrite_of_command (s.setSchedule rest) he hb hd]

/-! The command error and the command in flight (R271). -/

section ErrorCommutes

variable (s : State) (c : BitVec 4)

theorem State.setReg_raiseError (r : Reg) (v : FE) :
    (s.raiseError c).setReg r v = (s.setReg r v).raiseError c := rfl

theorem State.setDout_raiseError (v : Vector Word 8) :
    (s.raiseError c).setDout v = (s.setDout v).raiseError c := rfl

theorem State.setPoint_raiseError (r : Reg) (P : Jacobian) :
    (s.raiseError c).setPoint r P = (s.setPoint r P).raiseError c := rfl

theorem State.point_raiseError (r : Reg) : (s.raiseError c).point r = s.point r := rfl

theorem State.affine_raiseError (r : Reg) : (s.raiseError c).affine r = s.affine r := rfl

theorem State.table_raiseError (r : Reg) : (s.raiseError c).table r = s.table r := rfl

theorem State.settled_raiseError (srcs : List FE) (slot : Nat) (v : FE) :
    (s.raiseError c).settled srcs slot v = s.settled srcs slot v := rfl

theorem State.settledDout_raiseError (src : FE) (v : Vector Word 8) :
    (s.raiseError c).settledDout src v = s.settledDout src v := rfl

theorem State.settledPoint_raiseError (srcs : List FE) (P : Jacobian) :
    (s.raiseError c).settledPoint srcs P = s.settledPoint srcs P := rfl

theorem State.mulLane_raiseError (slot : Nat) (rd ra rb : Reg) :
    (s.raiseError c).mulLane slot rd ra rb = (s.mulLane slot rd ra rb).raiseError c := by
  rw [State.mulLane, State.setReg_raiseError, State.settled_raiseError, State.reg_raiseError, State.reg_raiseError,
    State.mulLane]

theorem State.squareLane_raiseError (slot : Nat) (rd ra : Reg) :
    (s.raiseError c).squareLane slot rd ra = (s.squareLane slot rd ra).raiseError c := by
  rw [State.squareLane, State.setReg_raiseError, State.settled_raiseError, State.reg_raiseError, State.squareLane]

end ErrorCommutes

/-- An error does not reach what a command writes: no command reads STATUS. -/
theorem effect_raiseError (i : Instr) (s : State) (c : BitVec 4) :
    effect i (s.raiseError c) = (effect i s).raiseError c := by
  cases i with
  | nop | frombig | sela | ldc => rfl
  | fadd | fsub | ccopy =>
    simp only [effect]
    rw [State.setReg_raiseError, State.settled_raiseError, State.reg_raiseError, State.reg_raiseError]
  | fmul => exact s.mulLane_raiseError c _ _ _ _
  | fsqr => exact s.squareLane_raiseError c _ _ _
  | fmul2 =>
    simp only [effect]
    rw [State.mulLane_raiseError, State.mulLane_raiseError]
  | fsqr2 =>
    simp only [effect]
    rw [State.squareLane_raiseError, State.squareLane_raiseError]
  | tobig =>
    simp only [effect]
    rw [State.setDout_raiseError, State.settledDout_raiseError, State.reg_raiseError]
  | pdbl =>
    simp only [effect]
    rw [State.setPoint_raiseError, State.settledPoint_raiseError, State.point_raiseError]
  | padd =>
    simp only [effect]
    rw [State.setPoint_raiseError, State.settledPoint_raiseError, State.point_raiseError, State.point_raiseError]
  | paddm =>
    simp only [effect]
    rw [State.setPoint_raiseError, State.settledPoint_raiseError, State.point_raiseError, State.affine_raiseError]
  | selj =>
    simp only [effect]
    rw [State.setPoint_raiseError, State.settledPoint_raiseError, State.table_raiseError]

/-- Completion and error change different bits of STATUS. -/
theorem State.finish_raiseError (s : State) (c : BitVec 4) : (s.raiseError c).finish = s.finish.raiseError c := rfl

/-- A command completes under an error as without it. -/
theorem exec_raiseError {i : Instr} {s t : State} (c : BitVec 4) (h : exec i s = .next t) :
    exec i (s.raiseError c) = .next (t.raiseError c) := by
  obtain ⟨hw, rfl⟩ := exec_eq_next h
  rw [exec_of_wellFormed _ hw, effect_raiseError, State.finish_raiseError]

/-- A completion clears BUSY and sets DONE, and leaves ERR and ERRCODE as it found them (R274). -/
theorem status_of_exec_eq_next {i : Instr} {s t : State} (h : exec i s = .next t) : t.status = s.status.completed := by
  obtain ⟨-, rfl⟩ := exec_eq_next h
  rw [State.finish_status, effect_status]

/-- The completion instant of a command in flight carries that command out (R274). -/
theorem step_complete (s : State) {i : Instr} {rest : List Event} (h : s.schedule = .complete :: rest)
    (hb : s.status.busy = true) (hd : decode s.cur = .command i) : step s = exec i (s.setSchedule rest) :=
  (step_of_schedule s h).trans (completionInstant_of_command (s.setSchedule rest) hb hd)

/-- Settles O7: an error commutes with every command, so the command in flight completes under the error that a CMD write
raises. -/
theorem raiseErrorEffect : Obligations.RaiseErrorEffect := by
  refine ⟨fun s c => ⟨rfl, fun hc => (s.raiseError c).irq_of_err hc rfl⟩, fun s t c i => exec_raiseError c,
    fun s t w i rest h he hb hd hx => ?_⟩
  refine ⟨(s.setSchedule (.complete :: rest)).raiseError 3, t.raiseError 3, ?_, hb, rfl, rfl, rfl, rfl, ?_, rfl, rfl, ?_⟩
  · rw [step_cmdWrite s h, cmdWrite_of_busy (s.setSchedule (.complete :: rest)) w he hb]
  · exact (step_complete ((s.setSchedule (.complete :: rest)).raiseError 3) rfl hb hd).trans (exec_raiseError 3 hx)
  · rw [State.raiseError_status, status_of_exec_eq_next hx]
    rfl

/-! STATUS as the host reads it, and the interrupt line (R36, R280). -/

@[simp] theorem State.mapRead_status (s : State) : s.mapRead 0x08 = s.status.word := rfl

/-- A bit of the STATUS word, as the digit of the sum that makes the word up (R36). -/
theorem Status.getLsbD_word (q : Status) {b : Nat} (hb : b < 32) : q.word.getLsbD b =
    decide ((q.busy.toNat + 2 * q.done.toNat + 4 * q.err.toNat + 16 * q.errcode.toNat) / 2 ^ b % 2 = 1) := by
  rw [Status.word, BitVec.getLsbD_ofNat, decide_eq_true hb, Bool.true_and, Nat.testBit_eq_decide_div_mod_eq]

@[simp] theorem Status.getLsbD_word_one (q : Status) : q.word.getLsbD 1 = q.done := by
  have hbusy := q.busy.toNat_lt
  have hdone := q.done.toNat_lt
  have hdigit : (q.busy.toNat + 2 * q.done.toNat + 4 * q.err.toNat + 16 * q.errcode.toNat) / 2 ^ 1 % 2 = q.done.toNat := by
    omega
  rw [Status.getLsbD_word q (by decide), hdigit]
  cases q.done <;> rfl

@[simp] theorem Status.getLsbD_word_two (q : Status) : q.word.getLsbD 2 = q.err := by
  have hbusy := q.busy.toNat_lt
  have hdone := q.done.toNat_lt
  have herr := q.err.toNat_lt
  have hdigit : (q.busy.toNat + 2 * q.done.toNat + 4 * q.err.toNat + 16 * q.errcode.toNat) / 2 ^ 2 % 2 = q.err.toNat := by
    omega
  rw [Status.getLsbD_word q (by decide), hdigit]
  cases q.err <;> rfl

/-- Settles O21: the line is that function of the four bits by definition, and the host reads each bit in its word. -/
theorem interruptLine : Obligations.InterruptLine := by
  refine ⟨fun s => ⟨rfl, ?_⟩, rfl⟩
  rw [State.mapRead_status, State.mapRead_ctrl, Status.getLsbD_word_one, Status.getLsbD_word_two, Ctrl.getLsbD_word_one,
    Ctrl.getLsbD_word_two]
  rfl

end Sys2Proof.Machine
end

section
/-! SUPPORT. Proofs about the step: what one step can do, said once, and the whole-machine rules that follow from it
(R36, R43, R270 to R274, R279). -/

namespace Sys2Proof.Machine

/-! What one step can do. -/

/-- How the flags of a state can move while no command is accepted and none completes (R36, R271, R272). -/
inductive State.FlagsMoveTo (s : State) : Status → Prop where
  /-- They stay. -/
  | stay : s.FlagsMoveTo s.status
  /-- A STATUS write clears some of them. -/
  | clear (v : Word) (h : v.getLsbD 2 = true → s.ClearsErrNext) : s.FlagsMoveTo (s.status.cleared v)
  /-- A command error sets ERR, which was 0, and its code. -/
  | raise (c : BitVec 4) (herr : s.status.err = false) (hc : c ≠ 0) (hle : c.toNat ≤ 3) :
    s.FlagsMoveTo (s.status.raised c)

/-- `t` is `s` but for the host's side: DIN, CTRL, flags other than BUSY, what was last read, the events to come. -/
def State.KeepsCommandIn (s t : State) : Prop :=
  t.f = s.f ∧ t.dout = s.dout ∧ t.cur = s.cur ∧ t.dinl = s.dinl ∧ t.completions = s.completions
    ∧ s.FlagsMoveTo t.status

/-- A STATUS write with bit 2 clear keeps ERR and ERRCODE (R36). -/
theorem Status.cleared_of_not_bit_two (q : Status) {v : Word} (h : v.getLsbD 2 = false) :
    (q.cleared v).err = q.err ∧ (q.cleared v).errcode = q.errcode := by
  rw [Status.cleared_err, Status.cleared_errcode, h]
  simp

/-- A STATUS write with bit 2 set clears ERR and ERRCODE together (R36). -/
theorem Status.cleared_of_bit_two (q : Status) {v : Word} (h : v.getLsbD 2 = true) :
    (q.cleared v).err = false ∧ (q.cleared v).errcode = 0 := by
  rw [Status.cleared_err, Status.cleared_errcode, h]
  simp

theorem State.KeepsCommandIn.of_same_flags {s t : State} (hf : t.f = s.f) (hdout : t.dout = s.dout)
    (hcur : t.cur = s.cur) (hdinl : t.dinl = s.dinl) (hn : t.completions = s.completions) (hq : t.status = s.status) : s.KeepsCommandIn t :=
  ⟨hf, hdout, hcur, hdinl, hn, hq ▸ .stay⟩

theorem State.FlagsMoveTo.busy {s : State} {q : Status} (h : s.FlagsMoveTo q) : q.busy = s.status.busy := by
  cases h <;> rfl

/-- Flags that move while no command completes never set DONE. -/
theorem State.FlagsMoveTo.done {s : State} {q : Status} (h : s.FlagsMoveTo q) (hd : s.status.done = false) :
    q.done = false := by
  cases h with
  | stay | raise => exact hd
  | clear v hv => simp [hd]

/-- ERR with its code goes away by a STATUS write with bit 2 only (R279). -/
theorem State.FlagsMoveTo.err_sticky {s : State} {q : Status} (h : s.FlagsMoveTo q) (he : s.status.err = true) :
    (q.err = true ∧ q.errcode = s.status.errcode) ∨ s.ClearsErrNext := by
  cases h with
  | stay => exact .inl ⟨he, rfl⟩
  | clear v hv =>
    cases hb : v.getLsbD 2 with
    | true => exact .inr (hv hb)
    | false =>
      obtain ⟨herr, hcode⟩ := s.status.cleared_of_not_bit_two hb
      exact .inl ⟨herr.trans he, hcode⟩
  | raise c herr => simp [he] at herr

/-- A write to a map offset other than CTRL with SRST and CMD with a command leaves the command in flight alone. -/
theorem keepsCommandIn_mapWrite {s : State} {off : Nat} {v : Word} {rest : List Event} (ha : accessDefined off 4 = true)
    (h : s.schedule = .write off 4 v :: rest) :
    s.ResetsNext ∧ (s.setSchedule rest).mapWrite off v = (s.setSchedule rest).doReset
      ∨ (off = 0x0C ∧ s.status.err = false ∧ s.status.busy = false ∧ ∃ i, decode v = .command i
          ∧ (s.setSchedule rest).mapWrite off v = (s.setSchedule rest).accept v)
      ∨ s.KeepsCommandIn ((s.setSchedule rest).mapWrite off v) := by
  obtain ⟨rfl, hv, ht⟩ | ⟨-, -, ht⟩ | ⟨rfl, ht⟩ | ⟨rfl, ht⟩ | ⟨-, ht⟩ | ⟨-, ht⟩ :=
    mapWrite_cases (s.setSchedule rest) off v
  · exact .inl ⟨⟨rest, .inr ⟨v, hv, h⟩⟩, ht⟩
  all_goals rw [ht]
  · exact .inr (.inr (.of_same_flags rfl rfl rfl rfl rfl rfl))
  · exact .inr (.inr ⟨rfl, rfl, rfl, rfl, rfl, .clear v fun hv => ⟨v, rest, hv, .inl h⟩⟩)
  · obtain ⟨-, hc⟩ | ⟨he, -, hc⟩ | ⟨he, -, -, hc⟩ | ⟨he, -, -, hc⟩ | ⟨he, hb, i, hd, hc⟩ :=
      cmdWrite_cases (s.setSchedule rest) v
    all_goals rw [hc]
    · exact .inr (.inr (.of_same_flags rfl rfl rfl rfl rfl rfl))
    · exact .inr (.inr ⟨rfl, rfl, rfl, rfl, rfl, .raise 3 he (by decide) (by decide)⟩)
    · exact .inr (.inr ⟨rfl, rfl, rfl, rfl, rfl, .raise 1 he (by decide) (by decide)⟩)
    · exact .inr (.inr ⟨rfl, rfl, rfl, rfl, rfl, .raise 2 he (by decide) (by decide)⟩)
    · exact .inr (.inl ⟨rfl, he, hb, i, hd, rfl⟩)
  · exact .inr (.inr (.of_same_flags rfl rfl rfl rfl rfl rfl))
  · exact .inr (.inr (.of_same_flags rfl rfl rfl rfl rfl rfl))

/-- A completion instant that the schedule of `s` gives next, on a state `u` that still holds the command of `s`. -/
theorem completion_cases {s u t : State} (h : completionInstant u = .next t) (hk : s.KeepsCommandIn u)
    (hs : s.schedule = []
      ∨ ∃ rest, s.schedule = .complete :: rest ∨ ∃ v, s.schedule = .statusWriteAtCompletion v :: rest) :
    (s.CompletesNext ∧ ∃ i u, decode s.cur = .command i ∧ s.KeepsCommandIn u ∧ exec i u = .next t)
      ∨ s.KeepsCommandIn t := by
  obtain ⟨-, -, hcur, -, -, hflags⟩ := id hk
  obtain ⟨-, rfl⟩ | ⟨hb, i, hd, hx⟩ := completionInstant_eq_next h
  · exact .inr hk
  · exact .inl ⟨⟨hflags.busy ▸ hb, hs⟩, i, u, hcur ▸ hd, hk, hx⟩

/-- Whatever a step does is one of these: a reset, the completion of the command in flight, the acceptance of a command,
or something that leaves all commands alone (R82, R272 to R274, R300). -/
theorem step_cases {s t : State} (h : step s = .next t) :
    (s.ResetsNext ∧ ∃ rest, t = (s.setSchedule rest).doReset)
      ∨ (s.CompletesNext ∧ ∃ i u, decode s.cur = .command i ∧ s.KeepsCommandIn u ∧ exec i u = .next t)
      ∨ (∃ w i rest, s.schedule = .write 0x0C 4 w :: rest ∧ s.status.err = false ∧ s.status.busy = false
          ∧ decode w = .command i ∧ t = (s.setSchedule rest).accept w)
      ∨ s.KeepsCommandIn t := by
  cases hs : s.schedule with
  | nil =>
    rw [step_of_empty s hs] at h
    exact .inr ((completion_cases h (.of_same_flags rfl rfl rfl rfl rfl rfl) (.inl hs)).imp_right .inr)
  | cons e rest =>
    rw [step_of_schedule s hs] at h
    obtain ⟨off, size, -, -, rfl⟩ | ⟨off, size, v, rfl, ha, rfl⟩ | ⟨rfl, hc⟩ | ⟨v, rfl, hc⟩ | ⟨rfl, rfl⟩ :=
      runEvent_eq_next h
    · exact .inr (.inr (.inr (.of_same_flags rfl rfl rfl rfl rfl rfl)))
    · obtain rfl : size = 4 := by
        simp only [accessDefined, Bool.and_eq_true, beq_iff_eq] at ha
        exact ha.1.1
      obtain ⟨hr, ht⟩ | ⟨rfl, he, hb, i, hd, ht⟩ | hk := keepsCommandIn_mapWrite ha hs
      · exact .inl ⟨hr, rest, ht⟩
      · exact .inr (.inr (.inl ⟨v, i, rest, rfl, he, hb, hd, ht⟩))
      · exact .inr (.inr (.inr hk))
    · exact .inr ((completion_cases (s := s) hc (.of_same_flags rfl rfl rfl rfl rfl rfl)
        (.inr ⟨rest, .inl hs⟩)).imp_right .inr)
    · exact .inr ((completion_cases (s := s) hc
        ⟨rfl, rfl, rfl, rfl, rfl, .clear v fun hv => ⟨v, rest, hv, .inr hs⟩⟩
        (.inr ⟨rest, .inr ⟨v, hs⟩⟩)).imp_right .inr)
    · exact .inl ⟨⟨rest, .inl hs⟩, rest, rfl⟩

/-! The whole-machine rules (R279, R273, R274, R43). -/

/-- Settles O20: a reset apart, the flags move as a STATUS write or an error moves them, and a completion keeps ERR. -/
theorem errorIsSticky : Obligations.ErrorIsSticky := by
  intro s t he h
  obtain ⟨hr, -⟩ | ⟨-, i, u, -, ⟨-, -, -, -, -, hflags⟩, hx⟩ | ⟨w, i, rest, -, he', -⟩ | ⟨-, -, -, -, -, hflags⟩ :=
    step_cases h
  · exact .inr (.inr hr)
  · rw [status_of_exec_eq_next hx, Status.completed_err, Status.completed_errcode]
    exact (hflags.err_sticky he).imp_right .inl
  · simp [he] at he'
  · exact (hflags.err_sticky he).imp_right .inl

/-- Only TOBIG changes DOUT (R31). -/
theorem eq_tobig_of_dout_ne {i : Instr} {s t : State} (hx : exec i s = .next t) (h : t.dout ≠ s.dout) :
    ∃ ra, i = .tobig ra := by
  obtain ⟨-, rfl⟩ := exec_eq_next hx
  cases i with
  | tobig ra => exact ⟨ra, rfl⟩
  | _ => exact absurd rfl h

/-- Settles O22: one case of the step for each of its parts. -/
theorem stateChangesOnlyAtCompletions : Obligations.StateChangesOnlyAtCompletions := by
  intro s t h
  obtain ⟨hr, rest, rfl⟩ | ⟨hc, i, u, hd, ⟨-, hdout, -⟩, hx⟩ | ⟨w, i, rest, hs, he, hb, hd, rfl⟩ |
      ⟨hf, hdout, -, -, -, hflags⟩ := step_cases h
  · exact ⟨fun _ => .inr hr, fun _ => .inr hr, fun _ _ => .inr hr, fun _ hb => by cases hb⟩
  · refine ⟨fun _ => .inl hc, fun hne => .inl ⟨hc, ?_⟩, fun _ _ => .inl hc, fun _ hb => ?_⟩
    · obtain ⟨ra, rfl⟩ := eq_tobig_of_dout_ne hx (hdout ▸ hne)
      exact ⟨ra, hd⟩
    · rw [status_of_exec_eq_next hx] at hb
      cases hb
  · exact ⟨fun hne => absurd rfl hne, fun hne => absurd rfl hne, fun hb' => by simp [hb] at hb',
      fun _ _ => ⟨he, w, i, rest, hs, hd, rfl⟩⟩
  · have hbusy := hflags.busy
    refine ⟨fun hne => absurd hf hne, fun hne => absurd hdout hne, fun hb hb' => ?_, fun hb hb' => ?_⟩
    · simp [hbusy, hb] at hb'
    · simp [hbusy, hb] at hb'

/-! The invariant (R25, R34, R36, R39, R270). -/

theorem State.FlagsMoveTo.errorField {s : State} {q : Status} (h : s.FlagsMoveTo q) (hs : s.ErrorFieldWf) :
    (q.err = false ↔ q.errcode = 0) ∧ q.errcode.toNat ≤ 3 := by
  obtain ⟨hiff, hle⟩ := hs
  cases h with
  | stay => exact ⟨hiff, hle⟩
  | clear v hv =>
    cases hb : v.getLsbD 2 with
    | true =>
      obtain ⟨herr, hcode⟩ := s.status.cleared_of_bit_two hb
      rw [herr, hcode]
      decide
    | false =>
      obtain ⟨herr, hcode⟩ := s.status.cleared_of_not_bit_two hb
      rw [herr, hcode]
      exact ⟨hiff, hle⟩
  | raise c herr hc hc3 => exact ⟨iff_of_false (by simp) hc, hc3⟩

/-- Settles O13: every register is the all-zero vector, the ports are 0 and nothing is in flight. -/
theorem resetMeetsInv : Obligations.ResetMeetsInv :=
  ⟨fun r => by rw [State.reg_reset]; exact zero_inSlack, ⟨by decide, by decide⟩, by
    unfold State.DoutCanonical
    decide, fun hb => by cases hb⟩

theorem inv_doReset (s : State) : s.doReset.Inv := resetMeetsInv

end Sys2Proof.Machine
end

section
/-! SUPPORT. Proofs about the encoding: the decoder undoes the encoder, and a word matches one row of the opcode map only
(R101 to R108). -/

namespace Sys2Proof.Machine

/-- Settles O1: the decoder finds a command exactly in that command's word. -/
theorem decodeEncode : Obligations.DecodeEncode := fun i hw => (decode_eq_command_iff_encode (encode i) i).mpr ⟨hw, rfl⟩

/-- The sixteen rows of the opcode map, each the row of one instruction (R105). -/
def opcodeMap : List OpcodeRow :=
  [Instr.row .nop, Instr.row (.fadd 0 0 0), Instr.row (.fsub 0 0 0), Instr.row (.fmul 0 0 0), Instr.row (.fsqr 0 0),
    Instr.row (.fmul2 0 0 0), Instr.row (.fsqr2 0 0), Instr.row (.frombig 0), Instr.row (.tobig 0),
    Instr.row (.pdbl 0 0), Instr.row (.padd 0 0 0), Instr.row (.paddm 0 0 0), Instr.row (.sela 0 0 0), Instr.row (.selj 0 0 0),
    Instr.row (.ccopy 0 0 false), Instr.row (.ldc 0 .zero)]

theorem row_mem_opcodeMap (i : Instr) : i.row ∈ opcodeMap := by cases i <;> simp [opcodeMap, Instr.row]

/-- No two rows share an opcode (R105). -/
theorem opcodeMap_injective :
    ∀ r ∈ opcodeMap, ∀ q ∈ opcodeMap, fieldOp r.pattern = fieldOp q.pattern → r = q := by decide

/-- The opcode of an instruction names its row. -/
theorem row_eq_of_opcode_eq {i j : Instr} (h : Laws.opcode i = Laws.opcode j) : i.row = j.row := by
  refine opcodeMap_injective _ (row_mem_opcodeMap i) _ (row_mem_opcodeMap j) ?_
  rw [(fields_row_pattern i).1, (fields_row_pattern j).1, h]

/-- A word matches one row at most, that of its opcode. -/
theorem row_eq_of_hits {i j : Instr} {w : Word} (hi : i.row.hits w = true) (hj : j.row.hits w = true) :
    j.row = i.row := by
  obtain ⟨hopi, -⟩ := (row_hits_iff i w).mp hi
  obtain ⟨hopj, -⟩ := (row_hits_iff j w).mp hj
  exact row_eq_of_opcode_eq (hopj.symm.trans hopi)

/-- Settles O2: the word is the command's, by O1's equivalence, and its opcode names the one row it matches. -/
theorem encodeDecode : Obligations.EncodeDecode := by
  intro w i h
  obtain ⟨hw, he⟩ := (decode_eq_command_iff_encode w i).mp h
  obtain ⟨hhits, -⟩ := (decode_eq_command_iff w i).mp h
  exact ⟨hw, he, hhits, fun j hj => row_eq_of_hits hhits hj⟩

/-- Settles O4: nine words are encodings, and the other four the decoder refuses. -/
theorem specWordsDecode : Obligations.SpecWordsDecode := by
  have command {w : Word} {i : Instr} (hw : i.wellFormed = true) (he : encode i = w) : decode w = .command i :=
    (decode_eq_command_iff_encode w i).mpr ⟨hw, he⟩
  exact ⟨command rfl rfl, command rfl rfl, command rfl rfl, command rfl rfl, command rfl rfl, command rfl rfl,
    command rfl rfl, command rfl rfl, command rfl rfl, by decide, by decide, by decide,
    decode_of_illegalOpcode (by decide)⟩

/-- Settles O11: a command within its limits completes its effect, whose STATUS is the one it found. -/
theorem everyCommandCompletes : Obligations.EveryCommandCompletes := fun i s hw =>
  ⟨_, exec_of_wellFormed s hw, congrArg Status.completed (effect_status i s)⟩

end Sys2Proof.Machine
end

section
/-! SUPPORT. Proofs about the register map, continued: the ports, STATUS, and reads (R33, R34, R36, R37, R76). -/

namespace Sys2Proof.Machine

section Ports

variable (s : State) {off k : Nat}

/-! DIN, DOUT and CMD (R33, R34, R37). -/

theorem State.mapWrite_din (hk : k < 8) (v : Word) : s.mapWrite (0x20 + 4 * k) v = s.setDin k v := by
  rw [State.mapWrite, if_neg (by omega), if_neg (by omega), if_neg (by omega), if_pos (by omega),
    show (0x20 + 4 * k - 0x20) / 4 = k by omega]

theorem State.mapWrite_dout (hk : k < 8) (v : Word) : s.mapWrite (0x40 + 4 * k) v = s :=
  s.mapWrite_of_ignored (by omega) (by omega) (by omega) (by omega) v

theorem State.mapRead_din (hk : k < 8) : s.mapRead (0x20 + 4 * k) = s.din[k] := by
  rw [State.mapRead, if_neg (by omega), if_neg (by omega), if_neg (by omega), dif_pos (by omega)]
  congr 1
  omega

theorem State.mapRead_dout (hk : k < 8) : s.mapRead (0x40 + 4 * k) = s.dout[k] := by
  rw [State.mapRead, if_neg (by omega), if_neg (by omega), if_neg (by omega), dif_neg (by omega), dif_pos (by omega)]
  congr 1
  omega

@[simp] theorem State.mapRead_cmd : s.mapRead 0x0C = 0 := rfl

@[simp] theorem State.mapWrite_status (v : Word) : s.mapWrite 0x08 v = s.clearFlags v := rfl

/-- What the host reads depends on the two registers and the two ports only (R72). -/
theorem State.mapRead_congr {s t : State} (hctrl : t.ctrl = s.ctrl) (hstatus : t.status = s.status)
    (hdin : t.din = s.din) (hdout : t.dout = s.dout) (off : Nat) : t.mapRead off = s.mapRead off := by
  simp only [State.mapRead, hctrl, hstatus, hdin, hdout]

end Ports

/-- Inside a port the write of a word is its replacement. -/
theorem State.setDin_eq_set (s : State) {k : Nat} (hk : k < 8) (v : Word) :
    s.setDin k v = { s with din := s.din.set k v } := by
  have hvec : s.din.setIfInBounds k v = s.din.set k v :=
    Vector.ext fun i hi => by rw [Vector.getElem_setIfInBounds, Vector.getElem_set]
  rw [State.setDin, hvec]

/-- Settles O17: each port word is a defined access, whose step is the map's access to that word. -/
theorem portAccesses : Obligations.PortAccesses := by
  intro s k hk rest
  have hin : accessDefined (0x20 + 4 * k) 4 = true := accessDefined_of_aligned (by omega) (by omega)
  have hout : accessDefined (0x40 + 4 * k) 4 = true := accessDefined_of_aligned (by omega) (by omega)
  refine ⟨fun v h => ?_, fun v h => ?_, fun h => ?_, fun h => ?_, fun h => ?_⟩
  · rw [step_write s h hin, State.mapWrite_din _ hk, State.setDin_eq_set _ hk]
    rfl
  · rw [step_write s h hout, State.mapWrite_dout _ hk]
    rfl
  · rw [step_read s h hin, State.mapRead_din s hk]
    rfl
  · rw [step_read s h hout, State.mapRead_dout s hk]
    rfl
  · rw [step_read s h (by decide), State.mapRead_cmd]
    rfl

/-! STATUS as the host reads it (R36). -/

theorem Status.toNat_word (q : Status) :
    q.word.toNat = q.busy.toNat + 2 * q.done.toNat + 4 * q.err.toNat + 16 * q.errcode.toNat := by
  have := q.busy.toNat_lt
  have := q.done.toNat_lt
  have := q.err.toNat_lt
  have := q.errcode.isLt
  rw [Status.word, BitVec.toNat_ofNat]
  omega

@[simp] theorem Status.getLsbD_word_zero (q : Status) : q.word.getLsbD 0 = q.busy := by
  have hbusy := q.busy.toNat_lt
  have hdigit :
      (q.busy.toNat + 2 * q.done.toNat + 4 * q.err.toNat + 16 * q.errcode.toNat) / 2 ^ 0 % 2 = q.busy.toNat := by
    omega
  rw [Status.getLsbD_word q (by decide), hdigit]
  cases q.busy <;> rfl

/-- Bit 3 is reserved (R36). -/
@[simp] theorem Status.getLsbD_word_three (q : Status) : q.word.getLsbD 3 = false := by
  have hbusy := q.busy.toNat_lt
  have hdone := q.done.toNat_lt
  have herr := q.err.toNat_lt
  rw [Status.getLsbD_word q (by decide), decide_eq_false]
  omega

/-- ERRCODE stands in bits 7:4 (R36). -/
theorem Status.getLsbD_word_errcode (q : Status) (b : Nat) : q.word.getLsbD (4 + b) = q.errcode.getLsbD b := by
  have hbusy := q.busy.toNat_lt
  have hdone := q.done.toNat_lt
  have herr := q.err.toNat_lt
  have hshift : q.word.toNat / 2 ^ 4 = q.errcode.toNat := by
    rw [Status.toNat_word]
    omega
  rw [BitVec.getLsbD, BitVec.getLsbD, ← hshift, Nat.testBit_div_two_pow, Nat.add_comm]

/-- Bits 31:8 are reserved: the word is below 2^8 (R36). -/
theorem Status.getLsbD_word_reserved (q : Status) {b : Nat} (h : 8 ≤ b) : q.word.getLsbD b = false := by
  have hw : q.word.toNat < 2 ^ 8 := by
    have := q.busy.toNat_lt
    have := q.done.toNat_lt
    have := q.err.toNat_lt
    have := q.errcode.isLt
    rw [Status.toNat_word]
    omega
  exact Nat.testBit_lt_two_pow (hw.trans_le (Nat.pow_le_pow_right (by decide) h))

/-- The write-1-to-clear bits, as the statement of STATUS writes them (R36). -/
theorem Status.cleared_eq (q : Status) (v : Word) :
    q.cleared v = { busy := q.busy, done := if v.getLsbD 1 then false else q.done,
                    err := if v.getLsbD 2 then false else q.err, errcode := if v.getLsbD 2 then 0 else q.errcode } := by
  unfold Status.cleared
  cases v.getLsbD 1 <;> cases v.getLsbD 2 <;> simp

/-- Settles O19: the access is the map's, the bits are those of the word, and the completion follows the clearing. -/
theorem statusRegister : Obligations.StatusRegister := by
  have hd : accessDefined 0x08 4 = true := by decide
  refine ⟨fun s rest h => ?_, fun s v rest h => ?_, fun s v rest i h hb hc => ?_⟩
  · refine ⟨_, step_read s h hd, rfl, ?_⟩
    rw [State.setRdata_rdata, State.mapRead_status]
    exact ⟨Status.getLsbD_word_zero _, Status.getLsbD_word_one _, Status.getLsbD_word_two _,
      Status.getLsbD_word_three _, fun b _ => Status.getLsbD_word_errcode _ b, fun b hb => Status.getLsbD_word_reserved _ hb⟩
  · rw [step_write s h hd, State.mapWrite_status, ← Status.cleared_eq]
    rfl
  · obtain ⟨hw, -⟩ := (decode_eq_command_iff_encode s.cur i).mp hc
    have hstep := (step_of_schedule s h).trans (completionInstant_of_command ((s.setSchedule rest).clearFlags v) hb hc)
    refine ⟨_, hstep.trans (exec_of_wellFormed _ hw), rfl, rfl, ?_⟩
    rw [State.finish_status, effect_status, State.clearFlags_status, Status.cleared_eq]
    rfl

/-- Settles O23: a read changes the word read and the rest of the schedule, and the map shows neither. -/
theorem readsHaveNoSideEffects : Obligations.ReadsHaveNoSideEffects := fun s _ _ ha hw h =>
  ⟨step_read s h (accessDefined_of_aligned ha hw), fun o => State.mapRead_congr rfl rfl rfl rfl o⟩

end Sys2Proof.Machine
end

section
/-! SUPPORT. Proofs about the commands: what each writes when the registers it reads are in slack (R30, R32, R136 to
R222). -/

namespace Sys2Proof.Machine

/-! Operands. -/

theorem forall_inSlack_pair {a b : FE} (ha : InSlack a) (hb : InSlack b) : ∀ c ∈ [a, b], InSlack c :=
  List.forall_mem_cons.mpr ⟨ha, List.forall_mem_singleton.mpr hb⟩

theorem Jacobian.InSlack.forall_vectors {P : Jacobian} (h : P.InSlack) : ∀ a ∈ P.vectors, Machine.InSlack a := by
  obtain ⟨hx, hy, hz⟩ := h
  exact List.forall_mem_cons.mpr ⟨hx, forall_inSlack_pair hy hz⟩

theorem Affine.InSlack.forall_vectors {A : Affine} (h : A.InSlack) : ∀ a ∈ A.vectors, Machine.InSlack a :=
  forall_inSlack_pair h.1 h.2

theorem regPlus_regPlus (r : Reg) (j k : Nat) : regPlus (regPlus r j) k = regPlus r (j + k) := by
  refine Fin.ext ?_
  simp only [regPlus, Fin.ofNat]
  omega

theorem fitsPair_of_le {r : Reg} (h : r.val ≤ 62) : r.fitsPair = true := decide_eq_true h

theorem fitsPoint_of_le {r : Reg} (h : r.val ≤ 61) : r.fitsPoint = true := decide_eq_true h

theorem fitsTable_of_le {r : Reg} (h : r.val ≤ 16) : r.fitsTable = true := decide_eq_true h

/-! The selector and the conditional copy (R215, R219). -/

theorem condCopy_eq (out inp : FE) (c : Bool) : condCopy out inp c = if c then inp else out := by
  simp only [condCopy, zipLimbs, condLimb]
  cases c <;> rfl

theorem selectAffine_of_getElem? {E : List Affine} {idx : Nat} {A : Affine} (h : E[idx]? = some A) :
    selectAffine E idx = A := by
  simp only [selectAffine, select_eq, List.getElem?_map, h, Option.map_some, Option.getD_some]

theorem selectJacobian_of_getElem? {E : List Jacobian} {idx : Nat} {P : Jacobian} (h : E[idx]? = some P) :
    selectJacobian E idx = P := by
  simp only [selectJacobian, select_eq, List.getElem?_map, h, Option.map_some, Option.getD_some]

theorem State.table_getElem? (s : State) (rb : Reg) (idx : Fin 16) :
    (s.table rb)[idx.val]? = some (s.point (regPlus rb (3 * idx.val))) := by
  rw [State.table, List.getElem?_map, List.getElem?_range idx.isLt, Option.map_some]

/-- The point `3k` registers into a table, by its registers (R29). -/
theorem State.point_regPlus (s : State) (rb : Reg) (k : Nat) :
    s.point (regPlus rb k) = ⟨s.reg (regPlus rb k), s.reg (regPlus rb (k + 1)), s.reg (regPlus rb (k + 2))⟩ := by
  simp only [State.point, regPlus_regPlus]

theorem State.table_inSlack {s : State} {rb : Reg} (h : ∀ k, k < 48 → InSlack (s.reg (regPlus rb k))) :
    ∀ a ∈ (s.table rb).flatMap Jacobian.vectors, InSlack a := by
  intro a ha
  obtain ⟨P, hP, haP⟩ := List.mem_flatMap.mp ha
  obtain ⟨k, hk, rfl⟩ := List.mem_map.mp hP
  have hk16 := List.mem_range.mp hk
  refine Jacobian.InSlack.forall_vectors ?_ a haP
  rw [State.point_regPlus]
  exact ⟨h _ (by omega), h _ (by omega), h _ (by omega)⟩

/-! What a command writes when its sources are in slack (log 4). -/

section Effect

variable (s : State) {rd ra rb : Reg}

theorem effect_fadd (ha : InSlack (s.reg ra)) (hb : InSlack (s.reg rb)) :
    effect (.fadd rd ra rb) s = s.setReg rd (add (s.reg ra) (s.reg rb)) :=
  congrArg (s.setReg rd) (s.settled_of_inSlack 0 _ (forall_inSlack_pair ha hb))

theorem effect_fsub (ha : InSlack (s.reg ra)) (hb : InSlack (s.reg rb)) :
    effect (.fsub rd ra rb) s = s.setReg rd (sub (s.reg ra) (s.reg rb)) :=
  congrArg (s.setReg rd) (s.settled_of_inSlack 0 _ (forall_inSlack_pair ha hb))

theorem State.mulLane_of_inSlack (slot : Nat) (ha : InSlack (s.reg ra)) (hb : InSlack (s.reg rb)) :
    s.mulLane slot rd ra rb = s.setReg rd (mul (s.reg ra) (s.reg rb)) :=
  congrArg (s.setReg rd) (s.settled_of_inSlack slot _ (forall_inSlack_pair ha hb))

theorem State.squareLane_of_inSlack (slot : Nat) (ha : InSlack (s.reg ra)) :
    s.squareLane slot rd ra = s.setReg rd (square (s.reg ra)) :=
  congrArg (s.setReg rd) (s.settled_of_inSlack slot _ (List.forall_mem_singleton.mpr ha))

theorem effect_fmul (ha : InSlack (s.reg ra)) (hb : InSlack (s.reg rb)) :
    effect (.fmul rd ra rb) s = s.setReg rd (mul (s.reg ra) (s.reg rb)) := s.mulLane_of_inSlack 0 ha hb

theorem effect_fsqr (ha : InSlack (s.reg ra)) : effect (.fsqr rd ra) s = s.setReg rd (square (s.reg ra)) :=
  s.squareLane_of_inSlack 0 ha

/-- A register that lane 0 leaves in slack, whether it wrote it or not. -/
theorem inSlack_reg_setReg {r : Reg} {v : FE} (hv : InSlack v) (hr : InSlack (s.reg r)) :
    InSlack ((s.setReg rd v).reg r) := by
  rw [State.reg_setReg]
  split
  · exact hv
  · exact hr

/-- The two lanes of FMUL2 are FMUL and then FMUL (R164, R165). -/
theorem effect_fmul2 (ha : InSlack (s.reg ra)) (hb : InSlack (s.reg rb)) (ha' : InSlack (s.reg (regPlus ra 1)))
    (hb' : InSlack (s.reg (regPlus rb 1))) :
    effect (.fmul2 rd ra rb) s
      = effect (.fmul (regPlus rd 1) (regPlus ra 1) (regPlus rb 1)) (effect (.fmul rd ra rb) s) := by
  have hm := mul_inSlack ha hb
  change (s.mulLane 0 rd ra rb).mulLane 1 (regPlus rd 1) (regPlus ra 1) (regPlus rb 1) = _
  rw [s.mulLane_of_inSlack 0 ha hb, effect_fmul s ha hb,
    effect_fmul _ (inSlack_reg_setReg s hm ha') (inSlack_reg_setReg s hm hb'),
    State.mulLane_of_inSlack _ 1 (inSlack_reg_setReg s hm ha') (inSlack_reg_setReg s hm hb')]

/-- The two lanes of FSQR2 are FSQR and then FSQR (R164, R166). -/
theorem effect_fsqr2 (ha : InSlack (s.reg ra)) (ha' : InSlack (s.reg (regPlus ra 1))) :
    effect (.fsqr2 rd ra) s = effect (.fsqr (regPlus rd 1) (regPlus ra 1)) (effect (.fsqr rd ra) s) := by
  have hm := square_inSlack ha
  change (s.squareLane 0 rd ra).squareLane 1 (regPlus rd 1) (regPlus ra 1) = _
  rw [s.squareLane_of_inSlack 0 ha, effect_fsqr s ha, effect_fsqr _ (inSlack_reg_setReg s hm ha'),
    State.squareLane_of_inSlack _ 1 (inSlack_reg_setReg s hm ha')]

theorem effect_tobig (ha : InSlack (s.reg ra)) : effect (.tobig ra) s = s.setDout (portWords (toBig (s.reg ra))) :=
  congrArg s.setDout (s.settledDout_of_inSlack _ ha)

theorem effect_pdbl (hP : (s.point ra).InSlack) : effect (.pdbl rd ra) s = s.setPoint rd (double (s.point ra)) :=
  congrArg (s.setPoint rd) (s.settledPoint_of_inSlack _ hP.forall_vectors)

theorem effect_padd (hP : (s.point ra).InSlack) (hQ : (s.point rb).InSlack) :
    effect (.padd rd ra rb) s = s.setPoint rd (fullAdd (s.point ra) (s.point rb)) :=
  congrArg (s.setPoint rd)
    (s.settledPoint_of_inSlack _ (List.forall_mem_append.mpr ⟨hP.forall_vectors, hQ.forall_vectors⟩))

theorem effect_paddm (hP : (s.point ra).InSlack) (hA : (s.affine rb).InSlack) :
    effect (.paddm rd ra rb) s = s.setPoint rd (mixedAdd (s.point ra) (s.affine rb)) :=
  congrArg (s.setPoint rd)
    (s.settledPoint_of_inSlack _ (List.forall_mem_append.mpr ⟨hP.forall_vectors, hA.forall_vectors⟩))

theorem effect_selj (idx : Fin 16) (h : ∀ k, k < 48 → InSlack (s.reg (regPlus rb k))) :
    effect (.selj rd rb idx) s = s.setPoint rd (s.point (regPlus rb (3 * idx.val))) :=
  congrArg (s.setPoint rd) ((s.settledPoint_of_inSlack _ (State.table_inSlack h)).trans
    (selectJacobian_of_getElem? (s.table_getElem? rb idx)))

theorem effect_ccopy (c : Bool) (hd : InSlack (s.reg rd)) (ha : InSlack (s.reg ra)) :
    effect (.ccopy rd ra c) s = s.setReg rd (if c then s.reg ra else s.reg rd) :=
  congrArg (s.setReg rd) ((s.settled_of_inSlack 0 _ (forall_inSlack_pair hd ha)).trans (condCopy_eq _ _ c))

end Effect

/-! Field commands (R136, R137, R162 to R166). -/

/-- Settles O47: the two commands write Add and Sub, whose laws are those of the residues. -/
theorem faddFsubResult : Obligations.FaddFsubResult := by
  intro s rd ra rb ha hb
  have hadd : (effect (.fadd rd ra rb) s).finish.reg rd = add (s.reg ra) (s.reg rb) := by
    rw [State.reg_finish, effect_fadd s ha hb, State.reg_setReg_same]
  have hsub : (effect (.fsub rd ra rb) s).finish.reg rd = sub (s.reg ra) (s.reg rb) := by
    rw [State.reg_finish, effect_fsub s ha hb, State.reg_setReg_same]
  refine ⟨⟨_, exec_of_wellFormed s rfl, completedWriting_finish_effect s (.fadd rd ra rb), hadd, ?_⟩,
    ⟨_, exec_of_wellFormed s rfl, completedWriting_finish_effect s (.fsub rd ra rb), hsub, ?_⟩⟩
  · rw [hadd]
    exact ⟨add_inSlack ha hb, toBig_add ha hb⟩
  · rw [hsub]
    exact ⟨sub_inSlack ha hb, toBig_sub ha hb⟩

/-- Squaring is multiplying a register by itself, so FMUL and FSQR have one effect (R161). -/
theorem effect_fmul_self (s : State) {rd ra : Reg} (ha : InSlack (s.reg ra)) :
    effect (.fmul rd ra ra) s = effect (.fsqr rd ra) s := by
  rw [effect_fmul s ha ha, effect_fsqr s ha]
  rfl

/-- Settles O48: the two commands write Mul and Square, which is Mul of a vector by itself. -/
theorem fmulFsqrResult : Obligations.FmulFsqrResult := by
  intro s rd ra rb ha hb
  have hmul : (effect (.fmul rd ra rb) s).finish.reg rd = mul (s.reg ra) (s.reg rb) := by
    rw [State.reg_finish, effect_fmul s ha hb, State.reg_setReg_same]
  have hsqr : (effect (.fsqr rd ra) s).finish.reg rd = square (s.reg ra) := by
    rw [State.reg_finish, effect_fsqr s ha, State.reg_setReg_same]
  refine ⟨⟨_, exec_of_wellFormed s rfl, completedWriting_finish_effect s (.fmul rd ra rb), hmul, ?_⟩,
    ⟨_, exec_of_wellFormed s rfl, completedWriting_finish_effect s (.fsqr rd ra), hsqr, ?_⟩⟩
  · rw [hmul]
    exact ⟨mul_inSlack ha hb, toBig_mul ha hb⟩
  · rw [hsqr, exec_of_wellFormed s rfl, effect_fmul_self s ha]
    exact ⟨square_inSlack ha, toBig_mul ha ha, rfl⟩

/-- Settles O49: FMUL2's effect is that of two FMULs, the second on the registers the first left. -/
theorem fmul2Result : Obligations.Fmul2Result := by
  intro s rd ra rb hrd hra hrb ha hb ha' hb'
  have hw : (Instr.fmul2 rd ra rb).WellFormed :=
    Bool.and_eq_true_iff.mpr ⟨Bool.and_eq_true_iff.mpr ⟨fitsPair_of_le hrd, fitsPair_of_le hra⟩, fitsPair_of_le hrb⟩
  have hne : rd ≠ regPlus rd 1 := (regPlus_ne_self (by decide) (by decide)).symm
  have hm := mul_inSlack ha hb
  have heff : effect (.fmul2 rd ra rb) s = (s.setReg rd (mul (s.reg ra) (s.reg rb))).setReg (regPlus rd 1)
      (mul ((s.setReg rd (mul (s.reg ra) (s.reg rb))).reg (regPlus ra 1))
        ((s.setReg rd (mul (s.reg ra) (s.reg rb))).reg (regPlus rb 1))) := by
    rw [effect_fmul2 s ha hb ha' hb', effect_fmul s ha hb,
      effect_fmul _ (inSlack_reg_setReg s hm ha') (inSlack_reg_setReg s hm hb')]
  have hlane0 : (effect (.fmul2 rd ra rb) s).finish.reg rd = mul (s.reg ra) (s.reg rb) := by
    rw [State.reg_finish, heff, State.reg_setReg_ne _ _ hne, State.reg_setReg_same]
  refine ⟨_, exec_of_wellFormed s hw, completedWriting_finish_effect s (.fmul2 rd ra rb), hlane0, ?_,
    _, _, exec_of_wellFormed s rfl, exec_of_wellFormed _ rfl, ?_⟩
  · rw [hlane0, State.reg_finish, heff, State.reg_setReg_same, State.reg_setReg, State.reg_setReg]
  · rw [heff, effect_fmul s ha hb,
      effect_fmul (s.setReg rd _).finish (inSlack_reg_setReg s hm ha') (inSlack_reg_setReg s hm hb')]
    rfl

/-- Settles O50: FSQR2's effect is that of two FSQRs, the second on the registers the first left. -/
theorem fsqr2Result : Obligations.Fsqr2Result := by
  intro s rd ra hrd hra ha ha'
  have hw : (Instr.fsqr2 rd ra).WellFormed :=
    Bool.and_eq_true_iff.mpr ⟨fitsPair_of_le hrd, fitsPair_of_le hra⟩
  have hne : rd ≠ regPlus rd 1 := (regPlus_ne_self (by decide) (by decide)).symm
  have hm := square_inSlack ha
  have heff : effect (.fsqr2 rd ra) s = (s.setReg rd (square (s.reg ra))).setReg (regPlus rd 1)
      (square ((s.setReg rd (square (s.reg ra))).reg (regPlus ra 1))) := by
    rw [effect_fsqr2 s ha ha', effect_fsqr s ha, effect_fsqr _ (inSlack_reg_setReg s hm ha')]
  have hlane0 : (effect (.fsqr2 rd ra) s).finish.reg rd = square (s.reg ra) := by
    rw [State.reg_finish, heff, State.reg_setReg_ne _ _ hne, State.reg_setReg_same]
  refine ⟨_, exec_of_wellFormed s hw, completedWriting_finish_effect s (.fsqr2 rd ra), hlane0, ?_,
    _, _, exec_of_wellFormed s rfl, exec_of_wellFormed _ rfl, ?_⟩
  · rw [hlane0, State.reg_finish, heff, State.reg_setReg_same, State.reg_setReg]
  · rw [heff, effect_fsqr s ha, effect_fsqr (s.setReg rd _).finish (inSlack_reg_setReg s hm ha')]
    rfl

/-! The converter commands (R181, R183). -/

/-- Settles O51: FROMBIG writes FromBig of DINL, which any integer has. -/
theorem frombigResult : Obligations.FrombigResult := by
  intro s rd
  have hreg : (effect (.frombig rd) s).finish.reg rd = fromBig s.dinl.toNat := State.reg_setReg_same s rd _
  refine ⟨_, exec_of_wellFormed s rfl, completedWriting_finish_effect s (.frombig rd), hreg, ?_⟩
  rw [hreg]
  exact ⟨fromBig_inSlack _, toBig_fromBig _⟩

/-- Word k of a port written from an integer (R183). -/
theorem getElem_portWords (y : Nat) {k : Nat} (h : k < 8) : (portWords y)[k].toNat = y / 2 ^ (32 * k) % 2 ^ 32 := by
  interval_cases k <;>
    simp only [portWords, Vector.getElem_mk, List.getElem_toArray, List.getElem_cons_zero, List.getElem_cons_succ,
      BitVec.toNat_ofNat, Nat.mul_zero, pow_zero, Nat.div_one]

theorem portValue_portWords_toBig (a : FE) : portValue (portWords (toBig a)) = toBig a :=
  portValue_portWords ((toBig_lt a).trans (by decide))

/-- Settles O52: TOBIG writes the eight words of the canonical integer. -/
theorem tobigResult : Obligations.TobigResult := by
  intro s ra ha
  have hdout : (effect (.tobig ra) s).finish.dout = portWords (toBig (s.reg ra)) := by
    rw [State.finish_dout, effect_tobig s ha, State.setDout_dout]
  refine ⟨_, exec_of_wellFormed s rfl, completedWriting_finish_effect s (.tobig ra), ?_⟩
  rw [hdout, portValue_portWords_toBig]
  exact ⟨rfl, toBig_lt _, fun k hk => getElem_portWords _ hk⟩

/-! The point commands (R191, R203, R206). -/

section PointResults

variable {s : State} {i : Instr} {rd : Reg} {P : Jacobian}

/-- What a command that writes a point leaves in its three registers. -/
theorem point_finish_effect (h : effect i s = s.setPoint rd P) (hP : P.InSlack) :
    (effect i s).finish.point rd = P ∧ InSlack ((effect i s).finish.reg rd)
      ∧ InSlack ((effect i s).finish.reg (regPlus rd 1)) ∧ InSlack ((effect i s).finish.reg (regPlus rd 2)) := by
  have hpt : (effect i s).finish.point rd = P := h ▸ s.point_setPoint rd P
  obtain ⟨hx, hy, hz⟩ := hpt ▸ hP
  exact ⟨hpt, hx, hy, hz⟩

end PointResults

/-- Settles O53: the effect is the writing of Double of the point read before. -/
theorem pdblResult : Obligations.PdblResult := by
  intro s rd ra hrd hra hx hy hz
  have hP : (s.point ra).InSlack := ⟨hx, hy, hz⟩
  have hw : (Instr.pdbl rd ra).WellFormed :=
    Bool.and_eq_true_iff.mpr ⟨fitsPoint_of_le hrd, fitsPoint_of_le hra⟩
  exact ⟨_, exec_of_wellFormed s hw, completedWriting_finish_effect s (.pdbl rd ra),
    point_finish_effect (effect_pdbl s hP) (double_inSlack hP)⟩

/-- Settles O54: the effect is the writing of FullAdd of the two points read before. -/
theorem paddResult : Obligations.PaddResult := by
  intro s rd ra rb hrd hra hrb h
  have hpt (r : Reg) (hr : ∀ k, k < 3 → InSlack (s.reg (regPlus r k))) : (s.point r).InSlack :=
    ⟨regPlus_zero r ▸ hr 0 (by decide), hr 1 (by decide), hr 2 (by decide)⟩
  have hP := hpt ra fun k hk => (h k hk).1
  have hQ := hpt rb fun k hk => (h k hk).2
  have hw : (Instr.padd rd ra rb).WellFormed :=
    Bool.and_eq_true_iff.mpr ⟨Bool.and_eq_true_iff.mpr ⟨fitsPoint_of_le hrd, fitsPoint_of_le hra⟩, fitsPoint_of_le hrb⟩
  exact ⟨_, exec_of_wellFormed s hw, completedWriting_finish_effect s (.padd rd ra rb),
    point_finish_effect (effect_padd s hP hQ) (fullAdd_inSlack hP hQ)⟩

/-- Settles O55: the effect is the writing of MixedAdd of the two sources read before. -/
theorem paddmResult : Obligations.PaddmResult := by
  intro s rd ra rb hrd hra hrb h hx hy
  have hP : (s.point ra).InSlack := ⟨regPlus_zero ra ▸ h 0 (by decide), h 1 (by decide), h 2 (by decide)⟩
  have hA : (s.affine rb).InSlack := ⟨hx, hy⟩
  have hw : (Instr.paddm rd ra rb).WellFormed :=
    Bool.and_eq_true_iff.mpr ⟨Bool.and_eq_true_iff.mpr ⟨fitsPoint_of_le hrd, fitsPoint_of_le hra⟩, fitsPair_of_le hrb⟩
  exact ⟨_, exec_of_wellFormed s hw, completedWriting_finish_effect s (.paddm rd ra rb),
    point_finish_effect (effect_paddm s hP hA) (mixedAdd_inSlack hP hA)⟩

/-! Selection and copy (R216, R217, R220, R222). -/

theorem Nominal.canonicalPacked {a : FE} (h : Nominal a) : CanonicalPacked a := ⟨val a, h.val_lt, (pack_val h).symm⟩

/-- The limbs of the fixed-base table are within their nominal widths (R59). -/
theorem baseGroup_nominal : ∀ g : Fin 2, ∀ A ∈ baseGroup g, Nominal A.x ∧ Nominal A.y := by decide

theorem baseGroup_length : ∀ g : Fin 2, (baseGroup g).length = 16 := by decide

theorem baseGroup_zero : ∀ g : Fin 2, (baseGroup g)[0]? = some ⟨FE.zero, FE.zero⟩ := by decide

/-- Settles O56: the selector gives the entry of its index, and every entry is packed. -/
theorem selaResult : Obligations.SelaResult := by
  intro s rd g idx hrd
  have hw : (Instr.sela rd g idx).WellFormed := fitsPair_of_le hrd
  have hidx : idx.val < (baseGroup g).length := (baseGroup_length g).symm ▸ idx.isLt
  have hentry : (baseGroup g)[idx.val]? = some (baseGroup g)[idx.val] := List.getElem?_eq_getElem hidx
  have haf : (effect (.sela rd g idx) s).finish.affine rd = (baseGroup g)[idx.val] := by
    rw [← selectAffine_of_getElem? hentry]
    exact s.affine_setAffine rd _
  obtain ⟨hx, hy⟩ := baseGroup_nominal g _ (List.getElem_mem hidx)
  rw [← haf] at hentry hx hy
  refine ⟨_, exec_of_wellFormed s hw, completedWriting_finish_effect s (.sela rd g idx), hentry, hx.canonicalPacked,
    hy.canonicalPacked, fun h0 => ?_⟩
  subst h0
  rw [Fin.val_zero, baseGroup_zero g, Option.some.injEq] at hentry
  exact ⟨(congrArg Affine.x hentry).symm, (congrArg Affine.y hentry).symm⟩

/-- Settles O57: the selector gives the entry of its index, read before the destination is written. -/
theorem seljResult : Obligations.SeljResult := by
  intro s rd rb idx hrd hrb h
  have hw : (Instr.selj rd rb idx).WellFormed :=
    Bool.and_eq_true_iff.mpr ⟨fitsPoint_of_le hrd, fitsTable_of_le hrb⟩
  have hpt : (effect (.selj rd rb idx) s).finish.point rd = s.point (regPlus rb (3 * idx.val)) :=
    effect_selj s idx h ▸ s.point_setPoint rd _
  rw [State.point_regPlus] at hpt
  exact ⟨_, exec_of_wellFormed s hw, completedWriting_finish_effect s (.selj rd rb idx),
    congrArg Jacobian.x hpt, congrArg Jacobian.y hpt, congrArg Jacobian.z hpt⟩

theorem State.setReg_self (s : State) (r : Reg) : s.setReg r (s.reg r) = s := by
  rw [State.setReg, State.reg_eq_getElem, Vector.set_getElem_self]

/-- Settles O58: the conditional copy gives one vector or the other, and writing a register its own vector changes
nothing. -/
theorem ccopyResult : Obligations.CcopyResult := by
  intro s rd ra c hd ha
  refine ⟨_, exec_of_wellFormed s rfl, completedWriting_finish_effect s (.ccopy rd ra c), ?_, fun h => ?_⟩
  · rw [State.reg_finish, effect_ccopy s c hd ha, State.reg_setReg_same]
  · have hself : (if c then s.reg ra else s.reg rd) = s.reg rd := by
      obtain rfl | rfl := h
      · rfl
      · exact ite_self _
    rw [State.finish_f, effect_ccopy s c hd ha, hself, State.setReg_self]

theorem constant_canonicalPacked (k : ConstId) : CanonicalPacked (constant k) :=
  Nominal.canonicalPacked (by cases k <;> decide)

/-- Settles O59: the five constants of the model are the packings that R222 names. -/
theorem ldcResult : Obligations.LdcResult := by
  intro s rd k
  have hreg : (effect (.ldc rd k) s).finish.reg rd = constant k := State.reg_setReg_same s rd _
  refine ⟨_, exec_of_wellFormed s rfl, completedWriting_finish_effect s (.ldc rd k), ?_⟩
  rw [hreg]
  refine ⟨?_, constant_canonicalPacked k⟩
  cases k with
  | zero => rfl
  | one => exact (fromBig_eq_carryRow (c := 1) (by decide)).symm
  | a => exact (by decide : feA = fromBig (p - 3))
  | bm => exact (by decide : feBM = fromBig curveB)
  | pv => exact fePV_eq_pack

/-- Settles O46: NOP has no effect but its completion, which sets DONE. -/
theorem nopResult : Obligations.NopResult := fun s =>
  ⟨_, exec_of_wellFormed s rfl, completedWriting_finish_effect s .nop, fun hie => State.irq_of_done _ hie rfl⟩

end Sys2Proof.Machine
end

section
/-! SUPPORT. Proofs about what the results of a command depend on (R30). -/

namespace Sys2Proof.Machine

/-! What the results depend on (R30). -/

section Reads

variable {e e' s s' : State} {rd r : Reg}

/-- One register written with one vector. -/
theorem reg_congr_of_setReg {v v' : FE} (h : e = s.setReg rd v) (h' : e' = s'.setReg rd v') (hv : v' = v)
    (hr : r ∈ [rd]) : e'.reg r = e.reg r := by
  rw [h, h', List.mem_singleton.mp hr, State.reg_setReg_same, State.reg_setReg_same, hv]

/-- The two registers of a pair written with one pair. -/
theorem reg_congr_of_setAffine {A A' : Affine} (h : e = s.setAffine rd A) (h' : e' = s'.setAffine rd A') (hA : A' = A)
    (hr : r ∈ [rd, regPlus rd 1]) : e'.reg r = e.reg r := by
  have haf : e'.affine rd = e.affine rd := by rw [h, h', State.affine_setAffine, State.affine_setAffine, hA]
  simp only [List.mem_cons, List.not_mem_nil, or_false] at hr
  obtain rfl | rfl := hr
  · exact congrArg Affine.x haf
  · exact congrArg Affine.y haf

/-- The three registers of a point written with one point. -/
theorem reg_congr_of_setPoint {P P' : Jacobian} (h : e = s.setPoint rd P) (h' : e' = s'.setPoint rd P') (hP : P' = P)
    (hr : r ∈ [rd, regPlus rd 1, regPlus rd 2]) : e'.reg r = e.reg r := by
  have hpt : e'.point rd = e.point rd := by rw [h, h', State.point_setPoint, State.point_setPoint, hP]
  simp only [List.mem_cons, List.not_mem_nil, or_false] at hr
  obtain rfl | rfl | rfl := hr
  · exact congrArg Jacobian.x hpt
  · exact congrArg Jacobian.y hpt
  · exact congrArg Jacobian.z hpt

/-- A source of lane 1, as lane 0 left it. -/
theorem reg_setReg_congr {v v' : FE} (hv : v' = v) (h : s'.reg r = s.reg r) :
    (s'.setReg rd v').reg r = (s.setReg rd v).reg r := by
  rw [State.reg_setReg, State.reg_setReg, hv, h]

end Reads

/-! The sources of a command, taken out of its read set. -/

theorem forall_mem_pair {q : Reg → Prop} {a b : Reg} (h : ∀ r ∈ [a, b], q r) : q a ∧ q b :=
  ⟨h a (by simp), h b (by simp)⟩

section Sources

variable {s s' : State} {r : Reg}

/-- A source point, in slack and the same in two states. -/
theorem point_sources
    (h : ∀ q ∈ [r, regPlus r 1, regPlus r 2], InSlack (s.reg q) ∧ InSlack (s'.reg q) ∧ s'.reg q = s.reg q) :
    (s.point r).InSlack ∧ (s'.point r).InSlack ∧ s'.point r = s.point r := by
  obtain ⟨⟨hx, hx', ex⟩, h⟩ := List.forall_mem_cons.mp h
  obtain ⟨⟨hy, hy', ey⟩, hz, hz', ez⟩ := forall_mem_pair h
  exact ⟨⟨hx, hy, hz⟩, ⟨hx', hy', hz'⟩, by rw [State.point, State.point, ex, ey, ez]⟩

/-- A source affine point, in slack and the same in two states. -/
theorem affine_sources
    (h : ∀ q ∈ [r, regPlus r 1], InSlack (s.reg q) ∧ InSlack (s'.reg q) ∧ s'.reg q = s.reg q) :
    (s.affine r).InSlack ∧ (s'.affine r).InSlack ∧ s'.affine r = s.affine r := by
  obtain ⟨⟨hx, hx', ex⟩, hy, hy', ey⟩ := forall_mem_pair h
  exact ⟨⟨hx, hy⟩, ⟨hx', hy'⟩, by rw [State.affine, State.affine, ex, ey]⟩

end Sources

/-! What the commands write depends on their sources. -/

/-- The two vectors that FMUL2 writes, as a pair. -/
theorem effect_fmul2_eq_setAffine (s : State) {rd ra rb : Reg} (ha : InSlack (s.reg ra)) (hb : InSlack (s.reg rb))
    (ha' : InSlack (s.reg (regPlus ra 1))) (hb' : InSlack (s.reg (regPlus rb 1))) :
    effect (.fmul2 rd ra rb) s = s.setAffine rd ⟨mul (s.reg ra) (s.reg rb),
      mul ((s.setReg rd (mul (s.reg ra) (s.reg rb))).reg (regPlus ra 1))
        ((s.setReg rd (mul (s.reg ra) (s.reg rb))).reg (regPlus rb 1))⟩ := by
  have hm := mul_inSlack ha hb
  rw [effect_fmul2 s ha hb ha' hb', effect_fmul s ha hb,
    effect_fmul _ (inSlack_reg_setReg s hm ha') (inSlack_reg_setReg s hm hb')]
  rfl

/-- The two vectors that FSQR2 writes, as a pair. -/
theorem effect_fsqr2_eq_setAffine (s : State) {rd ra : Reg} (ha : InSlack (s.reg ra))
    (ha' : InSlack (s.reg (regPlus ra 1))) :
    effect (.fsqr2 rd ra) s = s.setAffine rd ⟨square (s.reg ra),
      square ((s.setReg rd (square (s.reg ra))).reg (regPlus ra 1))⟩ := by
  have hm := square_inSlack ha
  rw [effect_fsqr2 s ha ha', effect_fsqr s ha, effect_fsqr _ (inSlack_reg_setReg s hm ha')]
  rfl

/-- What a command writes is a function of the registers it reads, and of DINL for FROMBIG (R30). -/
theorem reg_effect_congr {i : Instr} {s s' : State} (hslack : ∀ r ∈ i.reads, InSlack (s.reg r))
    (hregs : ∀ r ∈ i.reads, s'.reg r = s.reg r) (hdinl : i.readsDinl = true → s'.dinl = s.dinl) {r : Reg}
    (hr : r ∈ i.writes) : (effect i s').reg r = (effect i s).reg r := by
  have hsrc : ∀ r ∈ i.reads, InSlack (s.reg r) ∧ InSlack (s'.reg r) ∧ s'.reg r = s.reg r := fun q hq =>
    ⟨hslack q hq, hregs q hq ▸ hslack q hq, hregs q hq⟩
  cases i with
  | nop | tobig => cases hr
  | ldc rd k => exact reg_congr_of_setReg (s := s) (s' := s') rfl rfl rfl hr
  | sela rd g idx => exact reg_congr_of_setAffine (s := s) (s' := s') rfl rfl rfl hr
  | frombig rd => exact reg_congr_of_setReg (s := s) (s' := s') rfl rfl (by rw [hdinl rfl]) hr
  | fadd rd ra rb =>
    obtain ⟨⟨ha, ha', ea⟩, hb, hb', eb⟩ := forall_mem_pair hsrc
    exact reg_congr_of_setReg (effect_fadd s ha hb) (effect_fadd s' ha' hb') (by rw [ea, eb]) hr
  | fsub rd ra rb =>
    obtain ⟨⟨ha, ha', ea⟩, hb, hb', eb⟩ := forall_mem_pair hsrc
    exact reg_congr_of_setReg (effect_fsub s ha hb) (effect_fsub s' ha' hb') (by rw [ea, eb]) hr
  | fmul rd ra rb =>
    obtain ⟨⟨ha, ha', ea⟩, hb, hb', eb⟩ := forall_mem_pair hsrc
    exact reg_congr_of_setReg (effect_fmul s ha hb) (effect_fmul s' ha' hb') (by rw [ea, eb]) hr
  | ccopy rd ra c =>
    obtain ⟨⟨ha, ha', ea⟩, hd, hd', ed⟩ := forall_mem_pair hsrc
    exact reg_congr_of_setReg (effect_ccopy s c hd ha) (effect_ccopy s' c hd' ha') (by rw [ea, ed]) hr
  | fsqr rd ra =>
    obtain ⟨ha, ha', ea⟩ := List.forall_mem_singleton.mp hsrc
    exact reg_congr_of_setReg (effect_fsqr s ha) (effect_fsqr s' ha') (by rw [ea]) hr
  | fmul2 rd ra rb =>
    obtain ⟨⟨ha, ha', ea⟩, hsrc⟩ := List.forall_mem_cons.mp hsrc
    obtain ⟨⟨ha1, ha1', ea1⟩, hsrc⟩ := List.forall_mem_cons.mp hsrc
    obtain ⟨⟨hb, hb', eb⟩, hb1, hb1', eb1⟩ := forall_mem_pair hsrc
    have hm : mul (s'.reg ra) (s'.reg rb) = mul (s.reg ra) (s.reg rb) := by rw [ea, eb]
    refine reg_congr_of_setAffine (effect_fmul2_eq_setAffine s ha hb ha1 hb1)
      (effect_fmul2_eq_setAffine s' ha' hb' ha1' hb1') ?_ hr
    rw [reg_setReg_congr hm ea1, reg_setReg_congr hm eb1, hm]
  | fsqr2 rd ra =>
    obtain ⟨⟨ha, ha', ea⟩, ha1, ha1', ea1⟩ := forall_mem_pair hsrc
    have hm : square (s'.reg ra) = square (s.reg ra) := by rw [ea]
    refine reg_congr_of_setAffine (effect_fsqr2_eq_setAffine s ha ha1) (effect_fsqr2_eq_setAffine s' ha' ha1') ?_ hr
    rw [reg_setReg_congr hm ea1, hm]
  | pdbl rd ra =>
    obtain ⟨hP, hP', eP⟩ := point_sources hsrc
    exact reg_congr_of_setPoint (effect_pdbl s hP) (effect_pdbl s' hP') (by rw [eP]) hr
  | padd rd ra rb =>
    obtain ⟨hsrcP, hsrcQ⟩ := (List.forall_mem_append (l₁ := [ra, regPlus ra 1, regPlus ra 2])).mp hsrc
    obtain ⟨hP, hP', eP⟩ := point_sources hsrcP
    obtain ⟨hQ, hQ', eQ⟩ := point_sources hsrcQ
    exact reg_congr_of_setPoint (effect_padd s hP hQ) (effect_padd s' hP' hQ') (by rw [eP, eQ]) hr
  | paddm rd ra rb =>
    obtain ⟨hsrcP, hsrcA⟩ := (List.forall_mem_append (l₁ := [ra, regPlus ra 1, regPlus ra 2])).mp hsrc
    obtain ⟨hP, hP', eP⟩ := point_sources hsrcP
    obtain ⟨hA, hA', eA⟩ := affine_sources hsrcA
    exact reg_congr_of_setPoint (effect_paddm s hP hA) (effect_paddm s' hP' hA') (by rw [eP, eA]) hr
  | selj rd rb idx =>
    have hsrc48 := fun k hk => List.forall_mem_map.mp hsrc k (List.mem_range.mpr hk)
    refine reg_congr_of_setPoint (effect_selj s idx fun k hk => (hsrc48 k hk).1)
      (effect_selj s' idx fun k hk => (hsrc48 k hk).2.1) ?_ hr
    have ereg (k : Nat) (hk : k < 48) : s'.reg (regPlus rb k) = s.reg (regPlus rb k) := (hsrc48 k hk).2.2
    rw [State.point_regPlus, State.point_regPlus, ereg _ (by omega), ereg _ (by omega), ereg _ (by omega)]

/-- Settles O10: what the command writes is a function of its sources, and so is the port value of a TOBIG. -/
theorem commandsReadOnlyTheirSources : Obligations.CommandsReadOnlyTheirSources := by
  intro i s s' t hslack hregs hdinl hx
  obtain ⟨hw, rfl⟩ := exec_eq_next hx
  refine ⟨_, exec_of_wellFormed s' hw, fun r hr => reg_effect_congr hslack hregs hdinl hr, fun hout => ?_⟩
  cases i with
  | tobig ra =>
    have ha : InSlack (s.reg ra) := hslack ra (List.mem_singleton_self ra)
    have ea : s'.reg ra = s.reg ra := hregs ra (List.mem_singleton_self ra)
    rw [State.finish_dout, State.finish_dout, effect_tobig s ha, effect_tobig s' (ea ▸ ha), ea]
    rfl
  | _ => cases hout

end Sys2Proof.Machine
end

section
/-! SUPPORT. Proofs about runs: every step keeps the invariant, goes on unless an access is undefined, and brings a command
in flight to its completion whatever the host does (R25, R34, R39, R75, R310). -/

namespace Sys2Proof.Machine

/-! A command keeps the registers in slack and DOUT canonical (R25, R34). -/

section Slack

variable {s : State}

theorem State.RegsInSlack.setReg (hs : s.RegsInSlack) {v : FE} (hv : InSlack v) (r : Reg) :
    (s.setReg r v).RegsInSlack :=
  fun q => inSlack_reg_setReg s hv (hs q)

theorem State.RegsInSlack.setAffine (hs : s.RegsInSlack) {A : Affine} (hA : A.InSlack) (r : Reg) :
    (s.setAffine r A).RegsInSlack :=
  (hs.setReg hA.1 r).setReg hA.2 _

theorem State.RegsInSlack.setPoint (hs : s.RegsInSlack) {P : Jacobian} (hP : P.InSlack) (r : Reg) :
    (s.setPoint r P).RegsInSlack := by
  obtain ⟨hx, hy, hz⟩ := hP
  exact ((hs.setReg hx r).setReg hy _).setReg hz _

theorem State.RegsInSlack.point (hs : s.RegsInSlack) (r : Reg) : (s.point r).InSlack := ⟨hs _, hs _, hs _⟩

theorem State.RegsInSlack.affine (hs : s.RegsInSlack) (r : Reg) : (s.affine r).InSlack := ⟨hs _, hs _⟩

theorem baseGroup_inSlack (g : Fin 2) (idx : Fin 16) : (selectAffine (baseGroup g) idx.val).InSlack := by
  have hidx : idx.val < (baseGroup g).length := (baseGroup_length g).symm ▸ idx.isLt
  rw [selectAffine_of_getElem? (List.getElem?_eq_getElem hidx)]
  obtain ⟨hx, hy⟩ := baseGroup_nominal g _ (List.getElem_mem hidx)
  exact ⟨hx.inSlack, hy.inSlack⟩

/-- Every command writes vectors in slack (R25). -/
theorem regsInSlack_effect (hs : s.RegsInSlack) (i : Instr) : (effect i s).RegsInSlack := by
  cases i with
  | nop | tobig => exact hs
  | fadd rd ra rb => exact effect_fadd s (hs ra) (hs rb) ▸ hs.setReg (add_inSlack (hs ra) (hs rb)) rd
  | fsub rd ra rb => exact effect_fsub s (hs ra) (hs rb) ▸ hs.setReg (sub_inSlack (hs ra) (hs rb)) rd
  | fmul rd ra rb => exact effect_fmul s (hs ra) (hs rb) ▸ hs.setReg (mul_inSlack (hs ra) (hs rb)) rd
  | fsqr rd ra => exact effect_fsqr s (hs ra) ▸ hs.setReg (square_inSlack (hs ra)) rd
  | fmul2 rd ra rb =>
    have hlane0 := hs.setReg (mul_inSlack (hs ra) (hs rb)) rd
    rw [effect_fmul2_eq_setAffine s (hs _) (hs _) (hs _) (hs _)]
    exact hs.setAffine ⟨mul_inSlack (hs _) (hs _), mul_inSlack (hlane0 _) (hlane0 _)⟩ rd
  | fsqr2 rd ra =>
    have hlane0 := hs.setReg (square_inSlack (hs ra)) rd
    rw [effect_fsqr2_eq_setAffine s (hs _) (hs _)]
    exact hs.setAffine ⟨square_inSlack (hs _), square_inSlack (hlane0 _)⟩ rd
  | frombig rd => exact hs.setReg (fromBig_inSlack _) rd
  | pdbl rd ra => exact effect_pdbl s (hs.point ra) ▸ hs.setPoint (double_inSlack (hs.point ra)) rd
  | padd rd ra rb =>
    exact effect_padd s (hs.point ra) (hs.point rb) ▸ hs.setPoint (fullAdd_inSlack (hs.point ra) (hs.point rb)) rd
  | paddm rd ra rb =>
    exact effect_paddm s (hs.point ra) (hs.affine rb) ▸ hs.setPoint (mixedAdd_inSlack (hs.point ra) (hs.affine rb)) rd
  | sela rd g idx => exact hs.setAffine (baseGroup_inSlack g idx) rd
  | selj rd rb idx => exact effect_selj s idx (fun k _ => hs (regPlus rb k)) ▸ hs.setPoint (hs.point _) rd
  | ccopy rd ra c =>
    refine effect_ccopy s c (hs rd) (hs ra) ▸ hs.setReg ?_ rd
    cases c
    · exact hs rd
    · exact hs ra
  | ldc rd k => exact hs.setReg (constant_inSlack k) rd

/-- Only TOBIG writes DOUT, and it writes a canonical integer (R34). -/
theorem doutCanonical_effect (hs : s.RegsInSlack) (hd : s.DoutCanonical) (i : Instr) : (effect i s).DoutCanonical := by
  cases i with
  | tobig ra =>
    rw [effect_tobig s (hs ra)]
    exact (portValue_portWords_toBig _).trans_lt (toBig_lt _)
  | _ => exact hd

end Slack

/-! The invariant under each kind of step. -/

theorem State.KeepsCommandIn.inv {s t : State} (h : s.KeepsCommandIn t) (hs : s.Inv) : t.Inv := by
  obtain ⟨hf, hdout, hcur, -, -, hflags⟩ := h
  obtain ⟨hregs, herr, hcan, hin⟩ := hs
  have hreg (r : Reg) : t.reg r = s.reg r := congrArg (fun v : Vector FE 64 => v[r.val]) hf
  refine ⟨fun r => hreg r ▸ hregs r, hflags.errorField herr, ?_, fun hb => ?_⟩
  · change portValue t.dout < p
    exact hdout ▸ hcan
  · obtain ⟨hd, hc⟩ := hin (hflags.busy ▸ hb)
    exact ⟨hflags.done hd, hcur ▸ hc⟩

theorem inv_exec {i : Instr} {s t : State} (hx : exec i s = .next t) (hs : s.Inv) : t.Inv := by
  obtain ⟨hregs, herr, hcan, -⟩ := hs
  have hst := status_of_exec_eq_next hx
  obtain ⟨-, rfl⟩ := exec_eq_next hx
  refine ⟨regsInSlack_effect hregs i, ?_, doutCanonical_effect hregs hcan i, fun hb => ?_⟩
  · rw [State.ErrorFieldWf, hst]
    exact herr
  · rw [hst] at hb
    cases hb

theorem inv_accept {s : State} {w : Word} {i : Instr} (hd : decode w = .command i) (hs : s.Inv) : (s.accept w).Inv := by
  obtain ⟨hregs, herr, hcan, -⟩ := hs
  exact ⟨hregs, herr, hcan, fun _ => ⟨rfl, i, hd⟩⟩

/-- Settles O14: each of the four kinds of step keeps it. -/
theorem stepKeepsInv : Obligations.StepKeepsInv := by
  intro s t hs h
  obtain ⟨-, rest, rfl⟩ | ⟨-, i, u, -, hk, hx⟩ | ⟨w, i, rest, -, -, -, hd, rfl⟩ | hk := step_cases h
  · exact inv_doReset _
  · exact inv_exec hx (hk.inv hs)
  · exact inv_accept hd ((State.KeepsCommandIn.of_same_flags rfl rfl rfl rfl rfl rfl).inv hs)
  · exact hk.inv hs

/-! What goes on and what is refused (U2, log 8). -/

/-- A completion instant goes on when a command is in flight or nothing is. -/
theorem completionInstant_goesOn {s : State} (h : s.InFlightWf) : ∃ t, completionInstant s = .next t := by
  cases hb : s.status.busy with
  | false => exact ⟨s, completionInstant_of_idle s hb⟩
  | true =>
    obtain ⟨-, i, hd⟩ := h hb
    obtain ⟨hw, -⟩ := (decode_eq_command_iff_encode _ _).mp hd
    exact ⟨_, (completionInstant_of_command s hb hd).trans (exec_of_wellFormed s hw)⟩

theorem runEvent_of_not_defined {e : Event} (s : State) (h : ¬e.Defined) :
    runEvent e s = .refused .hostAccessUndefined := by
  cases e with
  | read off size => exact if_neg h
  | write off size v => exact if_neg h
  | complete | statusWriteAtCompletion | hwReset => exact absurd trivial h

theorem runEvent_of_defined {e : Event} {s : State} (h : e.Defined) (hs : s.InFlightWf) :
    ∃ t, runEvent e s = .next t := by
  cases e with
  | read off size => exact ⟨_, if_pos h⟩
  | write off size v => exact ⟨_, if_pos h⟩
  | complete => exact completionInstant_goesOn hs
  | hwReset => exact ⟨_, rfl⟩
  | statusWriteAtCompletion v =>
    refine completionInstant_goesOn (s := s.clearFlags v) fun hb => ?_
    obtain ⟨hd, hc⟩ := hs hb
    exact ⟨by simp [hd], hc⟩

/-- Settles O15: the event is defined, and goes on, or it is not, and is refused; with none left the unit completes. -/
theorem invStatesGoOn : Obligations.InvStatesGoOn := by
  rintro s ⟨-, -, -, hin⟩
  cases hs : s.schedule with
  | nil =>
    obtain ⟨t, ht⟩ := completionInstant_goesOn hin
    exact .inr ⟨⟨t, (step_of_empty s hs).trans ht⟩, fun e rest h => by cases h⟩
  | cons e rest =>
    have hstep := step_of_schedule s hs
    by_cases he : e.Defined
    · obtain ⟨t, ht⟩ := runEvent_of_defined (s := s.setSchedule rest) he hin
      refine .inr ⟨⟨t, hstep.trans ht⟩, fun e' rest' h => ?_⟩
      cases h
      exact he
    · exact .inl ⟨hstep.trans (runEvent_of_not_defined _ he), e, rest, rfl, he⟩

/-! Runs. -/

theorem run_succ {s t : State} (h : step s = .next t) (k : Nat) :
    Host.Core.run Sys2Proof.core (k + 1) s = Host.Core.run Sys2Proof.core k t := by
  have : Sys2Proof.core.step s = .next t := h
  simp only [Host.Core.run, this]

@[simp] theorem State.cmdWrite_schedule (s : State) (w : Word) : (s.cmdWrite w).schedule = s.schedule := by
  obtain ⟨-, h⟩ | ⟨-, -, h⟩ | ⟨-, -, -, h⟩ | ⟨-, -, -, h⟩ | ⟨-, -, i, -, h⟩ := cmdWrite_cases s w <;>
    exact (congrArg State.schedule h).trans rfl

@[simp] theorem State.mapWrite_schedule (s : State) (off : Nat) (v : Word) :
    (s.mapWrite off v).schedule = s.schedule := by
  obtain ⟨-, -, h⟩ | ⟨-, -, h⟩ | ⟨-, h⟩ | ⟨-, h⟩ | ⟨-, h⟩ | ⟨-, h⟩ := mapWrite_cases s off v
  case inr.inr.inr.inl => rw [h, State.cmdWrite_schedule]
  all_goals exact (congrArg State.schedule h).trans rfl

theorem completionInstant_schedule {s t : State} (h : completionInstant s = .next t) : t.schedule = s.schedule := by
  obtain ⟨-, rfl⟩ | ⟨-, i, -, hx⟩ := completionInstant_eq_next h
  · rfl
  · obtain ⟨-, rfl⟩ := exec_eq_next hx
    rw [State.finish_schedule, effect_schedule]

/-- A step takes the next event off the schedule (log 1). -/
theorem step_schedule {s t : State} {e : Event} {rest : List Event} (hs : s.schedule = e :: rest)
    (h : step s = .next t) : t.schedule = rest := by
  rw [step_of_schedule s hs] at h
  obtain ⟨off, size, -, -, rfl⟩ | ⟨off, size, v, -, -, rfl⟩ | ⟨-, hc⟩ | ⟨v, -, hc⟩ | ⟨-, rfl⟩ := runEvent_eq_next h
  · rfl
  · rw [State.mapWrite_schedule]
    rfl
  · exact completionInstant_schedule hc
  · exact completionInstant_schedule hc
  · rfl

theorem run_one {s t : State} (h : step s = .next t) : Host.Core.run Sys2Proof.core 1 s = .next t := run_succ h 0

/-! A command in flight under host traffic (R39, R75, R85). -/

/-- `t` holds the command in flight of `s`, and what its completion reads. -/
def State.HoldsCommandOf (s t : State) : Prop :=
  t.status.busy = true ∧ t.cur = s.cur ∧ t.dinl = s.dinl ∧ t.f = s.f ∧ t.dout = s.dout ∧ t.completions = s.completions

/-- A quiet access leaves the command in flight as it is. -/
theorem step_quiet {s : State} {e : Event} {rest : List Event} (hb : s.status.busy = true) (he : e.Quiet)
    (hs : s.schedule = e :: rest) : ∃ t, step s = .next t ∧ s.HoldsCommandOf t ∧ t.schedule = rest := by
  have hgo : ∃ t, runEvent e (s.setSchedule rest) = .next t := by
    cases e with
    | read off size => exact ⟨_, if_pos he⟩
    | write off size v => exact ⟨_, if_pos he.1⟩
    | complete | statusWriteAtCompletion | hwReset => exact he.elim
  obtain ⟨t, ht⟩ := hgo
  have hstep := (step_of_schedule s hs).trans ht
  refine ⟨t, hstep, ?_, step_schedule hs hstep⟩
  obtain ⟨⟨r, hr⟩, -⟩ | ⟨⟨-, hc⟩, -⟩ | ⟨w, j, r, -, -, hb', -⟩ | ⟨hf, hdout, hcur, hdinl, hn, hflags⟩ :=
    step_cases hstep
  · rw [hs] at hr
    obtain hr | ⟨v, hv, hr⟩ := hr <;> cases hr
    · exact he.elim
    · exact absurd hv (by rw [he.2 rfl]; decide)
  · rw [hs] at hc
    obtain hc | ⟨r, hc | ⟨v, hc⟩⟩ := hc <;> cases hc <;> exact he.elim
  · simp [hb] at hb'
  · exact ⟨hflags.busy.trans hb, hcur, hdinl, hf, hdout, hn⟩

/-- So does any list of them. -/
theorem run_quiet {es rest : List Event} :
    ∀ {s : State}, s.status.busy = true → (∀ e ∈ es, e.Quiet) → s.schedule = es ++ rest →
      ∃ t, Host.Core.run Sys2Proof.core es.length s = .next t ∧ s.HoldsCommandOf t ∧ t.schedule = rest := by
  induction es with
  | nil => exact fun hb _ hs => ⟨_, rfl, ⟨hb, rfl, rfl, rfl, rfl, rfl⟩, hs⟩
  | cons e es ih =>
    intro s hb he hs
    obtain ⟨hq, hqs⟩ := List.forall_mem_cons.mp he
    obtain ⟨t, hstep, ⟨hb1, hcur, hdinl, hf, hdout, hn⟩, ht⟩ := step_quiet hb hq hs
    obtain ⟨u, hrun, ⟨hb2, hcur', hdinl', hf', hdout', hn'⟩, hu⟩ := ih hb1 hqs ht
    exact ⟨u, (run_succ hstep _).trans hrun, ⟨hb2, hcur'.trans hcur, hdinl'.trans hdinl, hf'.trans hf,
      hdout'.trans hdout, hn'.trans hn⟩, hu⟩

/-- A command's effect on the registers and on DOUT is a function of these four fields (logs 4 and 5). -/
theorem effect_congr {s t : State} (hf : t.f = s.f) (hdinl : t.dinl = s.dinl) (hdout : t.dout = s.dout)
    (hn : t.completions = s.completions) (i : Instr) :
    (effect i t).f = (effect i s).f ∧ (effect i t).dout = (effect i s).dout := by
  cases s
  cases t
  cases hf; cases hdinl; cases hdout; cases hn
  cases i <;> exact ⟨rfl, rfl⟩

/-- Settles O24: the accesses leave the command and what it reads alone, so its completion has the effect it would have
had. -/
theorem hostTrafficCannotDisturb : Obligations.HostTrafficCannotDisturb := by
  intro s es rest i hb hd hes hs
  obtain ⟨hw, -⟩ := (decode_eq_command_iff_encode _ _).mp hd
  obtain ⟨u, hrun, ⟨hbu, hcur, hdinl, hf, hdout, hn⟩, hu⟩ := run_quiet hb hes hs
  obtain ⟨heff, heffd⟩ := effect_congr (s := s) (t := u.setSchedule rest) hf hdinl hdout hn i
  have hstep : step u = .next (effect i (u.setSchedule rest)).finish :=
    (step_complete u hu hbu (hcur ▸ hd)).trans (exec_of_wellFormed _ hw)
  refine ⟨_, u, _, exec_of_wellFormed s hw, hrun, hbu, hcur, hdinl, hf, hdout, hstep, heff, heffd, rfl, rfl, ?_⟩
  exact effect_schedule i (u.setSchedule rest)

/-! Bounded completion (R310, log 2). -/

/-- With no event left the unit completes what is in flight. -/
theorem step_alone_completes {s t : State} (hs : s.schedule = []) (hb : s.status.busy = true) (h : step s = .next t) :
    t.status.busy = false := by
  rw [step_of_empty s hs] at h
  obtain ⟨hb', -⟩ | ⟨-, i, -, hx⟩ := completionInstant_eq_next h
  · simp [hb] at hb'
  · rw [status_of_exec_eq_next hx, Status.completed_busy]

/-- An Inv state whose next event is defined has a next step. -/
theorem safe_of_inv {s : State} (hs : s.Inv) (hdef : ∀ e ∈ s.schedule, e.Defined) : s.Safe := by
  obtain ⟨-, e, rest, hsched, he⟩ | ⟨h, -⟩ := invStatesGoOn s hs
  · exact absurd (hdef e (hsched ▸ List.mem_cons_self)) he
  · exact h

/-- Settles O25, by induction on the events to come: a step either clears BUSY or leaves one event fewer. -/
theorem everyAcceptedCommandCompletes : Obligations.EveryAcceptedCommandCompletes := by
  intro s
  induction hs : s.schedule generalizing s with
  | nil =>
    intro hinv hb hdef
    obtain ⟨t, ht⟩ := safe_of_inv hinv (hs ▸ hdef)
    exact ⟨1, t, le_rfl, run_one ht, step_alone_completes hs hb ht⟩
  | cons e rest ih =>
    intro hinv hb hdef
    obtain ⟨t, ht⟩ := safe_of_inv hinv (hs ▸ hdef)
    cases hbt : t.status.busy with
    | false => exact ⟨1, t, Nat.le_add_left 1 _, run_one ht, hbt⟩
    | true =>
      obtain ⟨k, u, hk, hrun, hu⟩ := ih t (step_schedule hs ht) (stepKeepsInv s t hinv ht) hbt
        (List.forall_mem_cons.mp hdef).2
      exact ⟨k + 1, u, Nat.succ_le_succ hk, (run_succ ht k).trans hrun, hu⟩

end Sys2Proof.Machine
end

section
/-! SUPPORT. Proofs about the last line of the reduction and about its pipeline: ReduceCarry limb by limb (R131), and the
packed lanes, which hold `T + M·p` throughout (R153 to R158). -/

namespace Sys2Proof.Machine

/-! ReduceCarry (R131). -/

/-- Row c of the ReduceCarry table packs c times `2^257 mod p` (R54). -/
theorem pack_mul_radix_eq_carryRow {c : Nat} (h : c ≤ 7) : pack (c * (2 ^ 257 % p)) = carryRow c := by
  interval_cases c <;> decide

theorem nominal_of_limb_lt {a : FE} (h : ∀ i, i < 9 → limb a i < 2 ^ limbWidth i) : Nominal a :=
  ⟨h 0 (by decide), h 1 (by decide), h 2 (by decide), h 3 (by decide), h 4 (by decide), h 5 (by decide),
    h 6 (by decide), h 7 (by decide), h 8 (by decide)⟩

/-- The bounds on the four limbs of a row (R54, R131). -/
theorem carryRow_limbs_le {c : Nat} (h : c ≤ 7) :
    (carryRow c).l0.toNat ≤ 14 ∧ (carryRow c).l2.toNat ≤ 2 ^ 29 - 2 ^ 8 ∧ (carryRow c).l3.toNat ≤ 7 * 2 ^ 11 - 1
      ∧ (carryRow c).l7.toNat ≤ 7 * 2 ^ 25 := by
  interval_cases c <;> decide

/-- The four limbs that ReduceCarry adds to do not overflow their containers (R131). -/
theorem reduceCarry_limbs {a : FE} {c : Nat} (ha : Nominal a) (hc : c ≤ 7) :
    (reduceCarry a c).l0.toNat = a.l0.toNat + (carryRow c).l0.toNat
      ∧ (reduceCarry a c).l2.toNat = a.l2.toNat + (carryRow c).l2.toNat
      ∧ (reduceCarry a c).l3.toNat = a.l3.toNat + (carryRow c).l3.toNat
      ∧ (reduceCarry a c).l7.toNat = a.l7.toNat + (carryRow c).l7.toNat := by
  obtain ⟨g0, -, g2, g3, -, -, -, g7, -⟩ := ha
  obtain ⟨r0, r2, r3, r7⟩ := carryRow_limbs_le hc
  refine ⟨Nat.mod_eq_of_lt ?_, Nat.mod_eq_of_lt ?_, Nat.mod_eq_of_lt ?_, Nat.mod_eq_of_lt ?_⟩ <;> omega

theorem limb_reduceCarry {a : FE} {c : Nat} (ha : Nominal a) (hc : c ≤ 7) {i : Nat} (hi : i < 9) :
    limb (reduceCarry a c) i
      = if i = 0 ∨ i = 2 ∨ i = 3 ∨ i = 7 then limb a i + limb (carryRow c) i else limb a i := by
  obtain ⟨h0, h2, h3, h7⟩ := reduceCarry_limbs ha hc
  interval_cases i
  exacts [h0, rfl, h2, h3, rfl, rfl, rfl, h7, rfl]

theorem reduceCarry_zero (a : FE) : reduceCarry a 0 = a := by
  cases a
  simp [reduceCarry, carryRow, FE.zero]

/-- Settles O26: the limbs and their bounds are those of the row, and the value law is that of the spec lemma. -/
theorem reduceCarryLaws : Obligations.ReduceCarryLaws := by
  intro a c hc hlimbs
  have ha := nominal_of_limb_lt hlimbs
  obtain ⟨hval, hslack⟩ := reduceCarry_spec ha hc
  obtain ⟨h0, h2, h3, h7⟩ := reduceCarry_limbs ha hc
  obtain ⟨r0, r2, r3, r7⟩ := carryRow_limbs_le hc
  obtain ⟨g0, -, g2, g3, -, -, -, g7, -⟩ := id ha
  refine ⟨fun i hi => ?_, ?_, hslack, ?_, ?_, ?_, ?_, reduceCarry_zero a⟩
  · rw [pack_mul_radix_eq_carryRow hc]
    exact limb_reduceCarry ha hc hi
  · have hint := congrArg (Nat.cast : Nat → Int) hval
    push_cast at hint ⊢
    linarith
  · rw [limb_zero, h0]
    omega
  · rw [limb_two, h2]
    omega
  · rw [limb_three, h3]
    omega
  · rw [limb_seven, h7]
    omega

/-! ReduceDegree (R153, R158). -/

theorem val_reduceDegree_modEq {c : List Nat} (h : wval c < 2 ^ 517 - 2 ^ 513) :
    val (reduceDegree c) * 2 ^ 257 ≡ wval c [MOD p] := by
  obtain ⟨k, m, hkm⟩ := (reduceDegree_spec h).1
  rw [Nat.ModEq, ← Nat.add_mul_mod_self_right _ k, hkm, Nat.add_mul_mod_self_right]

theorem reduceDegree_zero : reduceDegree (List.replicate 17 0) = FE.zero := by
  have hw : wval (List.replicate 17 0) = 0 := by decide
  rw [reduceDegree, hw]
  decide

/-- Settles O33: the residue comes from the exact division, the value from the unpacking of V. -/
theorem reduceDegreeLaws : Obligations.ReduceDegreeLaws := by
  refine ⟨fun c hc => ?_, reduceDegree_zero⟩
  obtain ⟨hval, hslack⟩ := unpackV_spec (montgomeryV_lt hc)
  exact ⟨val_reduceDegree_modEq hc, hslack, montgomeryV (wval c), montgomeryV_mul _, hval⟩

/-! The lanes as one integer (R154). -/

/-- The integer in the ten lanes, 57 bits apart. -/
def laneValue (t : Lanes) : Int :=
  t 0 + 2 ^ 57 * (t 1 + 2 ^ 57 * (t 2 + 2 ^ 57 * (t 3 + 2 ^ 57 * (t 4 + 2 ^ 57 * (t 5 + 2 ^ 57 * (t 6 + 2 ^ 57 * (t 7
    + 2 ^ 57 * (t 8 + 2 ^ 57 * t 9))))))))

theorem laneValue_eq (t : Lanes) : laneValue t =
    t 0 + 2 ^ 57 * (t 1 + 2 ^ 57 * (t 2 + 2 ^ 57 * (t 3 + 2 ^ 57 * (t 4 + 2 ^ 57 * (t 5 + 2 ^ 57 * (t 6 + 2 ^ 57 * (t 7
      + 2 ^ 57 * (t 8 + 2 ^ 57 * t 9)))))))) := rfl

theorem Lanes.put_same (t : Lanes) (m : Nat) (v : Int) : t.put m v m = v := if_pos rfl

theorem Lanes.put_ne (t : Lanes) {m k : Nat} (v : Int) (h : k ≠ m) : t.put m v k = t k := if_neg h

/-- Writing a lane changes the integer by the change of the lane. -/
theorem laneValue_put (t : Lanes) {m : Nat} (hm : m ≤ 9) (v : Int) :
    laneValue (t.put m v) = laneValue t + (2 ^ 57) ^ m * (v - t m) := by
  interval_cases m <;> simp [laneValue_eq, Lanes.put] <;> ring

theorem elim_of_le {j m : Nat} (x : Int) (t : Lanes) (h : m ≤ j) : elim j x t m = t m := if_neg (by omega)

/-- An elimination reaches five lanes up (R155). -/
theorem elimAdd_of_five_lt (x : Int) {d : Nat} (h : 5 < d) : elimAdd x d = 0 := by
  unfold elimAdd
  split <;> omega

/-- One lane of the repacked number, and what is left above it. -/
theorem lane_digit (T m : Nat) : T / 2 ^ (57 * m) % 2 ^ 57 + 2 ^ 57 * (T / 2 ^ (57 * (m + 1))) = T / 2 ^ (57 * m) := by
  rw [Nat.mul_succ, pow_add, ← Nat.div_div_eq_div_mul]
  exact Nat.mod_add_div _ _

/-- Repacking keeps the number (R154). -/
theorem laneValue_repack (T : Nat) : laneValue (repack T) = T := by
  have h (m : Nat) := congrArg (Nat.cast : Nat → Int) (lane_digit T m)
  have hlane (m : Nat) (hm : m < 9) : repack T m = ((T / 2 ^ (57 * m) % 2 ^ 57 : Nat) : Int) := if_pos hm
  have htop : repack T 9 = ((T / 2 ^ (57 * 9) : Nat) : Int) := rfl
  have hall : T / 2 ^ (57 * 0) = T := Nat.div_one T
  simp only [laneValue_eq, hlane _ (by decide : 0 < 9), hlane _ (by decide : 1 < 9), hlane _ (by decide : 2 < 9),
    hlane _ (by decide : 3 < 9), hlane _ (by decide : 4 < 9), hlane _ (by decide : 5 < 9), hlane _ (by decide : 6 < 9),
    hlane _ (by decide : 7 < 9), hlane _ (by decide : 8 < 9), htop]
  rw [← congrArg (Nat.cast : Nat → Int) hall]
  have h0 := h 0; have h1 := h 1; have h2 := h 2; have h3 := h 3; have h4 := h 4
  have h5 := h 5; have h6 := h 6; have h7 := h 7; have h8 := h 8
  simp only [Nat.cast_add, Nat.cast_mul, Nat.cast_pow, Nat.cast_ofNat, Nat.reduceAdd] at h0 h1 h2 h3 h4 h5 h6 h7 h8
  linear_combination h0 + 2 ^ 57 * h1 + (2 ^ 57) ^ 2 * h2 + (2 ^ 57) ^ 3 * h3 + (2 ^ 57) ^ 4 * h4 + (2 ^ 57) ^ 5 * h5
    + (2 ^ 57) ^ 6 * h6 + (2 ^ 57) ^ 7 * h7 + (2 ^ 57) ^ 8 * h8

/-! Elimination adds a multiple of p and clears a lane (R155). -/

/-- The five powers of two that make p up, which one elimination adds (R50, R155). -/
theorem p_eq_powers : (p : Int) = 2 ^ 256 - 2 ^ 224 - 2 ^ 96 + 2 ^ 64 - 1 := by decide

/-- The five amounts of one elimination make up `x·(p + 1)`: the constants in them cancel. -/
theorem elimAdd_sum (x : Int) :
    2 ^ 57 * (elimAdd x 1
        + 2 ^ 57 * (elimAdd x 2 + 2 ^ 57 * (elimAdd x 3 + 2 ^ 57 * (elimAdd x 4 + 2 ^ 57 * elimAdd x 5))))
      = x * (p + 1) := by
  have h50 := Int.emod_add_mul_ediv x (2 ^ 50)
  have h18 := Int.emod_add_mul_ediv x (2 ^ 18)
  have h4 := Int.emod_add_mul_ediv x (2 ^ 4)
  have h29 := Int.emod_add_mul_ediv x (2 ^ 29)
  rw [p_eq_powers]
  simp only [elimAdd]
  linear_combination 2 ^ 64 * h50 - 2 ^ 96 * h18 - 2 ^ 224 * h4 + 2 ^ 256 * h29

theorem laneValue_elim {j : Nat} (hj : j ≤ 4) (x : Int) (t : Lanes) :
    laneValue (elim j x t) = laneValue t + (2 ^ 57) ^ j * (x * (p + 1)) := by
  rw [← elimAdd_sum]
  interval_cases j <;> simp [laneValue_eq, elim, elimAdd_of_five_lt] <;> ring

/-- `M` times p has been added to T, and the lanes below j are clear (R155). -/
def EliminatedBelow (j : Nat) (T M : Int) (t : Lanes) : Prop :=
  laneValue t = T + M * p ∧ (0 ≤ M ∧ M < (2 ^ 57) ^ j) ∧ ∀ k, k < j → t k = 0

/-- One full step clears lane j (R155). -/
theorem elimStep_clears {j : Nat} (hj : j < 4) {T M : Int} {t : Lanes} (h : EliminatedBelow j T M t) :
    EliminatedBelow (j + 1) T (M + (2 ^ 57) ^ j * (t j % 2 ^ 57)) (elimStep j t) := by
  obtain ⟨hval, ⟨hM0, hM⟩, hlow⟩ := h
  have hx0 : 0 ≤ t j % 2 ^ 57 := Int.emod_nonneg _ (by decide)
  have hx : t j % 2 ^ 57 < 2 ^ 57 := Int.emod_lt_of_pos _ (by decide)
  have hcarry : laneValue ((t.put j 0).put (j + 1) (t (j + 1) + t j / 2 ^ 57))
      = laneValue t - (2 ^ 57) ^ j * (t j % 2 ^ 57) := by
    have hdiv := Int.emod_add_mul_ediv (t j) (2 ^ 57)
    rw [laneValue_put _ (by omega), laneValue_put _ (by omega), Lanes.put_ne _ _ (by omega), pow_succ _ j]
    linear_combination (2 ^ 57) ^ j * hdiv
  refine ⟨?_, ⟨by positivity, ?_⟩, fun k hk => ?_⟩
  · rw [elimStep, laneValue_elim (by omega), hcarry, hval]
    ring
  · have hstep : (2 ^ 57) ^ j * (t j % 2 ^ 57) ≤ (2 ^ 57) ^ j * (2 ^ 57 - 1) :=
      mul_le_mul_of_nonneg_left (by omega) (by positivity)
    rw [pow_succ _ j]
    linarith
  · rw [elimStep, elim_of_le _ _ (by omega), Lanes.put_ne _ _ (by omega)]
    by_cases hkj : k = j
    · rw [hkj, Lanes.put_same]
    · rw [Lanes.put_ne _ _ hkj, hlow k (by omega)]

/-- The lanes below 4 are clear, and so are the low 29 bits of lane 4: the lanes hold a multiple of 2^257. -/
def LowClear (t : Lanes) : Prop := (∀ k, k < 4 → t k = 0) ∧ t 4 % 2 ^ 29 = 0

/-- The last step clears the low 29 bits of lane 4, with M below 2^257 (R155). -/
theorem elimLast_clears {T M : Int} {t : Lanes} (h : EliminatedBelow 4 T M t) :
    laneValue (elimLast t) = T + (M + (2 ^ 57) ^ 4 * (t 4 % 2 ^ 29)) * p
      ∧ (0 ≤ M + (2 ^ 57) ^ 4 * (t 4 % 2 ^ 29) ∧ M + (2 ^ 57) ^ 4 * (t 4 % 2 ^ 29) < 2 ^ 29 * (2 ^ 57) ^ 4)
      ∧ LowClear (elimLast t) := by
  obtain ⟨hval, ⟨hM0, hM⟩, hlow⟩ := h
  have hx0 : 0 ≤ t 4 % 2 ^ 29 := Int.emod_nonneg _ (by decide)
  have hx : t 4 % 2 ^ 29 < 2 ^ 29 := Int.emod_lt_of_pos _ (by decide)
  have hput : laneValue (t.put 4 (t 4 - t 4 % 2 ^ 29)) = laneValue t - (2 ^ 57) ^ 4 * (t 4 % 2 ^ 29) := by
    rw [laneValue_put _ (by decide)]
    ring
  refine ⟨?_, ⟨by positivity, by omega⟩, fun k hk => ?_, ?_⟩
  · rw [elimLast, laneValue_elim (by omega), hput, hval]
    ring
  · rw [elimLast, elim_of_le _ _ (by omega), Lanes.put_ne _ _ (by omega), hlow k hk]
  · rw [elimLast, elim_of_le _ _ (by omega), Lanes.put_same]
    omega

/-! The post-fix and the normalisation move value between lanes (R156, R157). -/

theorem postFix_cases (t : Lanes) :
    (t 9 = -1 ∧ postFix t = (t.put 9 0).put 8 (t 8 - 2 ^ 57)) ∨ postFix t = t := by
  unfold postFix
  split
  · rename_i h
    exact .inl ⟨h, rfl⟩
  · exact .inr rfl

theorem normalise_eq (m : Nat) (t : Lanes) :
    normalise m t = (t.put (m + 1) (t (m + 1) + t m / 2 ^ 57)).put m (t m % 2 ^ 57) := rfl

theorem laneValue_postFix (t : Lanes) : laneValue (postFix t) = laneValue t := by
  obtain ⟨h, heq⟩ | heq := postFix_cases t
  · rw [heq, laneValue_put _ (by decide), laneValue_put _ (by decide), Lanes.put_ne _ _ (by decide), h]
    ring
  · rw [heq]

theorem LowClear.postFix {t : Lanes} (h : LowClear t) : LowClear (postFix t) := by
  obtain ⟨hlow, hmod⟩ := h
  obtain ⟨-, heq⟩ | heq := postFix_cases t
  · rw [heq]
    refine ⟨fun k hk => ?_, ?_⟩
    · rw [Lanes.put_ne _ _ (by omega), Lanes.put_ne _ _ (by omega), hlow k hk]
    · rw [Lanes.put_ne _ _ (by decide), Lanes.put_ne _ _ (by decide), hmod]
  · rw [heq]
    exact ⟨hlow, hmod⟩

theorem laneValue_normalise {m : Nat} (h8 : m ≤ 8) (t : Lanes) : laneValue (normalise m t) = laneValue t := by
  have hdiv := Int.emod_add_mul_ediv (t m) (2 ^ 57)
  rw [normalise_eq, laneValue_put _ (by omega), laneValue_put _ (by omega), Lanes.put_ne _ _ (by omega), pow_succ _ m]
  linear_combination (2 ^ 57) ^ m * hdiv

theorem LowClear.normalise {m : Nat} {t : Lanes} (h4 : 4 ≤ m) (h : LowClear t) : LowClear (normalise m t) := by
  obtain ⟨hlow, hmod⟩ := h
  refine ⟨fun k hk => ?_, ?_⟩
  · rw [normalise_eq, Lanes.put_ne _ _ (by omega), Lanes.put_ne _ _ (by omega), hlow k hk]
  · by_cases hm : m = 4
    · rw [hm, normalise_eq, Lanes.put_same]
      omega
    · rw [normalise_eq, Lanes.put_ne _ _ (by omega), Lanes.put_ne _ _ (by omega), hmod]

/-- What step 5 reads is the value of the lanes over 2^257 (R157). -/
theorem laneV_mul {t : Lanes} (h : LowClear t) : laneV t * (2 ^ 29 * (2 ^ 57) ^ 4) = laneValue t := by
  obtain ⟨hlow, hmod⟩ := h
  have hdiv := Int.emod_add_mul_ediv (t 4) (2 ^ 29)
  rw [hmod] at hdiv
  rw [laneV, laneValue_eq, hlow 0 (by decide), hlow 1 (by decide), hlow 2 (by decide), hlow 3 (by decide)]
  linear_combination (2 ^ 57) ^ 4 * hdiv

/-- R is 29 bits above the four lanes that the elimination clears. -/
theorem radix_eq : 2 ^ 257 = 2 ^ 29 * (2 ^ 57) ^ 4 := by rw [← pow_mul, ← pow_add]

/-- The whole pipeline: T plus the one multiple of p that clears the low 257 bits (R154 to R157). -/
theorem pipelineLanes_spec (T : Nat) :
    ∃ M : Nat, M < 2 ^ 257 ∧ laneValue (pipelineLanes T) = T + M * p ∧ LowClear (pipelineLanes T) := by
  have h0 : EliminatedBelow 0 T 0 (repack T) :=
    ⟨by rw [laneValue_repack, zero_mul, add_zero], ⟨le_rfl, by decide⟩, fun k hk => absurd hk (Nat.not_lt_zero k)⟩
  have h1 := elimStep_clears (by decide) h0
  have h2 := elimStep_clears (by decide) h1
  have h3 := elimStep_clears (by decide) h2
  have h4 := elimStep_clears (by decide) h3
  obtain ⟨hval, ⟨hM0, hM⟩, hlow⟩ := elimLast_clears h4
  obtain ⟨M, hMeq⟩ := Int.eq_ofNat_of_zero_le hM0
  rw [hMeq] at hval hM
  have hlow8 := ((((hlow.postFix.normalise (m := 4) (by decide)).normalise (m := 5) (by decide)).normalise (m := 6)
    (by decide)).normalise (m := 7) (by decide)).normalise (m := 8) (by decide)
  refine ⟨M, ?_, ?_, hlow8⟩
  · rw [radix_eq]
    exact_mod_cast hM
  · rw [pipelineLanes, laneValue_normalise (by decide), laneValue_normalise (by decide),
      laneValue_normalise (by decide), laneValue_normalise (by decide),
      laneValue_normalise (by decide), laneValue_postFix, hval]

theorem laneV_pipelineLanes (T : Nat) : laneV (pipelineLanes T) = montgomeryV T := by
  obtain ⟨M, hM, hval, hlow⟩ := pipelineLanes_spec T
  have hmul : laneV (pipelineLanes T) * ((2 ^ 257 : Nat) : Int) = ((T + M * p : Nat) : Int) := by
    rw [radix_eq]
    push_cast
    exact (laneV_mul hlow).trans hval
  have hdvd : (T + M * p) % 2 ^ 257 = 0 :=
    Nat.mod_eq_zero_of_dvd (Int.natCast_dvd_natCast.mp (Dvd.intro_left _ hmul))
  rw [montgomeryM_unique hM hdvd, ← montgomeryV_mul, Nat.cast_mul] at hmul
  exact Int.eq_of_mul_eq_mul_right (by exact_mod_cast (Nat.two_pow_pos 257).ne') hmul

/-- Settles O32: the lanes hold T plus the one multiple of p that clears the low 257 bits, which is R153's. -/
theorem pipelineIsClosedForm : Obligations.PipelineIsClosedForm := by
  intro c
  rw [reduceDegreePipeline, laneV_pipelineLanes, Int.toNat_natCast, reduceDegree]

end Sys2Proof.Machine
end

section
/-! SUPPORT. Proofs about the point units: the formulas in the field, and the values behind a Z that is a zero of the field
(R190, R192, R201, R202, R205, R207). -/

namespace Sys2Proof.Machine

/-! Vectors as field elements: in slack, with a known residue. -/

/-- The vector is in slack and stands for the field element (R22, R25). -/
def Represents (a : FE) (x : ZMod p) : Prop := InSlack a ∧ residue a = x

section Represents

variable {a b : FE} {x y : ZMod p}

theorem Represents.inSlack (h : Represents a x) : InSlack a := h.1

theorem represents_residue (h : InSlack a) : Represents a (residue a) := ⟨h, rfl⟩

theorem Represents.add (ha : Represents a x) (hb : Represents b y) : Represents (add a b) (x + y) :=
  ⟨add_inSlack ha.1 hb.1, by rw [residue_add ha.1 hb.1, ha.2, hb.2]⟩

theorem Represents.sub (ha : Represents a x) (hb : Represents b y) : Represents (sub a b) (x - y) :=
  ⟨sub_inSlack ha.1 hb.1, by rw [residue_sub ha.1 hb.1, ha.2, hb.2]⟩

theorem Represents.mul (ha : Represents a x) (hb : Represents b y) : Represents (mul a b) (x * y) :=
  ⟨mul_inSlack ha.1 hb.1, by rw [residue_mul ha.1 hb.1, ha.2, hb.2]⟩

theorem Represents.square (ha : Represents a x) : Represents (square a) (x * x) := ha.mul ha

theorem represents_fromBig (n : Nat) : Represents (fromBig n) n := ⟨fromBig_inSlack n, residue_fromBig n⟩

theorem feA_eq_fromBig : feA = fromBig curveA := by decide

theorem represents_feA : Represents feA curveA := feA_eq_fromBig ▸ represents_fromBig curveA

/-- The canonical integer, read in the field (R15). -/
theorem Represents.toBig_cast (h : Represents a x) : (toBig a : ZMod p) = x := (Machine.toBig_cast a).trans h.2

theorem residue_eq_toBig (a : FE) : residue a = toBig a := (toBig_cast a).symm

theorem represents_toBig (h : InSlack a) : Represents a (toBig a) := ⟨h, residue_eq_toBig a⟩

theorem toBig_eq_zero_iff : toBig a = 0 ↔ residue a = 0 := by
  have hzero : residue FE.zero = 0 := by rw [residue, val_zero, Nat.cast_zero, zero_mul]
  rw [← toBig_zero, toBig_eq_iff, hzero]

theorem Represents.toBig_eq_zero (h : Represents a x) (hx : x = 0) : toBig a = 0 :=
  toBig_eq_zero_iff.mpr (h.2.trans hx)

end Represents

/-! Double (R190, R192). -/

/-- The doubling formulas, as the 21 field operations compute them (R190). -/
theorem represents_double {P : Jacobian} {x y z : ZMod p} (hx : Represents P.x x) (hy : Represents P.y y)
    (hz : Represents P.z z) :
    Represents (double P).x ((3 * x ^ 2 + curveA * z ^ 4) ^ 2 - 8 * x * y ^ 2)
      ∧ Represents (double P).y ((3 * x ^ 2 + curveA * z ^ 4)
          * (4 * x * y ^ 2 - ((3 * x ^ 2 + curveA * z ^ 4) ^ 2 - 8 * x * y ^ 2)) - 8 * y ^ 4)
      ∧ Represents (double P).z (2 * y * z) := by
  have t1 := represents_feA.mul hz.square.square
  have t2 := hx.square
  have L := ((t2.add t2).add t2).add t1
  have y2 := hy.square
  have S0 := hx.mul y2
  have S1 := S0.add S0
  have S := S1.add S1
  have X3 := L.square.sub (S.add S)
  have q0 := y2.square
  have q1 := q0.add q0
  have q2 := q1.add q1
  have Y3 := (L.mul (S.sub X3)).sub (q2.add q2)
  have Z0 := hy.mul hz
  have Z3 := Z0.add Z0
  exact ⟨⟨X3.1, X3.2.trans (by ring)⟩, ⟨Y3.1, Y3.2.trans (by ring)⟩, ⟨Z3.1, Z3.2.trans (by ring)⟩⟩

/-- Settles O39: the formulas for the canonical integers of the coordinates. -/
theorem doubleFormulas : Obligations.DoubleFormulas := by
  intro P hx hy hz
  obtain ⟨X3, Y3, Z3⟩ := represents_double (represents_toBig hx) (represents_toBig hy) (represents_toBig hz)
  exact ⟨_, _, _, _, _, rfl, rfl, rfl, rfl, rfl, X3.toBig_cast, Y3.toBig_cast, Z3.toBig_cast, X3.inSlack, Y3.inSlack,
    Z3.inSlack⟩

theorem add_zero_zero : add FE.zero FE.zero = FE.zero := by decide

theorem square_zero : square FE.zero = FE.zero := mul_zero_limbs FE.zero

theorem zero_mul_limbs (a : FE) : mul FE.zero a = FE.zero := (mul_comm_limbs _ _).trans (mul_zero_limbs a)

theorem sub_zero_zero : sub FE.zero FE.zero = twoPVector := sub_self_limbs zero_inSlack

/-- 0 and 2p are two multiples of p apart, so their difference is the 2p vector again (R135 (e)). -/
theorem sub_zero_twoPVector : sub FE.zero twoPVector = twoPVector := by decide

/-- Double of the all-zero point, step by step (R192). -/
theorem double_zero : double ⟨FE.zero, FE.zero, FE.zero⟩ = ⟨twoPVector, twoPVector, FE.zero⟩ := by
  simp only [double, square_zero, mul_zero_limbs, zero_mul_limbs, add_zero_zero, sub_zero_zero, sub_zero_twoPVector]

/-- Two PVs add up with no carry, so the sum is the packing of 2p (R192). -/
theorem add_fePV_fePV : add fePV fePV = pack (2 * p) := by
  rw [add_eq_unpackV, val_fePV, ← two_mul, unpackV_of_lt (by decide)]

/-- Settles O40: the last product is the all-zero vector or PV, and doubling it gives the rest. -/
theorem doubleOfInfinity : Obligations.DoubleOfInfinity := by
  refine ⟨fun x y _ _ => ?_, double_zero, fun x y _ _ h0 hlt => ?_⟩
  · change add (mul y FE.zero) (mul y FE.zero) = FE.zero
    rw [mul_zero_limbs, add_zero_zero]
  · have hz : (double ⟨x, y, fePV⟩).z = pack (2 * p) := by
      change add (mul y fePV) (mul y fePV) = _
      rw [mul_comm_limbs, mul_fePV h0 hlt, add_fePV_fePV]
    rw [hz]
    exact ⟨rfl, by decide⟩

/-! FullAdd and MixedAdd (R201, R205). -/

/-- The addition formulas, as the 23 field operations compute them (R201). -/
theorem represents_fullAddSteps {P Q : Jacobian} {x1 y1 z1 x2 y2 z2 u1 s1 h r : ZMod p} (hx1 : Represents P.x x1)
    (hy1 : Represents P.y y1) (hz1 : Represents P.z z1) (hx2 : Represents Q.x x2) (hy2 : Represents Q.y y2)
    (hz2 : Represents Q.z z2) (hu1 : u1 = x1 * z2 ^ 2) (hs1 : s1 = y1 * z2 ^ 3) (hh : h = x2 * z1 ^ 2 - u1)
    (hr : r = y2 * z1 ^ 3 - s1) :
    Represents (fullAddSteps P Q).x (r ^ 2 - h ^ 3 - 2 * u1 * h ^ 2)
      ∧ Represents (fullAddSteps P Q).y (r * (u1 * h ^ 2 - (r ^ 2 - h ^ 3 - 2 * u1 * h ^ 2)) - s1 * h ^ 3)
      ∧ Represents (fullAddSteps P Q).z (h * z1 * z2) := by
  subst hr hh hs1 hu1
  have zz1 := hz1.square
  have zz2 := hz2.square
  have u1 := hx1.mul zz2
  have s1 := hy1.mul (zz2.mul hz2)
  have h := (hx2.mul zz1).sub u1
  have r := (hy2.mul (zz1.mul hz1)).sub s1
  have h2 := h.square
  have h3 := h2.mul h
  have v := u1.mul h2
  have X3 := ((r.square.sub h3).sub v).sub v
  have Y3 := (r.mul (v.sub X3)).sub (s1.mul h3)
  have Z3 := (h.mul hz1).mul hz2
  exact ⟨⟨X3.1, X3.2.trans (by ring)⟩, ⟨Y3.1, Y3.2.trans (by ring)⟩, ⟨Z3.1, Z3.2.trans (by ring)⟩⟩

/-- The mixed addition formulas, as the field operations compute them (R205). -/
theorem represents_mixedAdd {P : Jacobian} {A : Affine} {x1 y1 z1 x2 y2 dx dy : ZMod p} (hx1 : Represents P.x x1)
    (hy1 : Represents P.y y1) (hz1 : Represents P.z z1) (hx2 : Represents A.x x2) (hy2 : Represents A.y y2)
    (hdx : dx = x2 * z1 ^ 2 - x1) (hdy : dy = y2 * z1 ^ 3 - y1) :
    Represents (mixedAdd P A).x (dy ^ 2 - dx ^ 3 - 2 * x1 * dx ^ 2)
      ∧ Represents (mixedAdd P A).y (dy * (x1 * dx ^ 2 - (dy ^ 2 - dx ^ 3 - 2 * x1 * dx ^ 2)) - y1 * dx ^ 3)
      ∧ Represents (mixedAdd P A).z (dx * z1) := by
  subst hdx hdy
  have zz := hz1.square
  have dx := (hx2.mul zz).sub hx1
  have dy := (hy2.mul (zz.mul hz1)).sub hy1
  have d2 := dx.square
  have d3 := d2.mul dx
  have v := hx1.mul d2
  have X3 := ((dy.square.sub d3).sub v).sub v
  have Y3 := (dy.mul (v.sub X3)).sub (hy1.mul d3)
  have Z3 := dx.mul hz1
  exact ⟨⟨X3.1, X3.2.trans (by ring)⟩, ⟨Y3.1, Y3.2.trans (by ring)⟩, ⟨Z3.1, Z3.2.trans (by ring)⟩⟩

section FullAdd

variable {P Q : Jacobian}

theorem fullAdd_of_isInfZ_left (h : isInfZ P.z = true) : fullAdd P Q = Q := if_pos h

theorem fullAdd_of_isInfZ_right (h : isInfZ P.z = false) (h' : isInfZ Q.z = true) : fullAdd P Q = P :=
  (if_neg (Bool.eq_false_iff.mp h)).trans (if_pos h')

theorem fullAdd_of_finite (h : isInfZ P.z = false) (h' : isInfZ Q.z = false) : fullAdd P Q = fullAddSteps P Q :=
  (if_neg (Bool.eq_false_iff.mp h)).trans (if_neg (Bool.eq_false_iff.mp h'))

end FullAdd

/-- Settles O42: the two tests first, and then the formulas for the canonical integers of the coordinates. -/
theorem fullAddFormulas : Obligations.FullAddFormulas := by
  intro P Q hx1 hy1 hz1 hx2 hy2 hz2
  refine ⟨fullAdd_of_isInfZ_left, fullAdd_of_isInfZ_right, fun h h' => ?_,
    fullAdd_inSlack ⟨hx1, hy1, hz1⟩ ⟨hx2, hy2, hz2⟩⟩
  rw [fullAdd_of_finite h h']
  obtain ⟨X3, Y3, Z3⟩ := represents_fullAddSteps (represents_toBig hx1) (represents_toBig hy1) (represents_toBig hz1)
    (represents_toBig hx2) (represents_toBig hy2) (represents_toBig hz2) rfl rfl rfl rfl
  exact ⟨_, _, _, _, _, _, _, _, _, _, _, _, _, rfl, rfl, rfl, rfl, rfl, rfl, rfl, rfl, rfl, rfl, rfl, rfl, rfl,
    X3.toBig_cast, Y3.toBig_cast, Z3.toBig_cast⟩

/-! Values that are zeros of the field: Sub leaves p or 2p, and Mul leaves 0 only for a factor 0 (R202, R207). -/

/-- Only the all-zero vector has the value 0 (R12). -/
theorem val_eq_zero_iff {a : FE} : val a = 0 ↔ a = FE.zero := by
  refine ⟨fun h => ?_, fun h => h ▸ val_zero⟩
  unfold val at h
  refine eq_zero_iff_limb_eq.mpr fun i hi => ?_
  interval_cases i
  all_goals
    change BitVec.toNat _ = 0
    omega

theorem ne_zero_of_val_pos {a : FE} (h : 0 < val a) : a ≠ FE.zero := fun h0 => h.ne' (val_eq_zero_iff.mpr h0)

theorem val_pos_of_ne_zero {a : FE} (h : a ≠ FE.zero) : 0 < val a :=
  Nat.pos_of_ne_zero fun h0 => h (val_eq_zero_iff.mp h0)

/-- The unpacking takes off less than it is given: 2p is below 2^257. -/
theorem val_unpackV_pos {V : Nat} (h0 : 0 < V) (h : V < 2 ^ 260) : 0 < val (unpackV V) := by
  have hval := (unpackV_spec h).1
  have hp : 2 * p < 2 ^ 257 := by decide
  by_contra hzero
  have hV : V = 2 * p * (V / 2 ^ 257) := by
    rw [Nat.mul_right_comm]
    omega
  rcases Nat.eq_zero_or_pos (V / 2 ^ 257) with hc | hc
  · rw [hc, Nat.mul_zero] at hV
    omega
  · have hlt : 2 * p * (V / 2 ^ 257) < 2 ^ 257 * (V / 2 ^ 257) := Nat.mul_lt_mul_of_pos_right hp hc
    have hle := Nat.mul_div_le V (2 ^ 257)
    omega

theorem montgomeryV_pos {T : Nat} (h : 0 < T) : 0 < montgomeryV T := by
  have hmul := montgomeryV_mul T
  refine Nat.pos_of_ne_zero fun h0 => ?_
  rw [h0, Nat.zero_mul] at hmul
  omega

/-- A product of two vectors that are not all-zero is not all-zero. -/
theorem mul_ne_zero_limbs {a b : FE} (ha : InSlack a) (hb : InSlack b) (ha0 : a ≠ FE.zero) (hb0 : b ≠ FE.zero) :
    mul a b ≠ FE.zero := by
  refine ne_zero_of_val_pos ?_
  have hpos : 0 < val a * val b :=
    Nat.mul_pos (val_pos_of_ne_zero ha0) (val_pos_of_ne_zero hb0)
  have hlt : val a * val b < 2 ^ 517 - 2 ^ 513 := wval_wideMul a b ▸ wval_wideMul_lt ha hb
  rw [mul_eq_unpackV]
  exact val_unpackV_pos (montgomeryV_pos hpos) (montgomeryV_lt hlt)

/-- Vectors of one residue have congruent values (R15). -/
theorem val_modEq_of_residue_eq {a b : FE} (h : residue a = residue b) : val a ≡ val b [MOD p] := by
  have hcancel (c : FE) : residue c * ((2 ^ 257 : Nat) : ZMod p) = val c := by
    rw [residue, mul_assoc, rInv_mul_radix, mul_one]
  rw [← ZMod.natCast_eq_natCast_iff, ← hcancel a, ← hcancel b, h]

/-- For vectors of one residue Sub leaves p or 2p (R135 (e)). -/
theorem val_sub_of_residue_eq {a b : FE} (ha : InSlack a) (hb : InSlack b) (h : residue a = residue b) :
    ∃ k, 0 < k ∧ val (sub a b) = k * p := by
  obtain ⟨m, hm⟩ := (Nat.modEq_iff_dvd.mp (val_modEq_of_residue_eq h).symm)
  obtain ⟨n, -, hn⟩ := sub_range_of_congruent (m := m) ha hb (by rw [hm, Int.mul_comm])
  exact ⟨_, by split_ifs <;> decide, val_sub_of_multiple ha hb hn⟩

theorem ne_zero_of_val_eq {a : FE} {k : Nat} (hk : 0 < k) (h : val a = k * p) : a ≠ FE.zero :=
  ne_zero_of_val_pos (h ▸ Nat.mul_pos hk (by decide))

/-- The V of p·n is p up to n = 2^257, where M is 0 (R160, R202 (c)). -/
theorem montgomeryV_p_mul_of_le {n : Nat} (h0 : 0 < n) (hn : n ≤ 2 ^ 257) : montgomeryV (p * n) = p := by
  rcases hn.lt_or_eq with hlt | rfl
  · exact montgomeryV_p_mul h0 hlt
  · have hM : 0 = montgomeryM (p * 2 ^ 257) :=
      montgomeryM_unique (Nat.two_pow_pos 257) (by rw [Nat.zero_mul, Nat.add_zero, Nat.mul_mod_left])
    rw [montgomeryV, ← hM, Nat.zero_mul, Nat.add_zero, Nat.mul_div_cancel _ (Nat.two_pow_pos 257)]

/-- A product of value p·n gives PV (R202 (c)). -/
theorem mul_eq_fePV {a b : FE} {n : Nat} (h : val a * val b = p * n) (h0 : 0 < n) (hn : n ≤ 2 ^ 257) :
    mul a b = fePV := by
  rw [mul_eq_unpackV, h, montgomeryV_p_mul_of_le h0 hn, unpackV_of_lt (by decide), fePV_eq_pack]

/-- Settles O43: with the same x the difference H has the value p or 2p, so no product with it is all-zero, and within
the bounds each is PV. -/
theorem fullAddDegenerate : Obligations.FullAddDegenerate := by
  intro P Q hx1 hy1 hz1 hx2 hy2 hz2 hP hQ hx
  obtain ⟨hP0, -⟩ := isInfZ_eq_false_iff.mp hP
  obtain ⟨hQ0, -⟩ := isInfZ_eq_false_iff.mp hQ
  rw [fullAdd_of_finite hP hQ]
  have u1 := (represents_toBig hx1).mul (represents_toBig hz2).square
  have u2 := (represents_toBig hx2).mul (represents_toBig hz1).square
  have hu : residue (mul Q.x (square P.z)) = residue (mul P.x (square Q.z)) := by
    rw [u1.2, u2.2, ← sq, ← sq, hx]
  obtain ⟨k, hk, hval⟩ := val_sub_of_residue_eq u2.1 u1.1 hu
  have hh := sub_inSlack u2.1 u1.1
  have hh0 := ne_zero_of_val_eq hk hval
  obtain ⟨X3, Y3, Z3⟩ := represents_fullAddSteps (represents_toBig hx1) (represents_toBig hy1) (represents_toBig hz1)
    (represents_toBig hx2) (represents_toBig hy2) (represents_toBig hz2) rfl rfl rfl rfl
  rw [← hx, sub_self] at X3 Y3 Z3
  refine ⟨Z3.toBig_eq_zero (by ring), ?_, fun hy => ?_, fun hb1 hb2 => ?_⟩
  · exact mul_ne_zero_limbs (mul_inSlack hh hz1) hz2 (mul_ne_zero_limbs hh hz1 hh0 hP0) hQ0
  · rw [← hy, sub_self] at X3 Y3
    exact ⟨X3.toBig_eq_zero (by ring), Y3.toBig_eq_zero (by ring)⟩
  · have hz1pos := val_pos_of_ne_zero hP0
    have hz2pos := val_pos_of_ne_zero hQ0
    have hprod : val (sub (mul Q.x (square P.z)) (mul P.x (square Q.z))) * val P.z = p * (k * val P.z) := by
      rw [hval]
      ring
    have hfirst : mul (sub (mul Q.x (square P.z)) (mul P.x (square Q.z))) P.z = fePV :=
      mul_eq_fePV hprod (Nat.mul_pos hk hz1pos) (Nat.le_of_mul_le_mul_left (hprod ▸ hb1) (by decide))
    change mul (mul (sub (mul Q.x (square P.z)) (mul P.x (square Q.z))) P.z) Q.z = fePV
    rw [hfirst]
    exact mul_eq_fePV (by rw [val_fePV]) hz2pos hb2

/-- MixedAdd on the all-zero point: both differences are the 2p vector (R207 (a)). -/
theorem mixedAdd_zero (A : Affine) :
    mixedAdd ⟨FE.zero, FE.zero, FE.zero⟩ A = ⟨twoPVector, twoPVector, FE.zero⟩ := by
  simp only [mixedAdd, square_zero, mul_zero_limbs, zero_mul_limbs, sub_zero_zero]
  decide

/-- Settles O44: the formulas for the canonical integers, the same argument as FullAdd for a Z that is a zero of the field,
and the all-zero point step by step. -/
theorem mixedAddFormulas : Obligations.MixedAddFormulas := by
  refine ⟨fun P A hx1 hy1 hz1 hx2 hy2 => ?_, fun A _ _ => mixedAdd_zero A⟩
  obtain ⟨X3, Y3, Z3⟩ := represents_mixedAdd (represents_toBig hx1) (represents_toBig hy1) (represents_toBig hz1)
    (represents_toBig hx2) (represents_toBig hy2) rfl rfl
  refine ⟨⟨_, _, _, _, _, _, _, _, rfl, rfl, rfl, rfl, rfl, rfl, rfl, rfl, X3.toBig_cast, Y3.toBig_cast, Z3.toBig_cast⟩,
    X3.inSlack, Y3.inSlack, Z3.inSlack, fun hz0 hx => ?_⟩
  have tx := (represents_toBig hx2).mul (represents_toBig hz1).square
  have hres : residue (mul A.x (square P.z)) = residue P.x := by rw [tx.2, residue_eq_toBig, hx, ← sq]
  obtain ⟨k, hk, hval⟩ := val_sub_of_residue_eq tx.1 hx1 hres
  rw [← hx, sub_self] at X3 Y3 Z3
  refine ⟨Z3.toBig_eq_zero (by ring), ?_, fun hy => ?_⟩
  · exact mul_ne_zero_limbs (sub_inSlack tx.1 hx1) hz1 (ne_zero_of_val_eq hk hval) hz0
  · rw [← hy, sub_self] at X3 Y3
    exact ⟨X3.toBig_eq_zero (by ring), Y3.toBig_eq_zero (by ring)⟩

end Sys2Proof.Machine
end

section
/-! SUPPORT. The fixed-base table: fixed data, checked entry by entry on canonical integers (R58 to R60). -/

namespace Sys2Proof.Machine

/-- The generator, and its 32 doublings in the other group (R58). -/
theorem baseTable_generators :
    tableEntry 0 1 = (curveGx, curveGy) ∧ isDoubled 32 (tableEntry 0 1) (tableEntry 1 1) = true := by decide +kernel

/-- The entries of one index bit are 64 doublings apart (R58). -/
theorem baseTable_doublings (g : Fin 2) :
    isDoubled 64 (tableEntry g 1) (tableEntry g 2) = true ∧ isDoubled 64 (tableEntry g 2) (tableEntry g 4) = true
      ∧ isDoubled 64 (tableEntry g 4) (tableEntry g 8) = true := by
  revert g
  decide +kernel

/-- The other entries are the sums that their index bits name (R58). -/
theorem baseTable_sums (g : Fin 2) :
    chordSum (tableEntry g 1) (tableEntry g 2) (tableEntry g 3) = true
      ∧ (∀ i ∈ [1, 2, 3], chordSum (tableEntry g i) (tableEntry g 4) (tableEntry g (i + 4)) = true)
      ∧ ∀ i ∈ [1, 2, 3, 4, 5, 6, 7], chordSum (tableEntry g i) (tableEntry g 8) (tableEntry g (i + 8)) = true := by
  revert g
  decide +kernel

theorem baseTable_onCurve (g : Fin 2) :
    ∀ i ∈ List.range 16, 0 < i → onCurve (tableEntry g i).1 (tableEntry g i).2 = true := by
  revert g
  decide +kernel

/-! An entry below p is the FromBig of its canonical integer (R59). -/

theorem pack_injective_of_nominal {a b : FE} (ha : Nominal a) (hb : Nominal b) (h : val a = val b) : a = b := by
  rw [← pack_val ha, ← pack_val hb, h]

/-- FromBig undoes ToBig on packed vectors of a reduced value (R180, R182). -/
theorem fromBig_toBig {a : FE} (ha : Nominal a) (hlt : val a < p) : fromBig (toBig a) = a := by
  refine pack_injective_of_nominal (pack_nominal _) ha ?_
  have hres : residue (fromBig (toBig a)) = residue a := (residue_fromBig _).trans (toBig_cast a)
  exact (val_modEq_of_residue_eq hres).eq_of_lt_of_lt (val_fromBig_lt _) hlt

theorem baseGroup_val_lt : ∀ g : Fin 2, ∀ A ∈ baseGroup g, val A.x < p ∧ val A.y < p := by decide +kernel

theorem baseGroup_eq_fromBig (g : Fin 2) {i : Nat} (hi : i < 16) :
    (baseGroup g)[i]? = some ⟨fromBig (tableEntry g i).1, fromBig (tableEntry g i).2⟩ := by
  have hlen : i < (baseGroup g).length := (baseGroup_length g).symm ▸ hi
  have hmem := List.getElem_mem hlen
  obtain ⟨hx, hy⟩ := baseGroup_nominal g _ hmem
  obtain ⟨hxlt, hylt⟩ := baseGroup_val_lt g _ hmem
  rw [tableEntry, List.getElem?_eq_getElem hlen]
  change _ = some (Affine.mk (fromBig (toBig (baseGroup g)[i].x)) (fromBig (toBig (baseGroup g)[i].y)))
  rw [fromBig_toBig hx hxlt, fromBig_toBig hy hylt]

/-- Settles O45: the clauses of R58 entry by entry, and the packing of reduced values. -/
theorem baseTableIsTheComb : Obligations.BaseTableIsTheComb := by
  obtain ⟨hgen, hgroups⟩ := baseTable_generators
  refine ⟨fun g => ⟨baseGroup_length g, baseGroup_zero g⟩, hgen, hgroups, fun g => ?_, fun g i hi h0 => ?_⟩
  · obtain ⟨h2, h4, h8⟩ := baseTable_doublings g
    exact ⟨h2, h4, h8, baseTable_sums g⟩
  · exact ⟨baseTable_onCurve g i hi h0, baseGroup_eq_fromBig g (List.mem_range.mp hi)⟩

end Sys2Proof.Machine
end

section
/-! SUPPORT. Proofs about the host procedures: a program of field commands is simulated on field elements, and its results
are read back as canonical integers (R248, R249, R252). -/

namespace Sys2Proof.Machine

/-! What a program of field commands computes, on field elements. -/

/-- What is known of a state: the integer in DIN, and the field elements that some registers stand for. -/
structure Knowledge where
  din : Nat
  reg : Reg → Option (ZMod p)

/-- The state is ready for a command, and what is known of it holds. -/
def Knowledge.Holds (K : Knowledge) (s : State) : Prop :=
  s.status.err = false ∧ s.status.busy = false ∧ portValue s.din = K.din
    ∧ ∀ r x, K.reg r = some x → Represents (s.reg r) x

/-- The field element that a command writes, when its sources are known; the point commands are not followed. -/
def Knowledge.result (K : Knowledge) : Instr → Option (ZMod p)
  | .frombig _ => some K.din
  | .fadd _ ra rb => (K.reg ra).bind fun x => (K.reg rb).map fun y => x + y
  | .fmul _ ra rb => (K.reg ra).bind fun x => (K.reg rb).map fun y => x * y
  | .fsqr _ ra => (K.reg ra).map fun x => x * x
  | .ldc _ k => some (residue (constant k))
  | _ => none

/-- What is known after a host action. -/
def Knowledge.after (K : Knowledge) : HostAction → Knowledge
  | .din x => { K with din := x }
  | .cmd i => { K with reg := fun r => if r ∈ i.writes then K.result i else K.reg r }

/-- An action that the unit carries out: a 256-bit integer, or a command within its limits. -/
def HostAction.Legal : HostAction → Prop
  | .din x => x < 2 ^ 256
  | .cmd i => i.WellFormed

section Simulation

variable {K : Knowledge} {s : State}

/-- A command writes what its result says, from a state about which that much is known. -/
theorem represents_result {i : Instr} (hdin : s.dinl.toNat = K.din)
    (hreg : ∀ r x, K.reg r = some x → Represents (s.reg r) x) {r : Reg} {x : ZMod p} (hr : r ∈ i.writes)
    (hx : K.result i = some x) : Represents ((effect i s).reg r) x := by
  cases i with
  | frombig rd =>
    cases hx
    obtain rfl := List.mem_singleton.mp hr
    rw [effect, State.reg_setReg_same, hdin]
    exact represents_fromBig _
  | fadd rd ra rb =>
    obtain rfl := List.mem_singleton.mp hr
    obtain ⟨u, hu, hx⟩ := Option.bind_eq_some_iff.mp hx
    obtain ⟨v, hv, rfl⟩ := Option.map_eq_some_iff.mp hx
    have ha := hreg ra u hu
    have hb := hreg rb v hv
    rw [effect_fadd s ha.1 hb.1, State.reg_setReg_same]
    exact ha.add hb
  | fmul rd ra rb =>
    obtain rfl := List.mem_singleton.mp hr
    obtain ⟨u, hu, hx⟩ := Option.bind_eq_some_iff.mp hx
    obtain ⟨v, hv, rfl⟩ := Option.map_eq_some_iff.mp hx
    have ha := hreg ra u hu
    have hb := hreg rb v hv
    rw [effect_fmul s ha.1 hb.1, State.reg_setReg_same]
    exact ha.mul hb
  | fsqr rd ra =>
    obtain rfl := List.mem_singleton.mp hr
    obtain ⟨u, hu, rfl⟩ := Option.map_eq_some_iff.mp hx
    have ha := hreg ra u hu
    rw [effect_fsqr s ha.1, State.reg_setReg_same]
    exact ha.square
  | ldc rd k =>
    cases hx
    obtain rfl := List.mem_singleton.mp hr
    rw [effect, State.reg_setReg_same]
    exact represents_residue (constant_inSlack k)
  | _ => cases hx

/-- One host action does what it does to the field elements. -/
theorem runEvents_holds {a : HostAction} (ha : a.Legal) (h : K.Holds s) :
    ∃ t, runEvents a.events s = .next t ∧ (K.after a).Holds t := by
  obtain ⟨herr, hbusy, hdin, hreg⟩ := h
  cases a with
  | din x => exact ⟨_, runEvents_din s x, herr, hbusy, portValue_portWords ha, hreg⟩
  | cmd i =>
    refine ⟨_, runEvents_cmd s herr hbusy (decodeEncode i ha) ha, ?_, ?_, ?_, fun r x hx => ?_⟩
    · rw [State.finish_status, effect_status]
      exact herr
    · rfl
    · rw [State.finish_din, effect_din]
      exact hdin
    · rw [State.reg_finish]
      by_cases hr : r ∈ i.writes
      · have hx : K.result i = some x := (if_pos hr).symm.trans hx
        exact represents_result ((State.accept_dinl_toNat s _).trans hdin) hreg hr hx
      · have hx : K.reg r = some x := (if_neg hr).symm.trans hx
        rw [reg_effect_of_not_mem_writes _ hr]
        exact hreg r x hx

/-- So does a list of them. -/
theorem runActions_holds {as : List HostAction} (has : ∀ a ∈ as, a.Legal) (h : K.Holds s) :
    ∃ t, runActions as s = .next t ∧ (as.foldl Knowledge.after K).Holds t := by
  induction as generalizing K s with
  | nil => exact ⟨s, rfl, h⟩
  | cons a as ih =>
    obtain ⟨ha, has⟩ := List.forall_mem_cons.mp has
    obtain ⟨t, ht, hK⟩ := runEvents_holds ha h
    obtain ⟨u, hu, hKu⟩ := ih has hK
    exact ⟨u, by rw [runActions_cons, ht, andThen_next, hu], hKu⟩

/-- A known register is read back as the canonical integer of its field element, and nothing known but DIN's integer is
lost (R183). -/
theorem storeReg_holds {r : Reg} {x : ZMod p} (h : K.Holds s) (hr : K.reg r = some x) :
    ∃ t n, storeReg r s = .next (t, n) ∧ n < p ∧ (n : ZMod p) = x
      ∧ { K with din := portValue t.din : Knowledge }.Holds t := by
  obtain ⟨herr, hbusy, -, hreg⟩ := h
  have hx := hreg r x hr
  obtain ⟨t, ht, hf, hst⟩ := storeReg_eq s herr hbusy (decodeEncode (.tobig r) rfl) hx.1
  have hsame (q : Reg) : t.reg q = s.reg q := congrArg (fun v : Vector FE 64 => v[q.val]) hf
  exact ⟨t, _, ht, toBig_lt _, hx.toBig_cast, by rw [hst]; exact herr, by rw [hst], rfl,
    fun q y hy => hsame q ▸ hreg q y hy⟩

end Simulation

/-- Nothing is known of the registers of a ready state, and DIN is what it is. -/
theorem holds_of_ready {s : State} (herr : s.status.err = false) (hbusy : s.status.busy = false) :
    (Knowledge.mk (portValue s.din) fun _ => none).Holds s := ⟨herr, hbusy, rfl, fun _ _ h => by cases h⟩

/-! IsOnCurve (R249). -/

theorem isOnCurveCommands_legal {X Y : Nat} (hX : X < 2 ^ 256) (hY : Y < 2 ^ 256) :
    ∀ a ∈ isOnCurveCommands X Y, a.Legal := by
  simp only [isOnCurveCommands, List.forall_mem_cons]
  exact ⟨hX, rfl, hY, rfl, rfl, rfl, rfl, rfl, rfl, rfl, rfl, rfl, fun _ h => absurd h List.not_mem_nil⟩

/-- The two sides of the curve equation, in the registers that IsOnCurve reads. -/
theorem isOnCurveCommands_result (K : Knowledge) (X Y : Nat) :
    ((isOnCurveCommands X Y).foldl Knowledge.after K).reg 2 = some ((Y : ZMod p) * Y)
      ∧ ((isOnCurveCommands X Y).foldl Knowledge.after K).reg 3
        = some ((X : ZMod p) * X * X + residue feA * X + residue feBM) := ⟨rfl, rfl⟩

theorem feBM_eq_fromBig : feBM = fromBig curveB := by decide

/-- Two canonical integers are equal exactly when they stand for one field element. -/
theorem eq_iff_cast_eq {m n : Nat} (hm : m < p) (hn : n < p) : m = n ↔ (m : ZMod p) = n := by
  rw [ZMod.natCast_eq_natCast_iff]
  exact ⟨fun h => h ▸ rfl, fun h => h.eq_of_lt_of_lt hm hn⟩

/-- The curve equation modulo p, as an equation of field elements (R50). -/
theorem onCurve_iff (X Y : Nat) :
    onCurve X Y = true ↔ (Y : ZMod p) * Y = X * X * X + curveA * X + curveB := by
  rw [onCurve, beq_iff_eq, ← Nat.ModEq, ← ZMod.natCast_eq_natCast_iff]
  push_cast
  rfl

theorem isOnCurve_spec {s : State} {X Y : Nat} (herr : s.status.err = false) (hbusy : s.status.busy = false)
    (hX : X < 2 ^ 256) (hY : Y < 2 ^ 256) : ∃ t, isOnCurve X Y s = .next (t, onCurve X Y) := by
  obtain ⟨t, ht, hK⟩ := runActions_holds (isOnCurveCommands_legal hX hY) (holds_of_ready herr hbusy)
  obtain ⟨h2, h3⟩ := isOnCurveCommands_result (Knowledge.mk (portValue s.din) fun _ => none) X Y
  obtain ⟨u, l, hu, hl, hlx, hKu⟩ := storeReg_holds hK h2
  obtain ⟨v, r, hv, hr, hrx, -⟩ := storeReg_holds (r := 3) hKu h3
  have hAB : residue feA = curveA ∧ residue feBM = curveB :=
    ⟨represents_feA.2, by rw [feBM_eq_fromBig, residue_fromBig]⟩
  have hanswer : (l == r) = onCurve X Y := by
    rw [Bool.eq_iff_iff, beq_iff_eq, eq_iff_cast_eq hl hr, hlx, hrx, hAB.1, hAB.2, onCurve_iff]
  exact ⟨v, by rw [isOnCurve, ht, andThen_next, hu, andThen_next, hv, andThen_next, hanswer]⟩

/-! ToAffine (R248, R252). -/

theorem inverseModP_lt (z : Nat) : inverseModP z < p := by
  have hp : (0 : Int) < p := by decide
  have h := Int.emod_lt_of_pos (inverseLoop 512 p z 0 1) hp
  unfold inverseModP
  omega

theorem mul_inverseModP {z : Nat} (hz : z < p) (hc : Nat.Coprime p z) : (z : ZMod p) * inverseModP z = 1 := by
  have h := inverseModP_spec hz hc
  have hcast : ((z * inverseModP z : Nat) : ZMod p) = ((1 : Nat) : ZMod p) := by
    rw [ZMod.natCast_eq_natCast_iff, Nat.ModEq, h]
    decide
  rwa [Nat.cast_mul, Nat.cast_one] at hcast

theorem toAffineCommands_legal {zi : Nat} (h : zi < p) : ∀ a ∈ toAffineCommands zi, a.Legal := by
  simp only [toAffineCommands, List.forall_mem_cons]
  exact ⟨h.trans (by decide), rfl, rfl, rfl, rfl, rfl, fun _ h => absurd h List.not_mem_nil⟩

/-- The two quotients, in the registers that ToAffine reads. -/
theorem toAffineCommands_result {K : Knowledge} {x y : ZMod p} (hx : K.reg 0 = some x) (hy : K.reg 1 = some y)
    (zi : Nat) : ((toAffineCommands zi).foldl Knowledge.after K).reg 13 = some (x * (zi * zi))
      ∧ ((toAffineCommands zi).foldl Knowledge.after K).reg 14 = some (y * (zi * zi * zi)) := by
  have h13 : ((toAffineCommands zi).foldl Knowledge.after K).reg 13
      = (K.reg 0).bind fun x => (some ((zi : ZMod p) * zi)).map fun u => x * u := rfl
  have h14 : ((toAffineCommands zi).foldl Knowledge.after K).reg 14
      = (K.reg 1).bind fun y => (some ((zi : ZMod p) * zi * zi)).map fun u => y * u := rfl
  rw [h13, h14, hx, hy]
  exact ⟨rfl, rfl⟩

/-- What is known of a ready state whose first three registers are in slack. -/
def pointKnowledge (s : State) : Knowledge :=
  ⟨portValue s.din, fun r => if r ∈ [(0 : Reg), 1, 2] then some (residue (s.reg r)) else none⟩

theorem pointKnowledge_holds {s : State} (herr : s.status.err = false) (hbusy : s.status.busy = false)
    (h0 : InSlack (s.reg 0)) (h1 : InSlack (s.reg 1)) (h2 : InSlack (s.reg 2)) : (pointKnowledge s).Holds s := by
  refine ⟨herr, hbusy, rfl, fun r x hx => ?_⟩
  obtain ⟨hr, hx⟩ := Option.ite_none_right_eq_some.mp hx
  cases hx
  refine represents_residue ?_
  simp only [List.mem_cons, List.not_mem_nil, or_false] at hr
  obtain rfl | rfl | rfl := hr
  exacts [h0, h1, h2]

theorem toAffineFinish_spec {K : Knowledge} {s : State} {x y : ZMod p} (hK : K.Holds s) (hx : K.reg 0 = some x)
    (hy : K.reg 1 = some y) {zi : Nat} (hzi : zi < p) :
    ∃ (t : State) (m n : Nat), toAffineFinish zi s = .next (t, ((m : Int), (n : Int))) ∧ m < p ∧ n < p
      ∧ (m : ZMod p) = x * (zi * zi) ∧ (n : ZMod p) = y * (zi * zi * zi) := by
  obtain ⟨t, ht, hKt⟩ := runActions_holds (toAffineCommands_legal hzi) hK
  obtain ⟨h13, h14⟩ := toAffineCommands_result hx hy zi
  obtain ⟨u, m, hu, hm, hmx, hKu⟩ := storeReg_holds hKt h13
  obtain ⟨v, n, hv, hn, hnx, -⟩ := storeReg_holds (r := 14) hKu h14
  exact ⟨v, m, n, by rw [toAffineFinish, ht, andThen_next, hu, andThen_next, hv, andThen_next], hm, hn, hmx, hnx⟩

/-- Settles O60: the two procedures are simulated on field elements, where the inverse of a coprime Z is an inverse. -/
theorem hostProceduresReturn : Obligations.HostProceduresReturn := by
  refine ⟨fun s X Y herr hbusy hX hY => isOnCurve_spec herr hbusy hX hY, fun s herr hbusy h0 h1 h2 => ?_⟩
  have hK := pointKnowledge_holds herr hbusy h0 h1 h2
  obtain ⟨t, z, ht, hz, hzx, hKt⟩ := storeReg_holds (r := 2) hK rfl
  have hzbig : z = toBig (s.reg 2) :=
    (eq_iff_cast_eq hz (toBig_lt _)).mpr (hzx.trans (toBig_cast _).symm)
  refine ⟨fun hzero => ⟨t, ?_⟩, fun hcop => ?_⟩
  · rw [toAffine, ht, andThen_next]
    exact if_pos (hzbig.trans hzero)
  · rw [← hzbig] at hcop ⊢
    have hne : z ≠ 0 := fun h => absurd (h ▸ hcop) (by decide)
    obtain ⟨u, m, n, hu, hm, hn, hmx, hnx⟩ :=
      toAffineFinish_spec hKt (x := residue (s.reg 0)) (y := residue (s.reg 1)) rfl rfl (inverseModP_lt z)
    have hinv := mul_inverseModP hz hcop
    refine ⟨u, m, n, ?_, hm, hn, ?_, ?_⟩
    · rw [toAffine, ht, andThen_next]
      exact (if_neg hne).trans hu
    · rw [hmx, toBig_cast]
      linear_combination (residue (s.reg 0) * ((z : ZMod p) * inverseModP z + 1)) * hinv
    · rw [hnx, toBig_cast]
      linear_combination
        (residue (s.reg 1) * (((z : ZMod p) * inverseModP z) ^ 2 + (z : ZMod p) * inverseModP z + 1)) * hinv

end Sys2Proof.Machine
end
